-- ==== Sys2Proof/Word.lean ====
section
/-! DEFINITION. The word types of the UART polling engine, at the widths the spec gives them (00_scope.md R8, R9;
30_encoding.md R100, R111; 92_eei_decisions.md D3, D10). Bit 0 is the least significant bit (R9), every value is
unsigned (R9, R10). -/

namespace Sys2Proof

/-- A byte on the line, in a FIFO, in a client buffer, or one byte of the bus space. -/
abbrev Byte := BitVec 8

/-- A 32-bit value: one field of the Register Block (R31), a bus address (ADDR_W = 32), a timeout in milliseconds
(TIMEOUT_W = 32) or a length, capacity, index or count (LEN_W = 32). -/
abbrev Word := BitVec 32

/-- A count of the time source, in microseconds (TIME_W = 64, R214). -/
abbrev Micros := BitVec 64

/-- The 40-bit command word (R100): OPC in bits 39:36, FLAGS in bits 35:32, ARG in bits 31:0. -/
abbrev CommandWord := BitVec 40

/-- The 34-bit response word (R111): STATUS in bits 33:32, VALUE in bits 31:0. -/
abbrev ResponseWord := BitVec 34

end Sys2Proof
end

