-- ==== Sys2Proof/Config.lean ====
section
/-! DEFINITION. What is fixed for one machine: the open parameters (00_scope.md R8), the constants built into the
engine (30_encoding.md R105), the address map (10_state.md R31, R32; 20_memory.md R64), and the values the spec leaves
free (93_implementation_defined.md U3, U4, U5), which are opaque. -/

namespace Sys2Proof

/-- The parameters of 00_scope.md R8 that the spec leaves OPEN. "A model takes every row marked OPEN as an argument":
they stand in the state as data that no step changes, so a statement about every state is a statement about every value of
them. -/
structure Config where
  /-- IO_BASE, the "peripheral base address" (D23). -/
  ioBase : Word
  /-- SYS_CLOCK_HZ, the "assumed reference clock" of the baud formula (R135). No step reads it. -/
  sysClockHz : Nat
  /-- TX_DEPTH, capacity in bytes of the peripheral's transmit FIFO, at least 1 (D14). -/
  txDepth : Nat
  /-- RX_DEPTH, capacity in bytes of the peripheral's receive FIFO, at least 1 (D14). -/
  rxDepth : Nat
  /-- HOST_BUILD: whether BUF_READ, BUF_WRITE and FLUSH exist (R116). -/
  hostBuild : Bool
  deriving DecidableEq, Repr

/-- The eleven fields of the Register Block, in the order and with the names of 10_state.md R31. -/
inductive Field where
  | io | ier | iir | lcr | mcr | lsr | msr | scratch | cntl | stat | baud
  deriving DecidableEq, Repr

/-- The three "access disciplines per field" (00_scope.md R4 a). -/
inductive Access where
  | readWrite | readOnly | reserved
  deriving DecidableEq, Repr

/-- Offset of the Register Block from IO_BASE: "main register block at base+0x215040" (R31, R105). -/
def Config.blockOffset : Word := 0x215040#32

/-- Offset of a field in the Register Block (R31, column "offset in block"): eleven 4-byte fields, no padding. -/
def Field.blockPlace : Field → Word
  | .io => 0x00#32
  | .ier => 0x04#32
  | .iir => 0x08#32
  | .lcr => 0x0C#32
  | .mcr => 0x10#32
  | .lsr => 0x14#32
  | .msr => 0x18#32
  | .scratch => 0x1C#32
  | .cntl => 0x20#32
  | .stat => 0x24#32
  | .baud => 0x28#32

/-- Offset of a field from IO_BASE (R31, column "offset from IO_BASE"; R64): the block offset and the place in the block. -/
def Field.offset (f : Field) : Word := Config.blockOffset + f.blockPlace

/-- Access class of a field in the layout (R31, column "access"). LSR keeps the layout's class, read-write, although no
operation writes it (90_conflicts.md C1). -/
def Field.access : Field → Access
  | .io | .ier | .iir | .lcr | .mcr | .lsr | .cntl | .baud => .readWrite
  | .msr | .stat => .readOnly
  | .scratch => .reserved

/-- R31, column "engine reads": the fields some operation reads. -/
def Field.engineReads : Field → Bool
  | .io | .lsr => true
  | .ier | .iir | .lcr | .mcr | .msr | .scratch | .cntl | .stat | .baud => false

/-- R31, column "engine writes": the fields some operation writes. -/
def Field.engineWrites : Field → Bool
  | .io | .lcr | .cntl | .baud => true
  | .ier | .iir | .mcr | .lsr | .msr | .scratch | .stat => false

/-- The three fields INIT writes and nothing reads (R34, R35, R36). The engine's capability (R47) can store to these and
to no other storage field: the register operations of Machine/Ops.lean take a `ConfigField`, so a write of SCRATCH, MSR,
STAT or LSR cannot be written down (R38, U8, U9). -/
inductive ConfigField where
  | lcr | baud | cntl
  deriving DecidableEq, Repr

/-- The field of the Register Block a configuration write goes to. -/
def ConfigField.toField : ConfigField → Field
  | .lcr => .lcr
  | .baud => .baud
  | .cntl => .cntl

namespace Config

/-- Offset of the enable switch ENB from IO_BASE (R32, R105). -/
def enbOffset : Word := 0x215004#32

/-- ENB mask, "bit 0 = this peripheral's enable" (R105). -/
def enbMask : Byte := 0x01#8

/-- "line-control = 0x3 (8-bit mode)" (R105). -/
def lcrValue : Word := 0x00000003#32

/-- "baud-divisor = 270" (R105). -/
def baudValue : Word := 0x0000010E#32

/-- "extended-control = 0x3 (enable transmit + receive)" (R105). -/
def cntlValue : Word := 0x00000003#32

/-- The first of "GPIO lines 14 and 15" (R105; order D13). -/
def firstPin : Nat := 14

/-- The second of "GPIO lines 14 and 15" (R105; order D13). -/
def secondPin : Nat := 15

/-- "switched to alternate function 5" (R105). -/
def altFunction : Nat := 5

/-- DATA_READY, bit 0 of LSR (R30, R105). -/
def dataReadyMask : Word := 0x00000001#32

/-- TX_SPACE, bit 5 of LSR (R30, R105). -/
def txSpaceMask : Word := 0x00000020#32

/-- Line feed (R105; the code is ASCII, R106). -/
def lineFeed : Byte := 0x0A#8

/-- Carriage return (R105; the code is ASCII, R106). -/
def carriageReturn : Byte := 0x0D#8

/-- Microseconds per millisecond (R105, R160). -/
def microsPerMs : Nat := 1000

/-- Bus address of the enable switch. -/
def enbAddr (c : Config) : Word := c.ioBase + enbOffset

/-- Bus address of a field of the Register Block: IO_BASE plus a constant (R69). -/
def addr (c : Config) (f : Field) : Word := c.ioBase + f.offset

/-- What a launch needs (20_memory.md R63; R8 for the depths): IO_BASE a multiple of 4, the block inside the 32-bit
address space, both FIFO depths at least 1. -/
def legal (c : Config) : Bool :=
  c.ioBase.toNat % 4 == 0 && c.ioBase.toNat + 0x21506B ≤ 2 ^ 32 - 1 && 1 ≤ c.txDepth && 1 ≤ c.rxDepth

/-- The source's formula for the value of the baud-divisor field (R135): natural-number division, rounding toward zero.
The engine carries the constant `baudValue` and computes nothing; this is the formula that constant comes from. -/
def baudDivisor (clockHz baudRate : Nat) : Nat := clockHz / (8 * baudRate) - 1

/-- The parameters of `State.reset`. DESIGN CHOICE (log entry 2): the spec leaves all five OPEN and State.reset is one
state, so it takes the values the spec's own programs use (95_test_vectors.md section 4). Reset with any other parameters
is `State.resetWith`. -/
def launch : Config where
  ioBase := 0x3F000000#32
  sysClockHz := 250000000
  txDepth := 8
  rxDepth := 8
  hostBuild := true

/-- FREE VALUE (log entry 4): the bits of a bus read that the spec says are "any value" (U5, R33, R70, R74), one word per
engine step. -/
opaque freeWord : Nat → Word

/-- FREE VALUE (log entry 5): what a FIFO holds after an access the spec gives "any value" (U3, U4; R72 before INIT has
responded). -/
opaque freeQueue : Nat → List Byte

end Config

end Sys2Proof
end

