-- ==== Sys2Proof/Syntax.lean ====
section
/-! DEFINITION. The operations of the engine, its "instructions" (00_scope.md R7; 30_encoding.md R101 to R103): one
constructor per row of spec/opcode_table.json. SET_TIMEOUT has two rows, one per value of P. -/

namespace Sys2Proof

/-- One command of the client, decoded (R102: every operand is unsigned and unscaled). -/
inductive Instr where
  /-- INIT (R130). -/
  | init
  /-- SET_TIMEOUT with P = 1 and a duration in milliseconds (R133). -/
  | setTimeoutMs (ms : Word)
  /-- SET_TIMEOUT with P = 0: the timeout becomes absent (R133, R134 c). -/
  | setTimeoutNone
  /-- WRITE_BYTE (R151). -/
  | writeByte (b : Byte)
  /-- HAS_BYTE (R154). -/
  | hasByte
  /-- WAIT_FOR_BYTE (R159). -/
  | waitForByte
  /-- READ_BYTE (R164). -/
  | readByte
  /-- WRITE_STR with the length of the source buffer (R183). -/
  | writeStr (len : Word)
  /-- BUF_READ with the capacity of the destination buffer (R185); HOST_BUILD only. -/
  | bufRead (cap : Word)
  /-- BUF_WRITE with the length of the source buffer (R188); HOST_BUILD only. -/
  | bufWrite (len : Word)
  /-- FLUSH (R190); HOST_BUILD only. -/
  | flush
  deriving DecidableEq, Repr

end Sys2Proof
end

