-- ==== Sys2Proof/WellFormed.lean ====
section
/-! DEFINITION. Which commands exist in a build (30_encoding.md R101, R116). The operand widths of R102 are the types of
the constructors' arguments, so the build is the one check that is left. -/

namespace Sys2Proof

/-- The operations of the Buffered-Stream Facade, "present only in a host-capable build configuration" (R116). -/
def Instr.isFacade : Instr → Bool
  | .bufRead _ | .bufWrite _ | .flush => true
  | .init | .setTimeoutMs _ | .setTimeoutNone | .writeByte _ | .hasByte | .waitForByte | .readByte | .writeStr _ => false

/-- A command is well formed in a build when the build has its operation (R116). -/
def Instr.wellFormed (hostBuild : Bool) (i : Instr) : Bool := !i.isFacade || hostBuild

end Sys2Proof
end

