-- ==== Sys2Proof/Decode.lean ====
section
/-! DEFINITION. The decoder of the 40-bit command word, total and rejecting by name (30_encoding.md R100 to R104, R115),
and after it the encoder (R102, R103). -/

namespace Sys2Proof

/-- Why a command word is reserved (R115). -/
inductive Reserved where
  /-- OPC in 0xA to 0xF. -/
  | opcode
  /-- OPC 0x7, 0x8 or 0x9 in a build where HOST_BUILD is false. -/
  | facade
  /-- A FLAGS bit that must be zero is set: bits 35:33 always, bit 32 for an operation other than SET_TIMEOUT. -/
  | flags
  /-- An ARG bit that must be zero is set: all of ARG for an operation without operand and for SET_TIMEOUT with P = 0,
  ARG[31:8] for WRITE_BYTE. -/
  | operand
  deriving DecidableEq, Repr

/-- What the decoder answers: an instruction, or the name of the reason there is none. -/
inductive Decoded where
  | instr (i : Instr)
  | reserved (why : Reserved)
  deriving DecidableEq, Repr

/-- OPC, bits 39:36 (R100). -/
def opcField (w : CommandWord) : BitVec 4 := w.extractLsb' 36 4

/-- FLAGS, bits 35:32 (R100). -/
def flagsField (w : CommandWord) : BitVec 4 := w.extractLsb' 32 4

/-- ARG, bits 31:0 (R100). -/
def argField (w : CommandWord) : Word := w.extractLsb' 0 32

/-- An operation without operand: "ARG = 0 and FLAGS = 0" (R102). -/
def decodePlain (i : Instr) (flags : BitVec 4) (arg : Word) : Decoded :=
  if flags = 0#4 then (if arg = 0#32 then .instr i else .reserved .operand) else .reserved .flags

/-- An operation whose operand is the whole of ARG, with FLAGS = 0 (R102): WRITE_STR, BUF_READ, BUF_WRITE. -/
def decodeSized (mk : Word → Instr) (flags : BitVec 4) (arg : Word) : Decoded :=
  if flags = 0#4 then .instr (mk arg) else .reserved .flags

/-- SET_TIMEOUT, both rows (R102, R103): bit 32 is P; with P = 0, ARG must be 0. -/
def decodeSetTimeout (flags : BitVec 4) (arg : Word) : Decoded :=
  if flags = 1#4 then .instr (.setTimeoutMs arg) else decodePlain .setTimeoutNone flags arg

/-- WRITE_BYTE: "ARG[7:0] is the byte to transmit; ARG[31:8] must be 0" (R102). -/
def decodeWriteByte (flags : BitVec 4) (arg : Word) : Decoded :=
  if flags = 0#4 then
    (if arg.extractLsb' 8 24 = 0#24 then .instr (.writeByte (arg.setWidth 8)) else .reserved .operand)
  else .reserved .flags

/-- An operation of the facade exists only in a host build (R115, R116). -/
def decodeFacade (hostBuild : Bool) (d : Decoded) : Decoded := if hostBuild then d else .reserved .facade

/-- The decoder (R101, R103, R115): total on 40-bit words. -/
def decode (hostBuild : Bool) (w : CommandWord) : Decoded :=
  let flags := flagsField w
  let arg := argField w
  match (opcField w).toNat with
  | 0x0 => decodePlain .init flags arg
  | 0x1 => decodeSetTimeout flags arg
  | 0x2 => decodeWriteByte flags arg
  | 0x3 => decodePlain .hasByte flags arg
  | 0x4 => decodePlain .waitForByte flags arg
  | 0x5 => decodePlain .readByte flags arg
  | 0x6 => decodeSized .writeStr flags arg
  | 0x7 => decodeFacade hostBuild (decodeSized .bufRead flags arg)
  | 0x8 => decodeFacade hostBuild (decodeSized .bufWrite flags arg)
  | 0x9 => decodeFacade hostBuild (decodePlain .flush flags arg)
  | _ => .reserved .opcode

/-- The instruction the decoder reads from a word of the opcode table, in the build that has every row of the table
(HOST_BUILD true). The table numbers the bits of the one 40-bit word as R100 does, and the command port takes the word
whole (R113), so no byte order enters. -/
def decodeTableWord (nbits w : Nat) : Option Instr :=
  if w < 2 ^ nbits ∧ w < 2 ^ 40 then
    match decode true (BitVec.ofNat 40 w) with
    | .instr i => some i
    | .reserved _ => none
  else none

/-- OPC of an instruction (R101). -/
def Instr.opc : Instr → BitVec 4
  | .init => 0x0#4
  | .setTimeoutMs _ => 0x1#4
  | .setTimeoutNone => 0x1#4
  | .writeByte _ => 0x2#4
  | .hasByte => 0x3#4
  | .waitForByte => 0x4#4
  | .readByte => 0x5#4
  | .writeStr _ => 0x6#4
  | .bufRead _ => 0x7#4
  | .bufWrite _ => 0x8#4
  | .flush => 0x9#4

/-- FLAGS of an instruction (R102): only SET_TIMEOUT with P = 1 has a bit set, bit 32 of the word. -/
def Instr.flags : Instr → BitVec 4
  | .setTimeoutMs _ => 0x1#4
  | .init | .setTimeoutNone | .writeByte _ | .hasByte | .waitForByte | .readByte | .writeStr _ | .bufRead _ | .bufWrite _
  | .flush => 0x0#4

/-- ARG of an instruction (R102): the operand, zero-extended, or zero. -/
def Instr.arg : Instr → Word
  | .setTimeoutMs ms => ms
  | .writeByte b => b.setWidth 32
  | .writeStr n => n
  | .bufRead n => n
  | .bufWrite n => n
  | .init | .setTimeoutNone | .hasByte | .waitForByte | .readByte | .flush => 0#32

/-- The encoder: OPC, FLAGS and ARG side by side, OPC in the high bits (R100, R102). -/
def encode (i : Instr) : CommandWord := i.opc ++ i.flags ++ i.arg

/-- The `match` column of R103. -/
def Instr.tableMatch : Instr → CommandWord
  | .init => 0x0000000000#40
  | .setTimeoutMs _ => 0x1100000000#40
  | .setTimeoutNone => 0x1000000000#40
  | .writeByte _ => 0x2000000000#40
  | .hasByte => 0x3000000000#40
  | .waitForByte => 0x4000000000#40
  | .readByte => 0x5000000000#40
  | .writeStr _ => 0x6000000000#40
  | .bufRead _ => 0x7000000000#40
  | .bufWrite _ => 0x8000000000#40
  | .flush => 0x9000000000#40

/-- The `mask` column of R103. -/
def Instr.tableMask : Instr → CommandWord
  | .setTimeoutMs _ | .writeStr _ | .bufRead _ | .bufWrite _ => 0xFF00000000#40
  | .writeByte _ => 0xFFFFFFFF00#40
  | .init | .setTimeoutNone | .hasByte | .waitForByte | .readByte | .flush => 0xFFFFFFFFFF#40

end Sys2Proof
end

