-- ==== Sys2Proof/Machine/Memory.lean ====
section
/-! DEFINITION. The stored bytes of the bus space (10_state.md R41 a; 20_memory.md R61, R64): a list of (address, byte)
pairs in one canonical form. It holds the byte of the enable switch and the bytes of the storage fields of the Register
Block. IO and LSR are not storage: they are windows onto the peripheral's two FIFOs (R37, R33), which stand in State. -/

namespace Sys2Proof.Machine

/-- The bytes of the bus space that differ from what an unlisted address holds. -/
abbrev Memory := List Host.Cell

namespace Memory

/-- What an unlisted address holds. DESIGN CHOICE (log entry 3): the power-on contents are "unspecified" (R39); a machine
with any other contents is `State.resetWith`. -/
def unlisted : Byte := 0#8

/-- One byte of the bus space. -/
def read : Memory → Nat → Byte
  | [], _ => unlisted
  | (k, b) :: rest, a => if k = a then b else read rest a

/-- The cells after the byte at `a` becomes `b`, when the list is sorted: the cell at `a` is replaced, inserted or, when
`b` is what an unlisted address holds, dropped. -/
def write : Memory → Nat → Byte → Memory
  | [], a, b => if b = unlisted then [] else [(a, b)]
  | (k, c) :: rest, a, b =>
    if a < k then (if b = unlisted then (k, c) :: rest else (a, b) :: (k, c) :: rest)
    else if a = k then (if b = unlisted then rest else (a, b) :: rest)
    else (k, c) :: write rest a b

/-- Every address of the list is above `lo` (none when `lo` is absent), rising strictly, and no entry equals what an
unlisted address holds. -/
def wfAbove : Option Nat → Memory → Bool
  | _, [] => true
  | lo, (k, b) :: rest =>
    (match lo with
      | none => true
      | some l => decide (l < k)) && decide (b ≠ unlisted) && wfAbove (some k) rest

/-- The canonical form: equal contents are equal lists. -/
def wf (m : Memory) : Bool := wfAbove none m

/-- A 4-byte field, little-endian: the byte at `a` holds bits 7 to 0 (R61, D6). -/
def read32 (m : Memory) (a : Nat) : Word := m.read (a + 3) ++ m.read (a + 2) ++ m.read (a + 1) ++ m.read a

/-- A 4-byte write, little-endian, all four bytes as one event (R61, R67). -/
def write32 (m : Memory) (a : Nat) (w : Word) : Memory :=
  (((m.write a (w.extractLsb' 0 8)).write (a + 1) (w.extractLsb' 8 8)).write (a + 2) (w.extractLsb' 16 8)).write (a + 3)
    (w.extractLsb' 24 8)

end Memory

end Sys2Proof.Machine
end

