-- ==== Sys2Proof/Machine/State.lean ====
section
/-! DEFINITION. The state of the machine: the engine's latches (10_state.md sections 1 and 2), the client's command port and
buffers (20_memory.md R66), the peripheral behind the registers (10_state.md R42, R43), the collaborators, what the other
agents do next, and the trace of transactions. Plain data throughout. -/

namespace Sys2Proof.Machine

/-- `E.LIFE` (R20): no Driver Handle exists, or it exists. -/
inductive Life where
  | uninit | ready
  deriving DecidableEq, Repr

/-- Labels of procedure `tx` (R150). -/
inductive TxPoint where
  | t0 | t1
  deriving DecidableEq, Repr

/-- Labels of procedure `rx` (R163). -/
inductive RxPoint where
  | rx0 | rx1
  deriving DecidableEq, Repr

/-- Labels of procedure `wait` (R158). -/
inductive WaitPoint where
  | w0 | w1 | w2
  deriving DecidableEq, Repr

/-- What procedure `wait` returned (R158), the `r` of WAIT_FOR_BYTE's line A1 (R159). -/
inductive WaitResult where
  | ok | timedOut
  deriving DecidableEq, Repr

/-- `E.PHASE`, the engine's control point (R27): IDLE or the label of the line the engine performs next, with the label of
the shared procedure that line is running. DEDUCED (log entry 8): `x3tx`, `q3done` and `q0timeout` are the second
transaction of the lines X3, Q3 and Q0, so that one step performs at most one transaction (R13 allows "any equivalent
representation"). -/
inductive Phase where
  | idle
  /-- INIT (R130). -/
  | i0 | i1 | i2 | i3 | i4 | i5 | i6 | i7
  /-- SET_TIMEOUT (R133). -/
  | s0
  /-- WRITE_BYTE (R151). -/
  | b0 (p : TxPoint) | b1
  /-- HAS_BYTE (R154). -/
  | h0 | h1
  /-- WAIT_FOR_BYTE (R159). -/
  | a0 (p : WaitPoint) | a1 (r : WaitResult)
  /-- READ_BYTE (R164). -/
  | d0 (p : RxPoint) | d1
  /-- WRITE_STR (R183): `x3` tests the byte, `x3tx` sends the carriage return. -/
  | x0 | x1 | x2 | x3 | x3tx (p : TxPoint) | x4 (p : TxPoint) | x5
  /-- BUF_READ (R185): `q0timeout` raises Timeout in line Q0, `q3done` is the response of line Q3. -/
  | q0 (p : WaitPoint) | q0timeout | q1 | q2 | q3 | q3done | q4 (p : RxPoint) | q5 | q6
  /-- BUF_WRITE (R188). -/
  | y0 | y1 | y2 | y3 (p : TxPoint) | y4
  /-- FLUSH (R190). -/
  | f0
  deriving DecidableEq, Repr

/-- The function of a GPIO line as the engine's calls leave it (R217). -/
inductive PinFunction where
  /-- Whatever the line had at power-on: unspecified (R232). -/
  | powerOn
  /-- An alternate function. -/
  | alt (fn : Nat)
  deriving DecidableEq, Repr

/-- STATUS of a response (R111): codes 2 and 3 are never produced, so there is no constructor for them. -/
inductive Status where
  | ok | timedOut
  deriving DecidableEq, Repr

/-- A command as the client presents it (R66, R113): the word, with the source and the destination buffer that go with it. -/
structure Command where
  word : CommandWord
  src : List Byte
  dst : List Byte
  deriving DecidableEq, Repr

/-- One transaction of the engine (00_scope.md R12): the external events the model must reproduce in order (R13, R81). -/
inductive Transaction where
  /-- `MemRead(addr, n)` and the value it returned, zero-extended. -/
  | memRead (addr : Word) (n : Nat) (v : Word)
  /-- `MemWrite(addr, n, v)`, the value zero-extended. -/
  | memWrite (addr : Word) (n : Nat) (v : Word)
  /-- `TimeNow()` and the count it returned. -/
  | timeNow (t : Micros)
  /-- `GpioSetAlt(pin, fn)`. -/
  | gpioSetAlt (pin fn : Nat)
  /-- `SrcByte(i)` and the byte it returned. -/
  | srcByte (i : Word) (b : Byte)
  /-- `DstWrite(i, b)`. -/
  | dstWrite (i : Word) (b : Byte)
  /-- A response word (R111). -/
  | respond (w : ResponseWord)
  deriving DecidableEq, Repr

/-- One step of an agent outside the engine (R40, R220). -/
inductive EnvMove where
  /-- The line delivers a byte (R77). -/
  | rx (b : Byte)
  /-- The line takes the head of the transmit FIFO (R78). -/
  | drain
  /-- The time source advances by `d` microseconds, wrapping at 2^64 (R214). -/
  | tick (d : Micros)
  /-- Another bus master writes bits 7 to 1 of ENB (R40, R220). -/
  | enbWrite (v : BitVec 7)
  /-- Another bus master reads ENB (R40, R220). -/
  | enbRead
  /-- The client offers a command (R113). -/
  | offer (c : Command)
  /-- The client changes byte `i` of the source buffer of the command in progress (R85, U17). -/
  | srcSet (i : Nat) (b : Byte)
  /-- Another agent accesses the Register Block or ENB bit 0, or a second handle does: a violation of the ownership premise
  (R209, R210, U1). -/
  | intrude
  deriving DecidableEq, Repr

/-- Whose step comes next (R40, R82: "an interleaving of atomic steps"). -/
inductive Move where
  /-- The engine's step; `u` is what the peripheral puts into the bits of a read that the spec says are "any value". -/
  | engine (u : Word)
  | env (e : EnvMove)
  deriving DecidableEq, Repr

structure State where
  /-- The open parameters (R8, R44). No step changes them. -/
  cfg : Config
  /-- `E.LIFE` (R20). -/
  life : Life
  /-- `E.TO_VALID` (R21). -/
  toValid : Bool
  /-- `E.TO_MS` (R21). -/
  toMs : Word
  /-- `E.OPC` (R22). -/
  opc : BitVec 4
  /-- `E.FLAGS` (R22). -/
  flags : BitVec 4
  /-- `E.ARG` (R22). -/
  arg : Word
  /-- `E.BYTE` (R23). -/
  byte : Byte
  /-- `E.V` (R24). -/
  v : Word
  /-- `E.T0` (R25). -/
  t0 : Micros
  /-- `E.NOW` (R25). -/
  now : Micros
  /-- `E.IDX` (R26). -/
  idx : Word
  /-- `E.PHASE` (R27). -/
  phase : Phase
  /-- The client's ordered stream of offered commands, not yet accepted, oldest first (R113, R211). -/
  cmds : List Command
  /-- The source buffer of the current command (R66). -/
  src : List Byte
  /-- The destination buffer of the current command (R66). -/
  dst : List Byte
  /-- The stored bytes of the bus space: ENB and the storage fields of the Register Block (R31, R32, R43). -/
  mem : Memory
  /-- `P.TXQ`, head first (R42). -/
  txq : List Byte
  /-- `P.RXQ`, head first (R42). -/
  rxq : List Byte
  /-- The bytes the line has carried out, oldest first (R78). -/
  lineOut : List Byte
  /-- The function of GPIO line 14 (R217). -/
  pin14 : PinFunction
  /-- The function of GPIO line 15 (R217). -/
  pin15 : PinFunction
  /-- The count of the time source (R214). -/
  time : Micros
  /-- What the agents do next, first first. When it is empty only the engine steps. -/
  sched : List Move
  /-- What the undefined bits of a bus read are in this step (U5): supplied by `step`. The model's own field. -/
  undef : Word
  /-- How many free values have been drawn. The model's own field. -/
  freeCount : Nat
  /-- The engine's transactions so far, newest first (R13). The model's own record of what the outside sees. -/
  trace : List Transaction
  deriving DecidableEq, Repr

/-- What the spec leaves unspecified at power-on (R231, R232, U7). -/
structure PowerOn where
  toMs : Word
  opc : BitVec 4
  flags : BitVec 4
  arg : Word
  byte : Byte
  v : Word
  t0 : Micros
  now : Micros
  idx : Word
  /-- ENB and the storage fields of the Register Block. -/
  mem : Memory
  txq : List Byte
  rxq : List Byte
  pin14 : PinFunction
  pin15 : PinFunction
  time : Micros
  deriving DecidableEq, Repr

/-- Reset with any parameters and any power-on contents: `E.LIFE = UNINIT`, `E.PHASE = IDLE`, `E.TO_VALID = 0` (R231), no
transaction yet (R233), everything else as found (R232). A FIFO holds at most its depth (R42). -/
def State.resetWith (c : Config) (p : PowerOn) : State where
  cfg := c
  life := .uninit
  toValid := false
  toMs := p.toMs
  opc := p.opc
  flags := p.flags
  arg := p.arg
  byte := p.byte
  v := p.v
  t0 := p.t0
  now := p.now
  idx := p.idx
  phase := .idle
  cmds := []
  src := []
  dst := []
  mem := p.mem
  txq := p.txq.take c.txDepth
  rxq := p.rxq.take c.rxDepth
  lineOut := []
  pin14 := p.pin14
  pin15 := p.pin15
  time := p.time
  sched := []
  undef := 0
  freeCount := 0
  trace := []

/-- The power-on contents of `State.reset`. DESIGN CHOICE (log entry 1): the spec gives none of these values. -/
def PowerOn.chosen : PowerOn where
  toMs := 0
  opc := 0
  flags := 0
  arg := 0
  byte := 0
  v := 0
  t0 := 0
  now := 0
  idx := 0
  mem := []
  txq := []
  rxq := []
  pin14 := .powerOn
  pin15 := .powerOn
  time := 0

/-- The machine right after reset (R231 to R233), at the parameters and the power-on contents the log names (entries 1, 2). -/
def State.reset : State := State.resetWith Config.launch PowerOn.chosen

/-- The engine never faults: "There is no *fault* outcome: nothing the engine does makes the hardware trap" (R222). So no
one raises a fault, and the type is empty. -/
inductive Fault where
  deriving DecidableEq, Repr

/-- Why a step or an instruction has no meaning (R222 d). -/
inductive Refusal where
  /-- Raised by an arm of `exec` for an instruction without a meaning; no arm raises it. Safe. -/
  | notModelled (mnemonic : String)
  /-- Raised by `step` at IDLE for a command word the decoder rejects, and by a facade operation in a build without the
  facade (R115, D16: "no step, no bus access, no response"). Safe. -/
  | reservedWord (why : Reserved)
  /-- Raised by an instruction at IDLE in the wrong lifecycle state (R114, D15): INIT while READY, any other while UNINIT.
  Safe. -/
  | lifecycle (life : Life)
  /-- Raised by `step` when the parameters are not a legal launch (R63, D7, U11). Safe. -/
  | illFormedLaunch
  /-- Raised by `step` when another agent breaks the ownership premise (R209, R210, U1). Safe. -/
  | ownershipViolated
  deriving DecidableEq, Repr

/-- What a meaning or a step answers. -/
abbrev Result := Host.Outcome State Fault Refusal

end Sys2Proof.Machine
end

