-- ==== Sys2Proof/Machine/Flags.lean ====
section
/-! DEFINITION. The flags: DATA_READY and TX_SPACE of the line-status field (10_state.md R30, R33; 20_memory.md R72, R75,
R76), and the deadline test behind TIMED_OUT (41_byte_primitives.md R160). -/

namespace Sys2Proof.Machine

/-- Bit 0 of an LSR read: "exactly when `P.RXQ` is not empty at that instant" once INIT has responded (R75); before that
"every read of the block returns any value" (R72). -/
def State.dataReady (s : State) : Bool :=
  match s.life with
  | .ready => !s.rxq.isEmpty
  | .uninit => s.undef.getLsbD 0

/-- Bit 5 of an LSR read: "exactly when `len(P.TXQ) < TX_DEPTH` at that instant" once INIT has responded (R76); before that
any value (R72). -/
def State.txSpace (s : State) : Bool :=
  match s.life with
  | .ready => decide (s.txq.length < s.cfg.txDepth)
  | .uninit => s.undef.getLsbD 5

/-- The word an LSR read returns: the two flags in bits 0 and 5, the other bits any value (R33, R75, R76, D30). -/
def State.lsrWord (s : State) : Word :=
  (s.undef &&& ~~~(Config.dataReadyMask ||| Config.txSpaceMask))
    ||| (if s.dataReady then Config.dataReadyMask else 0#32)
    ||| (if s.txSpace then Config.txSpaceMask else 0#32)

/-- `expired(t0, now, ms)` (R160): elapsed time modulo 2^64, the product exact, the comparison strict and unsigned. -/
def expired (t0 now : Micros) (ms : Word) : Bool := decide (ms.toNat * Config.microsPerMs < (now - t0).toNat)

end Sys2Proof.Machine
end

