-- ==== Sys2Proof/Machine/Operands.lean ====
section
/-! DEFINITION. Operand forms: widening and narrowing (20_memory.md R70), the byte operand of WRITE_BYTE and the fields of
the response word (30_encoding.md R102, R111), client-buffer bytes (20_memory.md R66). -/

namespace Sys2Proof.Machine

/-- A byte written to IO: `zext_32(b)` (R70, D8). -/
def widen (b : Byte) : Word := b.setWidth 32

/-- The byte of a word read from IO or from ENB: `w[7:0]` (R70). -/
def lowByte (w : Word) : Byte := w.setWidth 8

/-- The word an IO read returns when the oldest received byte is `b`: `w[7:0] = b` and `w[31:8]` any value (R74, D9). -/
def ioReadWord (undef : Word) (b : Byte) : Word := undef.extractLsb' 8 24 ++ b

/-- STATUS (R111, D22). -/
def Status.code : Status → BitVec 2
  | .ok => 0#2
  | .timedOut => 1#2

/-- A response word (R111). -/
def responseWord (st : Status) (value : Word) : ResponseWord := st.code ++ value

/-- A flag as a response value: 1 for true, 0 for false (R111, D29). -/
def flagValue (b : Bool) : Word := if b then 1#32 else 0#32

/-- Byte `i` of the source buffer the client presented (R66). FREE VALUE (log entry 6): beyond the buffer, which the client
duty of R220 rules out, the spec states no value. -/
def sourceByte (src : List Byte) (i : Word) (undef : Word) : Byte := (src[i.toNat]?).getD (lowByte undef)

/-- What WRITE_STR sends for one byte: a line feed is preceded by a carriage return (R183). -/
def normalizeByte (b : Byte) : List Byte :=
  if b = Config.lineFeed then [Config.carriageReturn, b] else [b]

/-- "the input with a carriage-return byte inserted immediately before every line-feed byte, and all other bytes unchanged
and in order" (R184 b). -/
def normalize (bytes : List Byte) : List Byte := bytes.flatMap normalizeByte

end Sys2Proof.Machine
end

