-- ==== Sys2Proof/Machine/Ops.lean ====
section
/-! DEFINITION. The engine's operations: each primitive of 00_scope.md R12 on the state, the three shared procedures of
41_byte_primitives.md a line at a time, command acceptance (30_encoding.md R113, R114), the response, and raising Timeout,
the one exception (60_exceptions.md R200). There is no return from an exception: "the response is the whole of the
exception" (R204). -/

namespace Sys2Proof.Machine

/-! ## The state's small updates -/

/-- One transaction is performed (R81). -/
def State.record (t : Transaction) (s : State) : State := { s with trace := t :: s.trace }

/-- `E.PHASE <- p` (R27, R28). -/
def State.goto (p : Phase) (s : State) : State := { s with phase := p }

/-- `E.IDX <- i` (R26). -/
def State.setIdx (i : Word) (s : State) : State := { s with idx := i }

/-! ## The bus: MemRead and MemWrite at the addresses of R64 -/

/-- `E.V <- RegRead(LSR)`: one poll, 4 bytes; "has no side effects" (R33, R68). -/
def State.readLsr (s : State) : State :=
  { s with v := s.lsrWord, trace := .memRead (s.cfg.addr .lsr) 4 s.lsrWord :: s.trace }

/-- The word an IO read returns: the head of `P.RXQ` in the low byte (R74). Any value when `P.RXQ` is empty (U4) or INIT has
not responded (R72). -/
def State.ioWord (s : State) : Word :=
  match s.life, s.rxq with
  | .ready, b :: _ => ioReadWord s.undef b
  | .ready, [] => s.undef
  | .uninit, _ => s.undef

/-- The byte `w[7:0]` of that word. It is computed without the undefined bits where it does not depend on them. -/
def State.ioByte (s : State) : Byte :=
  match s.life, s.rxq with
  | .ready, b :: _ => b
  | .ready, [] => lowByte s.undef
  | .uninit, _ => lowByte s.undef

/-- `P.RXQ` after an IO read: the head is removed (R74); an empty queue stays empty (U4); before INIT has responded the
contract does not hold and the queue is any value (R72, log entry 5). -/
def State.rxqAfterRead (s : State) : List Byte :=
  match s.life with
  | .ready => s.rxq.tail
  | .uninit => (Config.freeQueue s.freeCount).take s.cfg.rxDepth

/-- `RegRead(IO)` as `rx` uses it (R163): the word into `E.V`, its low byte into `E.BYTE`, the head of `P.RXQ` removed. -/
def State.readIo (s : State) : State :=
  { s with v := s.ioWord, byte := s.ioByte, rxq := s.rxqAfterRead,
           trace := .memRead (s.cfg.addr .io) 4 s.ioWord :: s.trace }

/-- `P.TXQ` after a write of `w` to IO: `w[7:0]` at the tail while there is room (R73); any value when the queue is full
(U3) or INIT has not responded (R72), which no run reaches (log entry 5). -/
def State.txqAfterWrite (w : Word) (s : State) : List Byte :=
  if s.life = .ready ∧ s.txq.length < s.cfg.txDepth then s.txq ++ [lowByte w]
  else (Config.freeQueue s.freeCount).take s.cfg.txDepth

/-- `RegWrite(IO, zext_32(b))` (R70, R150). -/
def State.writeIo (b : Byte) (s : State) : State :=
  { s with txq := s.txqAfterWrite (widen b), trace := .memWrite (s.cfg.addr .io) 4 (widen b) :: s.trace }

/-- The byte of the enable switch (R32). -/
def State.enb (s : State) : Byte := s.mem.read s.cfg.enbAddr.toNat

/-- The stored word of a field of the Register Block: `P.LCR`, `P.BAUD`, `P.CNTL` (R43). -/
def State.stored (f : Field) (s : State) : Word := s.mem.read32 (s.cfg.addr f).toNat

/-- `E.V <- zext_32(MemRead(ENB_ADDR, 1))`, the read half of the set-bit (R84, R130 I0). -/
def State.readEnb (s : State) : State :=
  { s with v := widen s.enb, trace := .memRead s.cfg.enbAddr 1 (widen s.enb) :: s.trace }

/-- `MemWrite(ENB_ADDR, 1, b)`: "A write of ENB stores the byte written" (R79). -/
def State.writeEnb (b : Byte) (s : State) : State :=
  { s with mem := s.mem.write s.cfg.enbAddr.toNat b, trace := .memWrite s.cfg.enbAddr 1 (widen b) :: s.trace }

/-- `RegWrite(F, w)` for LCR, BAUD or CNTL: the word written is stored (R79). -/
def State.writeConfig (f : ConfigField) (w : Word) (s : State) : State :=
  { s with mem := s.mem.write32 (s.cfg.addr f.toField).toNat w,
           trace := .memWrite (s.cfg.addr f.toField) 4 w :: s.trace }

/-! ## The collaborators and the client's buffers -/

/-- `GpioSetAlt(pin, fn)` (R217). The engine calls it for lines 14 and 15 only, and only these two lines are held. -/
def State.gpioSetAlt (pin fn : Nat) (s : State) : State :=
  { s with pin14 := if pin = 14 then .alt fn else s.pin14,
           pin15 := if pin = 15 then .alt fn else s.pin15,
           trace := .gpioSetAlt pin fn :: s.trace }

/-- `E.T0 <- TimeNow()` (R158 W0). -/
def State.sampleStart (s : State) : State := { s with t0 := s.time, trace := .timeNow s.time :: s.trace }

/-- `E.NOW <- TimeNow()` (R158 W2). -/
def State.sampleNow (s : State) : State := { s with now := s.time, trace := .timeNow s.time :: s.trace }

/-- `E.BYTE <- SrcByte(E.IDX)` (R183 X2, R188 Y2): the byte present when the read is made (U17). -/
def State.fetchByte (s : State) : State :=
  { s with byte := sourceByte s.src s.idx s.undef,
           trace := .srcByte s.idx (sourceByte s.src s.idx s.undef) :: s.trace }

/-- `DstWrite(E.IDX, E.BYTE)` (R185 Q5). A slot beyond the buffer the client presented does not exist and nothing is stored
(log entry 7); the client duty of R220 rules it out. -/
def State.storeByte (s : State) : State :=
  { s with dst := s.dst.set s.idx.toNat s.byte, trace := .dstWrite s.idx s.byte :: s.trace }

/-! ## Response, Timeout, acceptance -/

/-- `respond(status, value)`: the response word is emitted and `E.PHASE <- IDLE`, in one step (R12, R113). -/
def respond (st : Status) (value : Word) (s : State) : Result :=
  .next ((s.record (.respond (responseWord st value))).goto .idle)

/-- Taking the one exception: `raise Timeout()` is `respond(TIMED_OUT, 0)` and changes nothing else (R200, R203). -/
def raiseTimeout (s : State) : Result := respond .timedOut 0#32 s

/-- Command acceptance (R113): one atomic step latches OPC, FLAGS and ARG, takes the buffers that go with the command
(R66), and sets `E.PHASE` to the operation's first label. No transaction is performed. -/
def State.latch (i : Instr) (first : Phase) (s : State) : State :=
  { s with opc := i.opc, flags := i.flags, arg := i.arg,
           src := (s.cmds.head?.map Command.src).getD [],
           dst := (s.cmds.head?.map Command.dst).getD [],
           cmds := s.cmds.tail, phase := first }

/-- The lifecycle gate (R114): INIT needs UNINIT, every other operation READY; a violation is refused, with no step and no
bus access. -/
def accept (gate : Life) (i : Instr) (first : Phase) (s : State) : Result :=
  if s.life = gate then .next (s.latch i first) else .refused (.lifecycle s.life)

/-- The gate of a facade operation: it exists only when HOST_BUILD is true (R115, R116). -/
def acceptFacade (i : Instr) (first : Phase) (s : State) : Result :=
  if s.cfg.hostBuild then accept .ready i first s else .refused (.reservedWord .facade)

/-- A command offered while another is in progress: "a client that offers a second command before the response simply
waits" (R113, D18). `step` never asks this: it runs the command in progress. -/
def commandWaits (s : State) : Result := .next s

/-! ## The shared procedures, one line a step -/

/-- A line of `tx(b)` (R150). `here` gives the outer label's control points, `ret` is where `tx` returns to. The test is
`E.V[5]` of the word just read (Laws: `lsrWord_bit5`). -/
def txLine (b : Byte) (here : TxPoint → Phase) (ret : Phase) (p : TxPoint) (s : State) : Result :=
  match p with
  | .t0 => .next (s.readLsr.goto (if s.txSpace then here .t1 else here .t0))
  | .t1 => .next ((s.writeIo b).goto ret)

/-- A line of `rx()` (R163). The test is `E.V[0]` of the word just read (Laws: `lsrWord_bit0`). -/
def rxLine (here : RxPoint → Phase) (ret : Phase) (p : RxPoint) (s : State) : Result :=
  match p with
  | .rx0 => .next (s.readLsr.goto (if s.dataReady then here .rx1 else here .rx0))
  | .rx1 => .next (s.readIo.goto ret)

/-- A line of `wait()` (R158): `ok` and `late` are where it returns to with OK and with TIMED_OUT. The poll comes before the
deadline test, and the time is sampled only after an unsuccessful poll and only when a timeout is present (D11). -/
def waitLine (here : WaitPoint → Phase) (ok late : Phase) (p : WaitPoint) (s : State) : Result :=
  match p with
  | .w0 => .next (s.sampleStart.goto (here .w1))
  | .w1 => .next (s.readLsr.goto (if s.dataReady then ok else if s.toValid then here .w2 else here .w1))
  | .w2 => .next (s.sampleNow.goto (if expired s.t0 s.time s.toMs then late else here .w1))

/-- A readiness poll as HAS_BYTE's (R185 Q3): where to go when a byte is ready, and when none is. -/
def pollLine (yes no : Phase) (s : State) : Result :=
  .next (s.readLsr.goto (if s.dataReady then yes else no))

/-- The head of a per-byte loop (R183 X1, R185 Q2, R188 Y1): answer when `E.IDX` has reached `E.ARG`, else go on. -/
def loopLine (value : Word) (body : Phase) (s : State) : Result :=
  if s.idx = s.arg then respond .ok value s else .next (s.goto body)

/-- The end of a per-byte loop: `E.IDX <- E.IDX + 1` and back (R26). -/
def nextByteLine (loop : Phase) (s : State) : Result := .next ((s.setIdx (s.idx + 1#32)).goto loop)

/-- The state INIT's transactions leave behind (R80, R130), without the transactions: what `State.withFetchWord` needs so
that an operation other than INIT can be the next one (R114, R236). -/
def State.broughtUp (s : State) : State :=
  let enabled := s.mem.write s.cfg.enbAddr.toNat (s.enb ||| Config.enbMask)
  let lined := enabled.write32 (s.cfg.addr .lcr).toNat Config.lcrValue
  let rated := lined.write32 (s.cfg.addr .baud).toNat Config.baudValue
  { s with life := .ready, toValid := false,
           mem := rated.write32 (s.cfg.addr .cntl).toNat Config.cntlValue,
           pin14 := .alt Config.altFunction, pin15 := .alt Config.altFunction }

end Sys2Proof.Machine
end

