-- ==== Sys2Proof/Machine/BytePrimitives.lean ====
section
/-! DEFINITION. WRITE_BYTE, HAS_BYTE, WAIT_FOR_BYTE and READ_BYTE (41_byte_primitives.md), one labelled line a step. -/

namespace Sys2Proof.Machine

/-- WRITE_BYTE (R151): `tx(E.ARG[7:0])`, then OK 0. -/
def execWriteByte (b : Byte) (s : State) : Result :=
  match s.phase with
  | .idle => accept .ready (.writeByte b) (.b0 .t0) s
  | .b0 p => txLine (lowByte s.arg) .b0 .b1 p s
  | .b1 => respond .ok 0#32 s
  | _ => commandWaits s

/-- HAS_BYTE (R154): exactly one poll, then the flag `E.V[0]`. -/
def execHasByte (s : State) : Result :=
  match s.phase with
  | .idle => accept .ready .hasByte .h0 s
  | .h0 => pollLine .h1 .h1 s
  | .h1 => respond .ok (flagValue (s.v.getLsbD 0)) s
  | _ => commandWaits s

/-- WAIT_FOR_BYTE (R159): `wait`, then OK 0 or Timeout. -/
def execWaitForByte (s : State) : Result :=
  match s.phase with
  | .idle => accept .ready .waitForByte (.a0 .w0) s
  | .a0 p => waitLine .a0 (.a1 .ok) (.a1 .timedOut) p s
  | .a1 .ok => respond .ok 0#32 s
  | .a1 .timedOut => raiseTimeout s
  | _ => commandWaits s

/-- READ_BYTE (R164): `E.BYTE <- rx()`, then the byte; the timeout is ignored. -/
def execReadByte (s : State) : Result :=
  match s.phase with
  | .idle => accept .ready .readByte (.d0 .rx0) s
  | .d0 p => rxLine .d0 .d1 p s
  | .d1 => respond .ok (widen s.byte) s
  | _ => commandWaits s

end Sys2Proof.Machine
end

