-- ==== Sys2Proof/Machine/InitConfig.lean ====
section
/-! DEFINITION. INIT and SET_TIMEOUT (40_init_config.md). A meaning performs one step of its instruction: acceptance at
IDLE, then the labelled line at the engine's control point. -/

namespace Sys2Proof.Machine

/-- INIT (R130): eight lines, seven external transactions, in this order (R251). -/
def execInit (s : State) : Result :=
  match s.phase with
  | .idle => accept .uninit .init .i0 s
  | .i0 => .next (s.readEnb.goto .i1)
  | .i1 => .next ((s.writeEnb (lowByte s.v ||| Config.enbMask)).goto .i2)
  | .i2 => .next ((s.writeConfig .lcr Config.lcrValue).goto .i3)
  | .i3 => .next ((s.writeConfig .baud Config.baudValue).goto .i4)
  | .i4 => .next ((s.gpioSetAlt Config.firstPin Config.altFunction).goto .i5)
  | .i5 => .next ((s.gpioSetAlt Config.secondPin Config.altFunction).goto .i6)
  | .i6 => .next ((s.writeConfig .cntl Config.cntlValue).goto .i7)
  | .i7 => respond .ok 0#32 { s with toValid := false, life := .ready }
  | _ => commandWaits s

/-- Line S0 of SET_TIMEOUT (R133): `E.TO_VALID <- E.FLAGS[0]; E.TO_MS <- E.ARG; respond(OK, 0)`, both forms. -/
def setTimeoutLine (s : State) : Result :=
  respond .ok 0#32 { s with toValid := s.flags.getLsbD 0, toMs := s.arg }

/-- SET_TIMEOUT with P = 1 (R133). -/
def execSetTimeoutMs (ms : Word) (s : State) : Result :=
  match s.phase with
  | .idle => accept .ready (.setTimeoutMs ms) .s0 s
  | .s0 => setTimeoutLine s
  | _ => commandWaits s

/-- SET_TIMEOUT with P = 0 (R133, R134 c). -/
def execSetTimeoutNone (s : State) : Result :=
  match s.phase with
  | .idle => accept .ready .setTimeoutNone .s0 s
  | .s0 => setTimeoutLine s
  | _ => commandWaits s

end Sys2Proof.Machine
end

