-- ==== Sys2Proof/Machine/StreamAdapters.lean ====
section
/-! DEFINITION. WRITE_STR, BUF_READ, BUF_WRITE and FLUSH (42_stream_adapters.md), one labelled line a step. -/

namespace Sys2Proof.Machine

/-- WRITE_STR (R183): each byte through `tx`, a line feed after a carriage return that goes through its own `tx`. -/
def execWriteStr (len : Word) (s : State) : Result :=
  match s.phase with
  | .idle => accept .ready (.writeStr len) .x0 s
  | .x0 => .next ((s.setIdx 0#32).goto .x1)
  | .x1 => loopLine 0#32 .x2 s
  | .x2 => .next (s.fetchByte.goto .x3)
  | .x3 => .next (s.goto (if s.byte = Config.lineFeed then .x3tx .t0 else .x4 .t0))
  | .x3tx p => txLine Config.carriageReturn .x3tx (.x4 .t0) p s
  | .x4 p => txLine s.byte .x4 .x5 p s
  | .x5 => nextByteLine .x1 s
  | _ => commandWaits s

/-- BUF_READ (R185): `wait` once, then drain the bytes that are immediately ready, up to the capacity. -/
def execBufRead (cap : Word) (s : State) : Result :=
  match s.phase with
  | .idle => acceptFacade (.bufRead cap) (.q0 .w0) s
  | .q0 p => waitLine .q0 .q1 .q0timeout p s
  | .q0timeout => raiseTimeout s
  | .q1 => .next ((s.setIdx 0#32).goto .q2)
  | .q2 => loopLine s.idx .q3 s
  | .q3 => pollLine (.q4 .rx0) .q3done s
  | .q3done => respond .ok s.idx s
  | .q4 p => rxLine .q4 .q5 p s
  | .q5 => .next (s.storeByte.goto .q6)
  | .q6 => nextByteLine .q2 s
  | _ => commandWaits s

/-- BUF_WRITE (R188): each byte through `tx`, untranslated; the response is the full length. -/
def execBufWrite (len : Word) (s : State) : Result :=
  match s.phase with
  | .idle => acceptFacade (.bufWrite len) .y0 s
  | .y0 => .next ((s.setIdx 0#32).goto .y1)
  | .y1 => loopLine s.arg .y2 s
  | .y2 => .next (s.fetchByte.goto (.y3 .t0))
  | .y3 p => txLine s.byte .y3 .y4 p s
  | .y4 => nextByteLine .y1 s
  | _ => commandWaits s

/-- FLUSH (R190): "no-op"; no bus access, no wait. -/
def execFlush (s : State) : Result :=
  match s.phase with
  | .idle => acceptFacade .flush .f0 s
  | .f0 => respond .ok 0#32 s
  | _ => commandWaits s

end Sys2Proof.Machine
end

