-- ==== Sys2Proof/Machine/Dispatch.lean ====
section
/-! DEFINITION. One arm per instruction: the step of instruction `i` at the engine's control point. -/

namespace Sys2Proof.Machine

def exec (i : Instr) (s : State) : Host.Outcome State Fault Refusal :=
  match i with
  | .init => Sys2Proof.Machine.execInit s
  | .setTimeoutMs ms => Sys2Proof.Machine.execSetTimeoutMs ms s
  | .setTimeoutNone => Sys2Proof.Machine.execSetTimeoutNone s
  | .writeByte b => Sys2Proof.Machine.execWriteByte b s
  | .hasByte => Sys2Proof.Machine.execHasByte s
  | .waitForByte => Sys2Proof.Machine.execWaitForByte s
  | .readByte => Sys2Proof.Machine.execReadByte s
  | .writeStr len => Sys2Proof.Machine.execWriteStr len s
  | .bufRead cap => Sys2Proof.Machine.execBufRead cap s
  | .bufWrite len => Sys2Proof.Machine.execBufWrite len s
  | .flush => Sys2Proof.Machine.execFlush s

end Sys2Proof.Machine
end

