-- ==== Sys2Proof/Machine/Env.lean ====
section
/-! DEFINITION. One step of an agent outside the engine (10_state.md R40; 60_exceptions.md R220): the peripheral's line side,
the time source, other bus masters, the client. Such a step falls between two of the engine's transactions, never inside one
(20_memory.md R82). -/

namespace Sys2Proof.Machine

/-- Line-side receive (R77): `b` at the tail of `P.RXQ` while there is room, else `b` is lost. -/
def State.lineReceive (b : Byte) (s : State) : State :=
  { s with rxq := if s.rxq.length < s.cfg.rxDepth then s.rxq ++ [b] else s.rxq }

/-- Line-side transmit (R78): the head of `P.TXQ` leaves on the line; nothing happens when `P.TXQ` is empty. -/
def State.lineTransmit (s : State) : State :=
  { s with txq := s.txq.tail, lineOut := s.lineOut ++ s.txq.head?.toList }

/-- The time source advances by any amount, modulo 2^64 (R214). -/
def State.advanceTime (d : Micros) (s : State) : State := { s with time := s.time + d }

/-- Another bus master writes bits 7 to 1 of ENB; bit 0 is the engine's alone (R40, R220). -/
def State.foreignEnbWrite (v : BitVec 7) (s : State) : State :=
  { s with mem := s.mem.write s.cfg.enbAddr.toNat (v ++ s.enb.extractLsb' 0 1) }

/-- The client offers one more command; it waits its turn (R113, D18). -/
def State.offerCommand (c : Command) (s : State) : State := { s with cmds := s.cmds ++ [c] }

/-- The client changes byte `i` of the source buffer (R85, U17): a fetch made later sees the new byte. -/
def State.changeSource (i : Nat) (b : Byte) (s : State) : State := { s with src := s.src.set i b }

/-- One step of another agent. A violation of the ownership premise has no meaning and is refused (R210). -/
def envMove (e : EnvMove) (s : State) : Result :=
  match e with
  | .rx b => .next (s.lineReceive b)
  | .drain => .next s.lineTransmit
  | .tick d => .next (s.advanceTime d)
  | .enbWrite v => .next (s.foreignEnbWrite v)
  | .enbRead => .next s
  | .offer c => .next (s.offerCommand c)
  | .srcSet i b => .next (s.changeSource i b)
  | .intrude => .refused .ownershipViolated

end Sys2Proof.Machine
end

