-- ==== Sys2Proof/Machine/Fetch.lean ====
section
/-! DEFINITION. How the engine comes by its next instruction (30_encoding.md R113 to R115; 10_state.md R28): a command word
from the command port at IDLE, the latched command otherwise. The engine fetches no code (20_memory.md R85). -/

namespace Sys2Proof.Machine

/-- The instruction of the operation in progress, from the control point and the latched fields (R22, R27); none at IDLE. -/
def State.inProgress (s : State) : Option Instr :=
  match s.phase with
  | .idle => none
  | .i0 | .i1 | .i2 | .i3 | .i4 | .i5 | .i6 | .i7 => some .init
  | .s0 => some (if s.flags.getLsbD 0 then .setTimeoutMs s.arg else .setTimeoutNone)
  | .b0 _ | .b1 => some (.writeByte (lowByte s.arg))
  | .h0 | .h1 => some .hasByte
  | .a0 _ | .a1 _ => some .waitForByte
  | .d0 _ | .d1 => some .readByte
  | .x0 | .x1 | .x2 | .x3 | .x3tx _ | .x4 _ | .x5 => some (.writeStr s.arg)
  | .q0 _ | .q0timeout | .q1 | .q2 | .q3 | .q3done | .q4 _ | .q5 | .q6 => some (.bufRead s.arg)
  | .y0 | .y1 | .y2 | .y3 _ | .y4 => some (.bufWrite s.arg)
  | .f0 => some .flush

/-- At IDLE: the oldest offered command, decoded in this build (R113, R115). With none offered the engine waits (R233). -/
def acceptNext (s : State) : Result :=
  match s.cmds with
  | [] => .next s
  | c :: _ =>
    match decode s.cfg.hostBuild c.word with
    | .instr i => exec i s
    | .reserved why => .refused (.reservedWord why)

/-- One step of the engine: a line of the operation in progress, or the next command. -/
def engineStep (s : State) : Result :=
  match s.inProgress with
  | some i => exec i s
  | none => acceptNext s

/-- The state in which the engine takes its step: the schedule's entry is used up and `u` stands in the undefined bits. -/
def State.supply (u : Word) (rest : List Move) (s : State) : State :=
  { s with sched := rest, undef := u, freeCount := s.freeCount + 1 }

/-- One step of the machine (R40, R82): the agent the schedule names, or the engine, with free values in the undefined bits,
when the schedule is empty. A launch that is not legal is refused (R63). -/
def stepAgents (s : State) : Result :=
  if s.cfg.legal then
    match s.sched with
    | [] => engineStep (s.supply (Config.freeWord s.freeCount) [])
    | .engine u :: rest => engineStep (s.supply u rest)
    | .env e :: rest => envMove e { s with sched := rest }
  else .refused .illFormedLaunch

/-- The lifecycle state in which `w` is accepted (R114): UNINIT for INIT, READY for any other word. A word other than INIT is
preceded by INIT (R236), whose effect `broughtUp` is. -/
def State.admitting (w : CommandWord) (s : State) : State :=
  if w = encode .init then { s with life := .uninit }
  else match s.life with
    | .uninit => s.broughtUp
    | .ready => s

/-- The client has just offered the command word `w`, the engine is at IDLE in the lifecycle state that accepts it, and the
next step is the engine's (log entry 9). The buffers are empty: a source byte is then a free value. -/
def State.presentWord (w : CommandWord) (s : State) : State :=
  { s.admitting w with phase := .idle, sched := [], cmds := { word := w, src := [], dst := [] } :: s.cmds }

end Sys2Proof.Machine
end

