-- ==== Sys2Proof/Machine/Step.lean ====
section
/-! DEFINITION. The step of the machine, and how the host places one instruction. -/

namespace Sys2Proof.Machine

/-- One atomic step of one agent (R40, R82). -/
def step (s : State) : Host.Outcome State Fault Refusal := stepAgents s

/-- `s` with the command word `w` offered at the command port, so that the next step is the acceptance of exactly that
instruction (R113). The word is 40 bits; `nbits` is the table's width. -/
def State.withFetchWord (s : State) (nbits w : Nat) : State := s.presentWord (BitVec.ofNat 40 (w % 2 ^ nbits))

end Sys2Proof.Machine
end

