-- ==== Sys2Proof/Safety.lean ====
section
/-! DEFINITION. The terms claims are stated in: what an LSR sample promises, runs in which only the engine steps, the
invariant of the state, and the properties of a trace of transactions. -/

namespace Sys2Proof.Machine

/-! ## Samples, runs, bytes sent -/

/-- `w` is what a read of LSR returns in `s` under the peripheral's contract (R75, R76): bit 0 exactly when a byte is
waiting, bit 5 exactly when there is room, every other bit whatever the peripheral puts there. -/
def State.LsrSample (s : State) (w : Word) : Prop :=
  w.getLsbD 0 = (!s.rxq.isEmpty) ∧ w.getLsbD 5 = decide (s.txq.length < s.cfg.txDepth) ∧
    ∀ j, j ≠ 0 → j ≠ 5 → w.getLsbD j = s.undef.getLsbD j

/-- The machine takes the steps of `moves`, and after them only engine steps. -/
def State.schedule (moves : List Move) (s : State) : State := { s with sched := moves }

/-- The run in which only the engine steps, `us.length` times, the undefined bits of its reads being `us` in turn. -/
def alone (us : List Word) (s : State) : Result :=
  Host.Core.run Sys2Proof.core us.length (s.schedule (us.map Move.engine))

/-- The run that takes every move of the schedule, in order. -/
def following (moves : List Move) (s : State) : Result :=
  Host.Core.run Sys2Proof.core moves.length (s.schedule moves)

/-- The state in which the engine takes its step, when the next move is the engine's: the schedule's entry is used up and the
undefined bits are supplied, from the entry or, when the schedule is empty, from the free values. -/
def State.engineTurn (s : State) : Option State :=
  match s.sched with
  | [] => some (s.supply (Config.freeWord s.freeCount) [])
  | .engine u :: rest => some (s.supply u rest)
  | .env _ :: _ => none

/-- `s` in the build `hostBuild` (R116). -/
def State.inBuild (hostBuild : Bool) (s : State) : State := { s with cfg := { s.cfg with hostBuild := hostBuild } }

/-- A state at IDLE in which the client's next command is `i`, with the buffers `src` and `dst`. -/
def State.offering (i : Instr) (src dst : List Byte) (s : State) : State :=
  { s with phase := .idle, cmds := { word := encode i, src := src, dst := dst } :: s.cmds }

/-- The first label of each operation (R27, R113). -/
def firstLabel : Instr → Phase
  | .init => .i0
  | .setTimeoutMs _ => .s0
  | .setTimeoutNone => .s0
  | .writeByte _ => .b0 .t0
  | .hasByte => .h0
  | .waitForByte => .a0 .w0
  | .readByte => .d0 .rx0
  | .writeStr _ => .x0
  | .bufRead _ => .q0 .w0
  | .bufWrite _ => .y0
  | .flush => .f0

/-- The lifecycle state in which an operation has a meaning (R114). -/
def lifeFor : Instr → Life
  | .init => .uninit
  | .setTimeoutMs _ | .setTimeoutNone | .writeByte _ | .hasByte | .waitForByte | .readByte | .writeStr _ | .bufRead _
  | .bufWrite _ | .flush => .ready

/-! ## Control points -/

/-- The lifecycle state a control point belongs to: INIT's lines run in UNINIT, every other operation's in READY. -/
def Phase.life : Phase → Option Life
  | .idle => none
  | .i0 | .i1 | .i2 | .i3 | .i4 | .i5 | .i6 | .i7 => some .uninit
  | _ => some .ready

/-- The next transaction is the IO write of `tx` (label T1). -/
def Phase.atIoWrite : Phase → Bool
  | .b0 .t1 | .x3tx .t1 | .x4 .t1 | .y3 .t1 => true
  | _ => false

/-- The next transaction is the IO read of `rx` (label RX1). -/
def Phase.atIoRead : Phase → Bool
  | .d0 .rx1 | .q4 .rx1 => true
  | _ => false

/-- The next transaction is the poll of `tx` (label T0). -/
def Phase.atTxPoll : Phase → Bool
  | .b0 .t0 | .x3tx .t0 | .x4 .t0 | .y3 .t0 => true
  | _ => false

/-- The next transaction is the time sample of a deadline test (label W2). -/
def Phase.atDeadline : Phase → Bool
  | .a0 .w2 | .q0 .w2 => true
  | _ => false

/-- Timeout is about to be raised. -/
def Phase.isTimeout : Phase → Bool
  | .a1 .timedOut | .q0timeout => true
  | _ => false

/-- The heads of the per-byte loops. -/
def Phase.atLoopHead : Phase → Bool
  | .x1 | .q2 | .y1 => true
  | _ => false

/-- Inside the body of a per-byte loop. -/
def Phase.inLoopBody : Phase → Bool
  | .x2 | .x3 | .x3tx _ | .x4 _ | .x5 | .q3 | .q3done | .q4 _ | .q5 | .q6 | .y2 | .y3 _ | .y4 => true
  | _ => false

/-- A byte is known to wait in the receive FIFO: `wait` has returned OK, or a poll has seen DATA_READY and the IO read has
not been made. -/
def Phase.byteWaits : Phase → Bool
  | .a1 .ok | .q1 | .q4 _ | .d0 .rx1 => true
  | _ => false

/-! ## The invariant -/

/-- How far INIT has configured the peripheral (R80, R130): after line I1 ENB bit 0 is set, after I2 LCR holds its value,
after I3 BAUD, after I4 and I5 the pins, after I6 CNTL; and once the engine is READY all of it stands. -/
structure State.Configured (s : State) : Prop where
  enb : (s.phase ∈ [Phase.i2, .i3, .i4, .i5, .i6, .i7] ∨ s.life = .ready) → s.enb.getLsbD 0 = true
  lcr : (s.phase ∈ [Phase.i3, .i4, .i5, .i6, .i7] ∨ s.life = .ready) → s.stored .lcr = 0x00000003#32
  baud : (s.phase ∈ [Phase.i4, .i5, .i6, .i7] ∨ s.life = .ready) → s.stored .baud = 0x0000010E#32
  pin14 : (s.phase ∈ [Phase.i5, .i6, .i7] ∨ s.life = .ready) → s.pin14 = .alt 5
  pin15 : (s.phase ∈ [Phase.i6, .i7] ∨ s.life = .ready) → s.pin15 = .alt 5
  cntl : (s.phase = .i7 ∨ s.life = .ready) → s.stored .cntl = 0x00000003#32

/-- The invariant of the machine (10_state.md R26, R45; 20_memory.md R72 to R80; 41_byte_primitives.md R158; 60_exceptions.md
R201). -/
structure State.Inv (s : State) : Prop where
  /-- The launch is legal (R63). -/
  launch : s.cfg.legal = true
  /-- The bus memory is in canonical form. -/
  memory : s.mem.wf = true
  /-- No FIFO holds more than its depth (R42). -/
  txBound : s.txq.length ≤ s.cfg.txDepth
  rxBound : s.rxq.length ≤ s.cfg.rxDepth
  /-- A command runs in the lifecycle state that admits it (R114). -/
  lifecycle : ∀ l, s.phase.life = some l → s.life = l
  /-- The latched fields are those of the operation in progress, which the build has (R22, R116). -/
  latched : ∀ i, s.inProgress = some i →
    s.opc = i.opc ∧ s.flags = i.flags ∧ s.arg = i.arg ∧ i.wellFormed s.cfg.hostBuild = true
  /-- The peripheral is configured as far as INIT has come (R80). -/
  configured : s.Configured
  /-- At an IO write there is room (R73), at an IO read a byte waits (R74). -/
  room : s.phase.atIoWrite = true → s.txq.length < s.cfg.txDepth
  waiting : s.phase.byteWaits = true → s.rxq ≠ []
  /-- The drain loop of BUF_READ starts with a byte waiting and answers 0 only for a buffer of capacity 0 (R187 c). -/
  firstByte : s.phase ∈ [Phase.q2, .q3] → s.idx = 0 → s.rxq ≠ []
  notNone : s.phase = .q3done → s.idx ≠ 0
  /-- `E.IDX` never exceeds `E.ARG` and is below it inside a loop (R26). -/
  atHead : s.phase.atLoopHead = true → s.idx.toNat ≤ s.arg.toNat
  inBody : s.phase.inLoopBody = true → s.idx.toNat < s.arg.toNat
  /-- The time is sampled in the loop, and Timeout raised, only when a timeout is present (R158, R201). -/
  deadline : s.phase.atDeadline = true → s.toValid = true
  late : s.phase.isTimeout = true → s.toValid = true ∧ expired s.t0 s.now s.toMs = true

/-! ## Traces -/

/-- A 4-byte read of LSR that saw the flag in `bit`. -/
def Transaction.PollSaw (c : Config) (bit : Nat) : Transaction → Prop
  | .memRead a n v => a = c.addr .lsr ∧ n = 4 ∧ v.getLsbD bit = true
  | .memWrite _ _ _ | .timeNow _ | .gpioSetAlt _ _ | .srcByte _ _ | .dstWrite _ _ | .respond _ => False

/-- A write of the data I/O field. -/
def Transaction.IsIoWrite (c : Config) : Transaction → Prop
  | .memWrite a _ _ => a = c.addr .io
  | .memRead _ _ _ | .timeNow _ | .gpioSetAlt _ _ | .srcByte _ _ | .dstWrite _ _ | .respond _ => False

/-- A read of the data I/O field. -/
def Transaction.IsIoRead (c : Config) : Transaction → Prop
  | .memRead a _ _ => a = c.addr .io
  | .memWrite _ _ _ | .timeNow _ | .gpioSetAlt _ _ | .srcByte _ _ | .dstWrite _ _ | .respond _ => False

/-- A response. -/
def Transaction.isResponse : Transaction → Bool
  | .respond _ => true
  | _ => false

/-- The last transaction of a trace, newest first, is a poll that saw the flag in `bit`. -/
def JustPolled (c : Config) (bit : Nat) (trace : List Transaction) : Prop :=
  ∃ p rest, trace = p :: rest ∧ p.PollSaw c bit

/-- "One poll licenses one access" (R242), on a trace with the newest transaction first: right before an IO write stands a
poll that saw bit 5, right before an IO read a poll that saw bit 0. -/
def Gated (c : Config) : List Transaction → Prop
  | [] => True
  | t :: rest => (t.IsIoWrite c → JustPolled c 5 rest) ∧ (t.IsIoRead c → JustPolled c 0 rest) ∧ Gated c rest

/-- The accesses of the engine (R31 columns "engine reads" and "engine writes", R32, R62, R69, R105): each address with its
width, the constants with their values, an IO word with its upper bits zero, an ENB write with bit 0 set, the two GPIO calls,
and the two status codes. -/
def Transaction.listed (c : Config) : Transaction → Prop
  | .memRead a n _ => (a = c.ioBase + 0x215004 ∧ n = 1) ∨ (a = c.ioBase + 0x215054 ∧ n = 4) ∨ (a = c.ioBase + 0x215040 ∧ n = 4)
  | .memWrite a n v =>
    (a = c.ioBase + 0x215004 ∧ n = 1 ∧ v.getLsbD 0 = true ∧ v.toNat < 256) ∨ (a = c.ioBase + 0x215040 ∧ n = 4 ∧ v.toNat < 256) ∨
      (a = c.ioBase + 0x21504C ∧ n = 4 ∧ v = 0x00000003#32) ∨ (a = c.ioBase + 0x215068 ∧ n = 4 ∧ v = 0x0000010E#32) ∨
      (a = c.ioBase + 0x215060 ∧ n = 4 ∧ v = 0x00000003#32)
  | .gpioSetAlt pin fn => (pin = 14 ∨ pin = 15) ∧ fn = 5
  | .respond w => w.toNat < 2 ^ 33
  | .timeNow _ | .srcByte _ _ | .dstWrite _ _ => True

/-- Address, width and value of a bus write. -/
def Transaction.written : Transaction → Option (Word × Nat × Word)
  | .memWrite a n v => some (a, n, v)
  | .memRead _ _ _ | .timeNow _ | .gpioSetAlt _ _ | .srcByte _ _ | .dstWrite _ _ | .respond _ => none

/-- The bus writes of a trace, oldest first. -/
def busWrites (trace : List Transaction) : List (Word × Nat × Word) := (trace.filterMap Transaction.written).reverse

/-- What the engine asks for in a transaction: the values that come back to it are blanked. -/
def Transaction.request : Transaction → Transaction
  | .memRead a n _ => .memRead a n 0
  | .memWrite a n v => .memWrite a n v
  | .timeNow _ => .timeNow 0
  | .gpioSetAlt pin fn => .gpioSetAlt pin fn
  | .srcByte i _ => .srcByte i 0
  | .dstWrite i b => .dstWrite i b
  | .respond w => .respond w

/-- The moves of the schedule that leave the client's source buffer alone: the client's duty of R220. -/
def keepsSource : Move → Bool
  | .env (.srcSet _ _) => false
  | _ => true

/-- The latches whose reset value is unspecified (R231). -/
structure Latches where
  toMs : Word
  opc : BitVec 4
  flags : BitVec 4
  arg : Word
  byte : Byte
  v : Word
  t0 : Micros
  now : Micros
  idx : Word
  deriving DecidableEq, Repr

/-- `s` with other values in those latches. -/
def State.withLatches (l : Latches) (s : State) : State :=
  { s with toMs := l.toMs, opc := l.opc, flags := l.flags, arg := l.arg, byte := l.byte, v := l.v, t0 := l.t0, now := l.now,
           idx := l.idx }

end Sys2Proof.Machine
end

