-- ==== Sys2Proof/Certificates/Slice0/Obligations.lean ====
section
/-! DEFINITION. The statements for the provers. Each docstring names the rule of the spec it formalises. -/

open Sys2Proof Sys2Proof.Machine

/-! ## Encoding -/

/-- R103 and the words V-E1 to V-E22 of 95_test_vectors.md: words written out from the encoding decode to the command they
stand for, and the reserved neighbours do not decode. -/
def Obligations.CommandWordsDecodeAsWritten : Prop :=
  decode true 0x0000000000#40 = .instr .init ∧
  decode true 0x1100000064#40 = .instr (.setTimeoutMs 100) ∧
  decode true 0x1000000000#40 = .instr .setTimeoutNone ∧
  decode true 0x2000000041#40 = .instr (.writeByte 0x41) ∧
  decode true 0x3000000000#40 = .instr .hasByte ∧
  decode true 0x4000000000#40 = .instr .waitForByte ∧
  decode true 0x5000000000#40 = .instr .readByte ∧
  decode true 0x6000000003#40 = .instr (.writeStr 3) ∧
  decode true 0x700000000A#40 = .instr (.bufRead 10) ∧
  decode true 0x8000000002#40 = .instr (.bufWrite 2) ∧
  decode true 0x9000000000#40 = .instr .flush ∧
  decode true 0xA000000000#40 = .reserved .opcode ∧
  decode true 0x0000000001#40 = .reserved .operand ∧
  decode true 0x2000000141#40 = .reserved .operand ∧
  decode true 0x1300000064#40 = .reserved .flags ∧
  decode true 0x3100000000#40 = .reserved .flags ∧
  decode false 0x700000000A#40 = .reserved .facade

/-- R104: two rows differ in OPC or are the two SET_TIMEOUT rows, which differ in bit 32; no word spells two rows; a word is
reserved exactly when it spells none; and encoding then decoding, and decoding then encoding, are the identity. -/
def Obligations.RowsDisjointAndRoundTrip : Prop :=
  (∀ i j : Instr, i.tableMatch ≠ j.tableMatch →
    opcField i.tableMatch ≠ opcField j.tableMatch ∨
      (opcField i.tableMatch = 0x1#4 ∧ opcField j.tableMatch = 0x1#4 ∧
        i.tableMatch.getLsbD 32 ≠ j.tableMatch.getLsbD 32)) ∧
  (∀ (w : CommandWord) (i j : Instr), w &&& i.tableMask = i.tableMatch → w &&& j.tableMask = j.tableMatch →
    i.tableMatch = j.tableMatch) ∧
  (∀ w : CommandWord, (∃ why, decode true w = .reserved why) ↔ ∀ i : Instr, w &&& i.tableMask ≠ i.tableMatch) ∧
  (∀ (hb : Bool) (i : Instr), i.wellFormed hb = true → decode hb (encode i) = .instr i) ∧
  (∀ (hb : Bool) (w : CommandWord) (i : Instr), decode hb w = .instr i → encode i = w ∧ i.wellFormed hb = true)

/-- R115: the reserved words are exactly the listed ones, and one at the command port is refused with no step. -/
def Obligations.ReservedWordsAreRefused : Prop :=
  (∀ (hb : Bool) (w : CommandWord), (∃ why, decode hb w = .reserved why) ↔
    (10 ≤ (w.extractLsb' 36 4).toNat ∨
      w.extractLsb' 33 3 ≠ 0#3 ∨
      (w.extractLsb' 36 4 ≠ 0x1#4 ∧ w.getLsbD 32 = true) ∨
      ((w.extractLsb' 36 4).toNat ∈ [0, 3, 4, 5, 9] ∧ w.extractLsb' 0 32 ≠ 0#32) ∨
      (w.extractLsb' 36 4 = 0x1#4 ∧ w.getLsbD 32 = false ∧ w.extractLsb' 0 32 ≠ 0#32) ∨
      (w.extractLsb' 36 4 = 0x2#4 ∧ w.extractLsb' 8 24 ≠ 0#24) ∨
      (hb = false ∧ (w.extractLsb' 36 4).toNat ∈ [7, 8, 9]))) ∧
  (∀ (s e : State) (c : Command) (rest : List Command) (why : Reserved), s.cfg.legal = true → s.engineTurn = some e →
    s.phase = .idle → s.cmds = c :: rest → decode s.cfg.hostBuild c.word = .reserved why →
    step s = .refused (.reservedWord why))

/-- R116: HOST_BUILD changes which of OPC 0x7 to 0x9 decode and nothing else, and it never changes. -/
def Obligations.BuildChangesOnlyFacade : Prop :=
  (∀ w : CommandWord, ((w.extractLsb' 36 4).toNat < 7 ∨ 9 < (w.extractLsb' 36 4).toNat) → decode true w = decode false w) ∧
  (∀ w : CommandWord, 7 ≤ (w.extractLsb' 36 4).toNat → (w.extractLsb' 36 4).toNat ≤ 9 → decode false w = .reserved .facade) ∧
  (∀ (i : Instr) (s t : State) (hb : Bool), i.isFacade = false → exec i s = .next t →
    exec i (s.inBuild hb) = .next (t.inBuild hb)) ∧
  (∀ (i : Instr) (s : State) (r : Refusal) (hb : Bool), i.isFacade = false → exec i s = .refused r →
    exec i (s.inBuild hb) = .refused r) ∧
  (∀ s t : State, step s = .next t → t.cfg = s.cfg)

/-! ## Reset and the step -/

/-- R231, R232: after reset the lifecycle is UNINIT, the control point IDLE, no timeout present, no transaction made, and
everything outside the engine is as power-on left it, whatever that is. -/
def Obligations.ResetLeavesEngineIdle : Prop :=
  ∀ (c : Config) (p : PowerOn),
    (State.resetWith c p).life = .uninit ∧ (State.resetWith c p).phase = .idle ∧ (State.resetWith c p).toValid = false ∧
    (State.resetWith c p).trace = [] ∧ (State.resetWith c p).mem = p.mem ∧ (State.resetWith c p).time = p.time ∧
    (State.resetWith c p).pin14 = p.pin14 ∧ (State.resetWith c p).pin15 = p.pin15 ∧
    (p.rxq.length ≤ c.rxDepth → (State.resetWith c p).rxq = p.rxq) ∧
    (p.txq.length ≤ c.txDepth → (State.resetWith c p).txq = p.txq)

/-- The invariant holds after reset, for every legal launch and all power-on contents, and in State.reset (whose parameters and
contents are the model's choice, log entries 1 and 2). -/
def Obligations.ResetMeetsInvariant : Prop :=
  (∀ (c : Config) (p : PowerOn), c.legal = true → p.mem.wf = true → (State.resetWith c p).Inv) ∧ State.reset.Inv

/-- R233: before INIT is accepted the engine performs no transaction; it stays at IDLE or accepts the INIT word, and with no
command offered it waits. -/
def Obligations.NothingHappensBeforeInit : Prop :=
  (∀ s t : State, s.life = .uninit → s.phase = .idle → step s = .next t →
    t.trace = s.trace ∧ t.life = .uninit ∧
      (t.phase = .idle ∨
        (t.phase = .i0 ∧ ∃ c rest, s.cmds = c :: rest ∧ c.word = 0x0000000000#40))) ∧
  (∀ s e : State, s.cfg.legal = true → s.engineTurn = some e → s.phase = .idle → s.cmds = [] → step s = .next e)

/-- When the engine moves next, a step is `exec` of the decoded command at the command port, or of the command in progress,
in the state with this step's undefined bits supplied (R28, R113). -/
def Obligations.StepRunsTheDecodedInstruction : Prop :=
  ∀ s e : State, s.cfg.legal = true → s.engineTurn = some e →
    (∀ (c : Command) (rest : List Command) (i : Instr), s.phase = .idle → s.cmds = c :: rest →
      decode s.cfg.hostBuild c.word = .instr i → step s = exec i e) ∧
    (∀ i : Instr, s.inProgress = some i → step s = exec i e)

/-- When another agent moves next, the step is that agent's, with its entry of the schedule used up (R40, R82); an agent that
breaks the ownership premise ends the run. R210 and U1 say so of a READY engine and R220 gives the agent no such move; that
the refusal holds in every state, UNINIT too, is the model's choice (log entry 12, DEDUCED). -/
def Obligations.ScheduledAgentMoves : Prop :=
  ∀ (s : State) (m : EnvMove) (rest : List Move), s.cfg.legal = true → s.sched = .env m :: rest →
    step s = envMove m { s with sched := rest } ∧ (m = .intrude → step s = .refused .ownershipViolated)

/-- The host's placement of one word: the very next step accepts exactly that command. The model's own interface (log
entry 9). -/
def Obligations.PlacedWordIsAccepted : Prop :=
  ∀ (s : State) (i : Instr), s.cfg.legal = true → i.wellFormed s.cfg.hostBuild = true →
    ∃ t : State, step (s.withFetchWord 40 (encode i).toNat) = .next t ∧ t.phase = firstLabel i ∧ t.opc = i.opc ∧
      t.flags = i.flags ∧ t.arg = i.arg ∧ t.trace = s.trace ∧ t.life = lifeFor i

/-- R63: a launch whose IO_BASE is not a multiple of 4, or for which IO_BASE+0x21506B exceeds 2^32 - 1, is refused, and the
engine never issues a misaligned 4-byte access. -/
def Obligations.LaunchAndAlignment : Prop :=
  (∀ s : State, (s.cfg.ioBase.toNat % 4 ≠ 0 ∨ 2 ^ 32 - 1 < s.cfg.ioBase.toNat + 0x21506B) →
    step s = .refused .illFormedLaunch) ∧
  (∀ (s t : State) (a v : Word), step s = .next t →
    (t.trace = .memRead a 4 v :: s.trace ∨ t.trace = .memWrite a 4 v :: s.trace) → a.toNat % 4 = 0)

/-! ## Acceptance -/

/-- R114: the lifecycle gate, for every operation of the build, with no transaction. -/
def Obligations.LifecycleGate : Prop :=
  (∀ (i : Instr) (s : State), s.phase = .idle → s.life = .uninit → i ≠ .init → ∃ r, exec i s = .refused r) ∧
  (∀ s : State, s.phase = .idle → s.life = .ready → exec .init s = .refused (.lifecycle .ready)) ∧
  (∀ s : State, s.phase = .idle → s.life = .uninit → ∃ t, exec .init s = .next t ∧ t.trace = s.trace) ∧
  (∀ (i : Instr) (s : State), s.phase = .idle → s.life = .ready → i ≠ .init → i.wellFormed s.cfg.hostBuild = true →
    ∃ t, exec i s = .next t ∧ t.trace = s.trace)

/-- Acceptance is one step that latches the three fields of the command word, moves to the operation's first label, and
changes nothing else (R22, R113). That the command leaves the port with it and its buffers are taken from the same port entry
is the model's choice (log entry 19, DESIGN CHOICE): R66 says only that they are presented with the command. -/
def Obligations.AcceptanceLatchesTheWord : Prop :=
  ∀ (i : Instr) (s : State) (c : Command) (rest : List Command), s.phase = .idle → s.cmds = c :: rest →
    s.life = lifeFor i → decode s.cfg.hostBuild c.word = .instr i →
    exec i s = .next { s with opc := c.word.extractLsb' 36 4, flags := c.word.extractLsb' 32 4,
                              arg := c.word.extractLsb' 0 32, src := c.src, dst := c.dst, cmds := rest,
                              phase := firstLabel i }

/-- What the other agents can do to the machine (R40, R85, R113, R214, R220): no latch, no control point, no response and no
byte of the Register Block or bit 0 of ENB changes; offered commands queue behind those already offered; time only moves
by the amount it advances. -/
def Obligations.OtherAgentsLeaveEngineAlone : Prop :=
  ∀ (m : EnvMove) (s t : State), envMove m s = .next t →
    t = { s with cmds := t.cmds, src := t.src, mem := t.mem, txq := t.txq, rxq := t.rxq, lineOut := t.lineOut,
                 time := t.time } ∧
    (∀ c, m = .offer c → t = { s with cmds := s.cmds ++ [c] }) ∧
    (∀ i b, m = .srcSet i b → t = { s with src := s.src.set i b }) ∧
    (∀ d, m = .tick d → t = { s with time := s.time + d }) ∧
    (m = .enbRead → t = s) ∧
    (∀ v, m = .enbWrite v → s.mem.wf = true →
      (∀ a, a ≠ s.cfg.enbAddr.toNat → t.mem.read a = s.mem.read a) ∧
      t.enb.getLsbD 0 = s.enb.getLsbD 0 ∧ t.enb.extractLsb' 1 7 = v ∧ t = { s with mem := t.mem })

/-! ## INIT and SET_TIMEOUT -/

/-- Every line of INIT answers a next state, this one (R130, R131). -/
def Obligations.InitLines : Prop :=
  ∀ s : State,
    (s.phase = .i0 → exec .init s = .next { s with
      v := (s.mem.read (s.cfg.ioBase + 0x215004#32).toNat).setWidth 32, phase := .i1,
      trace := .memRead (s.cfg.ioBase + 0x215004#32) 1 ((s.mem.read (s.cfg.ioBase + 0x215004#32).toNat).setWidth 32) :: s.trace }) ∧
    (s.phase = .i1 → exec .init s = .next { s with
      mem := s.mem.write (s.cfg.ioBase + 0x215004#32).toNat (s.v.setWidth 8 ||| 0x01#8), phase := .i2,
      trace := .memWrite (s.cfg.ioBase + 0x215004#32) 1 ((s.v.setWidth 8 ||| 0x01#8).setWidth 32) :: s.trace }) ∧
    (s.phase = .i2 → exec .init s = .next { s with
      mem := s.mem.write32 (s.cfg.ioBase + 0x21504C#32).toNat 0x00000003#32, phase := .i3,
      trace := .memWrite (s.cfg.ioBase + 0x21504C#32) 4 0x00000003#32 :: s.trace }) ∧
    (s.phase = .i3 → exec .init s = .next { s with
      mem := s.mem.write32 (s.cfg.ioBase + 0x215068#32).toNat 0x0000010E#32, phase := .i4,
      trace := .memWrite (s.cfg.ioBase + 0x215068#32) 4 0x0000010E#32 :: s.trace }) ∧
    (s.phase = .i4 → exec .init s = .next { s with
      pin14 := .alt 5, phase := .i5, trace := .gpioSetAlt 14 5 :: s.trace }) ∧
    (s.phase = .i5 → exec .init s = .next { s with
      pin15 := .alt 5, phase := .i6, trace := .gpioSetAlt 15 5 :: s.trace }) ∧
    (s.phase = .i6 → exec .init s = .next { s with
      mem := s.mem.write32 (s.cfg.ioBase + 0x215060#32).toNat 0x00000003#32, phase := .i7,
      trace := .memWrite (s.cfg.ioBase + 0x215060#32) 4 0x00000003#32 :: s.trace }) ∧
    (s.phase = .i7 → exec .init s = .next { s with
      toValid := false, life := .ready, phase := .idle, trace := .respond 0x000000000#34 :: s.trace })

/-- INIT as a whole, with only the engine moving (R130): accepted in UNINIT, refused in READY; seven external transactions in
this order, then OK 0; the bits of ENB other than bit 0 keep their values, and no other byte of the bus space and neither FIFO
changes. -/
def Obligations.InitBringsUpThePeripheral : Prop :=
  (∀ (s : State) (us : List Word), s.cfg.legal = true → s.mem.wf = true → s.life = .uninit → us.length = 9 →
    ∃ t : State, alone us (s.offering .init [] []) = .next t ∧
      t.life = .ready ∧ t.toValid = false ∧ t.phase = .idle ∧ t.cmds = s.cmds ∧ t.v = s.enb.setWidth 32 ∧
      t.trace = [Transaction.respond 0x000000000#34,
        .memWrite (s.cfg.ioBase + 0x215060#32) 4 0x00000003#32,
        .gpioSetAlt 15 5,
        .gpioSetAlt 14 5,
        .memWrite (s.cfg.ioBase + 0x215068#32) 4 0x0000010E#32,
        .memWrite (s.cfg.ioBase + 0x21504C#32) 4 0x00000003#32,
        .memWrite (s.cfg.ioBase + 0x215004#32) 1 ((s.enb ||| 0x01#8).setWidth 32),
        .memRead (s.cfg.ioBase + 0x215004#32) 1 (s.enb.setWidth 32)] ++ s.trace ∧
      t.enb = s.enb ||| 0x01#8 ∧ t.stored .lcr = 0x00000003#32 ∧ t.stored .baud = 0x0000010E#32 ∧
      t.stored .cntl = 0x00000003#32 ∧ t.pin14 = .alt 5 ∧ t.pin15 = .alt 5 ∧ t.txq = s.txq ∧ t.rxq = s.rxq ∧
      t.time = s.time ∧
      ∀ a : Nat, a ≠ (s.cfg.ioBase + 0x215004#32).toNat →
        (a < (s.cfg.ioBase + 0x21504C#32).toNat ∨ (s.cfg.ioBase + 0x21504C#32).toNat + 3 < a) →
        (a < (s.cfg.ioBase + 0x215068#32).toNat ∨ (s.cfg.ioBase + 0x215068#32).toNat + 3 < a) →
        (a < (s.cfg.ioBase + 0x215060#32).toNat ∨ (s.cfg.ioBase + 0x215060#32).toNat + 3 < a) →
        t.mem.read a = s.mem.read a) ∧
  (∀ s : State, s.life = .ready → exec .init (s.offering .init [] []) = .refused (.lifecycle .ready))

/-- R243: the set-bit on ENB is a read followed by a write; a write of another master between the two is undone for bits 7 to
1, and the engine writes the value it read with bit 0 added. -/
def Obligations.EnableSwitchRace : Prop :=
  ∀ (s : State) (u u' : Word) (other : BitVec 7), s.cfg.legal = true → s.mem.wf = true → s.phase = .i0 →
    ∃ t : State, following [.engine u, .env (.enbWrite other), .engine u'] s = .next t ∧ t.enb = s.enb ||| 0x01#8 ∧
      t.trace = [Transaction.memWrite (s.cfg.ioBase + 0x215004#32) 1 ((s.enb ||| 0x01#8).setWidth 32),
        .memRead (s.cfg.ioBase + 0x215004#32) 1 (s.enb.setWidth 32)] ++ s.trace ∧ t.phase = .i2

/-- Line S0 of SET_TIMEOUT, both forms (R133). -/
def Obligations.SetTimeoutLine : Prop :=
  ∀ (s : State) (ms : Word), s.phase = .s0 →
    exec (.setTimeoutMs ms) s = .next { s with
      toValid := s.flags.getLsbD 0, toMs := s.arg, phase := .idle, trace := .respond 0x000000000#34 :: s.trace } ∧
    exec .setTimeoutNone s = .next { s with
      toValid := s.flags.getLsbD 0, toMs := s.arg, phase := .idle, trace := .respond 0x000000000#34 :: s.trace }

/-- R133: SET_TIMEOUT replaces the timeout, whatever it was, and makes no external transaction. -/
def Obligations.SetTimeoutReplacesTheTimeout : Prop :=
  (∀ (s : State) (ms : Word) (us : List Word), s.cfg.legal = true → s.life = .ready → us.length = 2 →
    ∃ t : State, alone us (s.offering (.setTimeoutMs ms) [] []) = .next t ∧ t.toValid = true ∧ t.toMs = ms ∧
      t.phase = .idle ∧ t.trace = .respond 0x000000000#34 :: s.trace ∧ t.life = .ready ∧ t.mem = s.mem ∧ t.txq = s.txq ∧
      t.rxq = s.rxq ∧ t.time = s.time) ∧
  (∀ (s : State) (us : List Word), s.cfg.legal = true → s.life = .ready → us.length = 2 →
    ∃ t : State, alone us (s.offering .setTimeoutNone [] []) = .next t ∧ t.toValid = false ∧ t.toMs = 0#32 ∧
      t.phase = .idle ∧ t.trace = .respond 0x000000000#34 :: s.trace ∧ t.life = .ready ∧ t.mem = s.mem ∧ t.txq = s.txq ∧
      t.rxq = s.rxq ∧ t.time = s.time) ∧
  (∀ (s : State) (ms : Word), s.life = .uninit →
    exec (.setTimeoutMs ms) (s.offering (.setTimeoutMs ms) [] []) = .refused (.lifecycle .uninit) ∧
    exec .setTimeoutNone (s.offering .setTimeoutNone [] []) = .refused (.lifecycle .uninit))

/-! ## WRITE_BYTE -/

/-- Every line of WRITE_BYTE answers a next state, this one (R150, R151). -/
def Obligations.WriteByteLines : Prop :=
  ∀ (s : State) (b : Byte),
    (s.phase = .b0 .t0 → s.life = .ready → ∃ w, s.LsrSample w ∧ exec (.writeByte b) s = .next { s with
      v := w, phase := if s.txq.length < s.cfg.txDepth then .b0 .t1 else .b0 .t0,
      trace := .memRead (s.cfg.ioBase + 0x215054#32) 4 w :: s.trace }) ∧
    (s.phase = .b0 .t1 → s.life = .ready → s.txq.length < s.cfg.txDepth → exec (.writeByte b) s = .next { s with
      txq := s.txq ++ [s.arg.setWidth 8], phase := .b1,
      trace := .memWrite (s.cfg.ioBase + 0x215040#32) 4 ((s.arg.setWidth 8).setWidth 32) :: s.trace }) ∧
    (s.phase = .b1 → exec (.writeByte b) s = .next { s with
      phase := .idle, trace := .respond 0x000000000#34 :: s.trace })

/-- WRITE_BYTE with room on the first poll (R151, R152 a to d): one LSR read, one IO write of the byte as it is, with bits 31
to 8 zero, then OK 0; refused before INIT. -/
def Obligations.WriteByteSendsTheByte : Prop :=
  (∀ (s : State) (b : Byte) (us : List Word), s.cfg.legal = true → s.life = .ready → s.txq.length < s.cfg.txDepth →
    us.length = 4 →
    ∃ (t : State) (w : Word), alone us (s.offering (.writeByte b) [] []) = .next t ∧ w.getLsbD 5 = true ∧
      t.trace = [Transaction.respond 0x000000000#34,
        .memWrite (s.cfg.ioBase + 0x215040#32) 4 (b.setWidth 32),
        .memRead (s.cfg.ioBase + 0x215054#32) 4 w] ++ s.trace ∧
      t.txq = s.txq ++ [b] ∧ t.rxq = s.rxq ∧ t.mem = s.mem ∧ t.phase = .idle ∧ t.life = .ready ∧
      t.toValid = s.toValid ∧ t.toMs = s.toMs) ∧
  (∀ (s : State) (b : Byte), s.life = .uninit →
    exec (.writeByte b) (s.offering (.writeByte b) [] []) = .refused (.lifecycle .uninit))

/-- "No upper bound on spin count" (R150, R246): while the transmit FIFO is full and no other agent moves, `tx` polls for as
many steps as are taken, in whichever operation it runs, each poll a fresh LSR read that sees bit 5 clear, and nothing else
happens. -/
def Obligations.TransmitSpinsWhileFull : Prop :=
  ∀ (s : State) (us : List Word), s.cfg.legal = true → s.life = .ready → s.phase.atTxPoll = true →
    s.cfg.txDepth ≤ s.txq.length →
    ∃ (t : State) (polls : List Transaction), alone us s = .next t ∧ t.trace = polls ++ s.trace ∧
      polls.length = us.length ∧
      (∀ x ∈ polls, ∃ w : Word, x = .memRead (s.cfg.ioBase + 0x215054#32) 4 w ∧ w.getLsbD 5 = false) ∧
      t.phase = s.phase ∧ t.txq = s.txq ∧ t.rxq = s.rxq ∧ t.mem = s.mem ∧ t.cmds = s.cmds

/-- R151 with the source's Scenario C: the byte is written after the first poll that sees bit 5 set, and not before, however
many polls saw it clear; here the room comes from one byte the line takes. -/
def Obligations.ByteFollowsFirstOpenPoll : Prop :=
  ∀ (s : State) (b : Byte) (us : List Word) (u1 u2 u3 : Word), s.cfg.legal = true → s.life = .ready →
    s.phase = .b0 .t0 → s.arg = b.setWidth 32 → s.txq.length = s.cfg.txDepth →
    ∃ (t : State) (closed : List Transaction) (w : Word),
      following (us.map Move.engine ++ [.env .drain, .engine u1, .engine u2, .engine u3]) s = .next t ∧
      t.trace = [Transaction.respond 0x000000000#34,
        .memWrite (s.cfg.ioBase + 0x215040#32) 4 (b.setWidth 32),
        .memRead (s.cfg.ioBase + 0x215054#32) 4 w] ++ closed ++ s.trace ∧
      w.getLsbD 5 = true ∧ closed.length = us.length ∧
      (∀ x ∈ closed, ∃ w' : Word, x = .memRead (s.cfg.ioBase + 0x215054#32) 4 w' ∧ w'.getLsbD 5 = false) ∧
      t.txq = s.txq.tail ++ [b] ∧ t.lineOut = s.lineOut ++ s.txq.head?.toList ∧ t.phase = .idle

/-! ## HAS_BYTE, and the two flags -/

/-- Every line of HAS_BYTE answers a next state, this one (R154). -/
def Obligations.HasByteLines : Prop :=
  ∀ s : State,
    (s.phase = .h0 → s.life = .ready → ∃ w, s.LsrSample w ∧ exec .hasByte s = .next { s with
      v := w, phase := .h1, trace := .memRead (s.cfg.ioBase + 0x215054#32) 4 w :: s.trace }) ∧
    (s.phase = .h1 → exec .hasByte s = .next { s with
      phase := .idle,
      trace := .respond (if s.v.getLsbD 0 = true then 0x000000001#34 else 0x000000000#34) :: s.trace })

/-- R154: HAS_BYTE makes exactly one poll and answers 1 exactly when a byte is waiting; neither FIFO changes. -/
def Obligations.HasByteAnswersTheFlag : Prop :=
  (∀ (s : State) (us : List Word), s.cfg.legal = true → s.life = .ready → us.length = 3 →
    ∃ (t : State) (w : Word), alone us (s.offering .hasByte [] []) = .next t ∧
      t.trace = [Transaction.respond (if s.rxq = [] then 0x000000000#34 else 0x000000001#34),
        .memRead (s.cfg.ioBase + 0x215054#32) 4 w] ++ s.trace ∧
      (w.getLsbD 0 = true ↔ s.rxq ≠ []) ∧ t.v = w ∧ t.txq = s.txq ∧ t.rxq = s.rxq ∧ t.mem = s.mem ∧ t.phase = .idle ∧
      t.life = .ready ∧ t.toValid = s.toValid ∧ t.toMs = s.toMs ∧ t.byte = s.byte ∧ t.t0 = s.t0 ∧ t.now = s.now ∧
      t.idx = s.idx ∧ t.time = s.time ∧ t.lineOut = s.lineOut) ∧
  (∀ s : State, s.life = .uninit → exec .hasByte (s.offering .hasByte [] []) = .refused (.lifecycle .uninit))

/-- R75: bit 0 of an LSR read says exactly whether the receive FIFO is non-empty, and it stays so, with the same oldest byte,
until the engine reads IO. -/
def Obligations.DataReadyIsExactAndStable : Prop :=
  (∀ s : State, s.life = .ready → (s.lsrWord.getLsbD 0 = true ↔ s.rxq ≠ [])) ∧
  (∀ s t : State, s.life = .ready → s.rxq ≠ [] → (s.phase.atIoRead = false ∨ s.engineTurn = none) → step s = .next t →
    t.rxq ≠ [] ∧ t.rxq.head? = s.rxq.head?)

/-- R76: bit 5 of an LSR read says exactly whether the transmit FIFO has room, it stays so until the engine writes IO, and the
bits other than 0 and 5 can be anything. -/
def Obligations.TxSpaceIsExactAndStable : Prop :=
  (∀ s : State, s.life = .ready → (s.lsrWord.getLsbD 5 = true ↔ s.txq.length < s.cfg.txDepth)) ∧
  (∀ s t : State, s.life = .ready → s.txq.length < s.cfg.txDepth →
    (s.phase.atIoWrite = false ∨ s.engineTurn = none) → step s = .next t → t.txq.length < t.cfg.txDepth) ∧
  (∀ (s : State) (u : Word) (j : Nat), j ≠ 0 → j ≠ 5 → ({ s with undef := u }).lsrWord.getLsbD j = u.getLsbD j)

/-! ## WAIT_FOR_BYTE and Timeout -/

/-- R160: the deadline test is elapsed time modulo 2^64 against the exact product, strict; it is the source's test when nothing
wraps, it is untouched by a wrap of the counter, and elapsed exactly equal to the duration is not expired. -/
def Obligations.DeadlineTest : Prop :=
  (∀ (t0 now : Micros) (ms : Word),
    expired t0 now ms = true ↔ ms.toNat * 1000 < (now.toNat + (2 ^ 64 - t0.toNat)) % 2 ^ 64) ∧
  (∀ (t0 now : Micros) (ms : Word), t0.toNat + ms.toNat * 1000 < 2 ^ 64 → t0.toNat ≤ now.toNat →
    (expired t0 now ms = true ↔ t0.toNat + ms.toNat * 1000 < now.toNat)) ∧
  (∀ (t0 now d : Micros) (ms : Word), expired (t0 + d) (now + d) ms = expired t0 now ms) ∧
  (∀ (t0 : Micros) (ms : Word), expired t0 (t0 + BitVec.ofNat 64 (ms.toNat * 1000)) ms = false) ∧
  (∀ ms : Word, ms.toNat * 1000 < 2 ^ 42)

/-- Every line of WAIT_FOR_BYTE answers a next state, this one (R158, R159, R200). -/
def Obligations.WaitForByteLines : Prop :=
  ∀ s : State,
    (s.phase = .a0 .w0 → exec .waitForByte s = .next { s with
      t0 := s.time, phase := .a0 .w1, trace := .timeNow s.time :: s.trace }) ∧
    (s.phase = .a0 .w1 → s.life = .ready → ∃ w, s.LsrSample w ∧ exec .waitForByte s = .next { s with
      v := w, phase := if s.rxq ≠ [] then .a1 .ok else if s.toValid = true then .a0 .w2 else .a0 .w1,
      trace := .memRead (s.cfg.ioBase + 0x215054#32) 4 w :: s.trace }) ∧
    (s.phase = .a0 .w2 → exec .waitForByte s = .next { s with
      now := s.time, phase := if s.toMs.toNat * 1000 < (s.time - s.t0).toNat then .a1 .timedOut else .a0 .w1,
      trace := .timeNow s.time :: s.trace }) ∧
    (s.phase = .a1 .ok → exec .waitForByte s = .next { s with
      phase := .idle, trace := .respond 0x000000000#34 :: s.trace }) ∧
    (s.phase = .a1 .timedOut → exec .waitForByte s = .next { s with
      phase := .idle, trace := .respond 0x100000000#34 :: s.trace })

/-- A byte ready at the first poll gives OK whatever the timeout and the clock say (R161 a, R205): one time sample, one poll,
and the byte is still in the FIFO. -/
def Obligations.ReadyByteBeatsAnyDeadline : Prop :=
  ∀ (s : State) (u0 u1 u2 u3 : Word) (d : Micros), s.cfg.legal = true → s.life = .ready → s.rxq ≠ [] →
    ∃ (t : State) (w : Word),
      following [.engine u0, .engine u1, .env (.tick d), .engine u2, .engine u3] (s.offering .waitForByte [] []) = .next t ∧
      w.getLsbD 0 = true ∧
      t.trace = [Transaction.respond 0x000000000#34, .memRead (s.cfg.ioBase + 0x215054#32) 4 w, .timeNow s.time] ++ s.trace ∧
      t.rxq = s.rxq ∧ t.txq = s.txq ∧ t.mem = s.mem ∧ t.toValid = s.toValid ∧ t.toMs = s.toMs ∧ t.phase = .idle

/-- The wait with a timeout present and no byte, the clock advancing by `d` between the poll and the time sample (R159 with the
source's Scenario A, R203): TIMED_OUT exactly when `d` exceeds the duration, and then the peripheral, the timeout and the
lifecycle are as if the command had not been issued; otherwise it polls again. -/
def Obligations.WaitTimesOutPastTheDeadline : Prop :=
  ∀ (s : State) (u0 u1 u2 u3 u4 : Word) (d : Micros), s.cfg.legal = true → s.life = .ready → s.rxq = [] →
    s.toValid = true →
    ∃ (t : State) (w : Word),
      following [.engine u0, .engine u1, .engine u2, .env (.tick d), .engine u3, .engine u4]
        (s.offering .waitForByte [] []) = .next t ∧
      w.getLsbD 0 = false ∧ t.rxq = s.rxq ∧ t.txq = s.txq ∧ t.mem = s.mem ∧ t.toValid = true ∧ t.toMs = s.toMs ∧
      t.life = .ready ∧
      (s.toMs.toNat * 1000 < d.toNat → t.phase = .idle ∧
        t.trace = [Transaction.respond 0x100000000#34, .timeNow (s.time + d),
          .memRead (s.cfg.ioBase + 0x215054#32) 4 w, .timeNow s.time] ++ s.trace) ∧
      (d.toNat ≤ s.toMs.toNat * 1000 → t.phase = .a0 .w2 ∧ ∃ w', w'.getLsbD 0 = false ∧
        t.trace = [Transaction.memRead (s.cfg.ioBase + 0x215054#32) 4 w', .timeNow (s.time + d),
          .memRead (s.cfg.ioBase + 0x215054#32) 4 w, .timeNow s.time] ++ s.trace)

/-- "loops until data arrives" (R158, R161 b): with no timeout configured and no byte, the wait polls for as many steps as are
taken, in WAIT_FOR_BYTE and in BUF_READ, and never samples the clock again. -/
def Obligations.UnboundedWaitOnlyPolls : Prop :=
  ∀ (s : State) (us : List Word), s.cfg.legal = true → s.life = .ready → s.phase ∈ [Phase.a0 .w1, .q0 .w1] →
    s.toValid = false → s.rxq = [] →
    ∃ (t : State) (polls : List Transaction), alone us s = .next t ∧ t.trace = polls ++ s.trace ∧
      polls.length = us.length ∧
      (∀ x ∈ polls, ∃ w : Word, x = .memRead (s.cfg.ioBase + 0x215054#32) 4 w ∧ w.getLsbD 0 = false) ∧
      t.phase = s.phase ∧ t.rxq = [] ∧ t.t0 = s.t0 ∧ t.now = s.now

/-- R112: only WAIT_FOR_BYTE and BUF_READ answer TIMED_OUT; every other answer has status OK. -/
def Obligations.OnlyTwoOperationsTimeOut : Prop :=
  ∀ (s t : State) (w : ResponseWord), step s = .next t → t.trace = .respond w :: s.trace →
    w.extractLsb' 32 2 = 0#2 ∨
      (w.extractLsb' 32 2 = 1#2 ∧
        (s.inProgress = some .waitForByte ∨ ∃ cap, s.inProgress = some (.bufRead cap)))

/-- R201: the cause of Timeout, exactly, in both directions. Only when: the answer TIMED_OUT is given only in WAIT_FOR_BYTE and
BUF_READ, with a timeout present and the last time sample expired; the engine comes to the point of raising it only from a
deadline test that has just sampled an expired time, and to the deadline test only from a poll that saw no byte. When: with a
timeout present, a poll that sees no byte leads to the deadline test, a sample that is expired leads to the point of raising
it, and there the engine answers TIMED_OUT. -/
def Obligations.TimeoutOnlyWhenExpired : Prop :=
  (∀ (s t : State) (w : ResponseWord), s.Inv → step s = .next t → t.trace = .respond w :: s.trace →
    w.extractLsb' 32 2 ≠ 0#2 →
    (s.inProgress = some .waitForByte ∨ ∃ cap, s.inProgress = some (.bufRead cap)) ∧ s.phase.isTimeout = true ∧
    s.toValid = true ∧ s.toMs.toNat * 1000 < (s.now - s.t0).toNat ∧ w = 0x100000000#34) ∧
  (∀ s t : State, s.Inv → step s = .next t → s.phase.isTimeout = false → t.phase.isTimeout = true →
    s.phase.atDeadline = true ∧ s.toValid = true ∧ t.now = s.time ∧ s.toMs.toNat * 1000 < (s.time - s.t0).toNat) ∧
  (∀ s t : State, step s = .next t → s.phase.atDeadline = false → t.phase.atDeadline = true →
    ∃ w : Word, t.trace = .memRead (s.cfg.ioBase + 0x215054#32) 4 w :: s.trace ∧ w.getLsbD 0 = false ∧ s.toValid = true) ∧
  (∀ s e : State, s.cfg.legal = true → s.engineTurn = some e → s.phase ∈ [Phase.a0 .w1, .q0 .w1] → s.life = .ready →
    s.toValid = true → s.rxq = [] →
    ∃ (t : State) (w : Word), step s = .next t ∧ t.phase.atDeadline = true ∧ w.getLsbD 0 = false ∧
      t.trace = .memRead (s.cfg.ioBase + 0x215054#32) 4 w :: s.trace) ∧
  (∀ s e : State, s.cfg.legal = true → s.engineTurn = some e → s.phase.atDeadline = true →
    s.toMs.toNat * 1000 < (s.time - s.t0).toNat →
    ∃ t : State, step s = .next t ∧ t.phase.isTimeout = true ∧ t.now = s.time ∧ t.trace = .timeNow s.time :: s.trace) ∧
  (∀ s e : State, s.cfg.legal = true → s.engineTurn = some e → s.phase.isTimeout = true →
    ∃ t : State, step s = .next t ∧ t.phase = .idle ∧ t.trace = .respond 0x100000000#34 :: s.trace)

/-! ## READ_BYTE -/

/-- Every line of READ_BYTE answers a next state, this one (R163, R164). -/
def Obligations.ReadByteLines : Prop :=
  ∀ s : State,
    (s.phase = .d0 .rx0 → s.life = .ready → ∃ w, s.LsrSample w ∧ exec .readByte s = .next { s with
      v := w, phase := if s.rxq ≠ [] then .d0 .rx1 else .d0 .rx0,
      trace := .memRead (s.cfg.ioBase + 0x215054#32) 4 w :: s.trace }) ∧
    (∀ b rest, s.phase = .d0 .rx1 → s.life = .ready → s.rxq = b :: rest →
      ∃ w : Word, w.setWidth 8 = b ∧ exec .readByte s = .next { s with
        v := w, byte := b, rxq := rest, phase := .d1,
        trace := .memRead (s.cfg.ioBase + 0x215040#32) 4 w :: s.trace }) ∧
    (s.phase = .d1 → exec .readByte s = .next { s with
      phase := .idle, trace := .respond (s.byte.setWidth 34) :: s.trace })

/-- R164: READ_BYTE with a byte waiting makes exactly one poll and one IO read, whatever the timeout, answers the oldest byte
and removes it; bits 31 to 8 of the word read are discarded. -/
def Obligations.ReadByteTakesTheOldest : Prop :=
  (∀ (s : State) (b : Byte) (rest : List Byte) (us : List Word), s.cfg.legal = true → s.life = .ready →
    s.rxq = b :: rest → us.length = 4 →
    ∃ (t : State) (w w' : Word), alone us (s.offering .readByte [] []) = .next t ∧ w.getLsbD 0 = true ∧
      w'.setWidth 8 = b ∧
      t.trace = [Transaction.respond (b.setWidth 34),
        .memRead (s.cfg.ioBase + 0x215040#32) 4 w',
        .memRead (s.cfg.ioBase + 0x215054#32) 4 w] ++ s.trace ∧
      t.rxq = rest ∧ t.txq = s.txq ∧ t.mem = s.mem ∧ t.phase = .idle ∧ t.byte = b ∧ t.toValid = s.toValid ∧
      t.toMs = s.toMs ∧ t.t0 = s.t0 ∧ t.now = s.now) ∧
  (∀ s : State, s.life = .uninit → exec .readByte (s.offering .readByte [] []) = .refused (.lifecycle .uninit))

/-- R163, R165 d: with no byte, READ_BYTE polls for as many steps as are taken, whatever timeout is configured. -/
def Obligations.ReceiveSpinsWhileEmpty : Prop :=
  ∀ (s : State) (us : List Word), s.cfg.legal = true → s.life = .ready → s.phase = .d0 .rx0 → s.rxq = [] →
    ∃ (t : State) (polls : List Transaction), alone us s = .next t ∧ t.trace = polls ++ s.trace ∧
      polls.length = us.length ∧
      (∀ x ∈ polls, ∃ w : Word, x = .memRead (s.cfg.ioBase + 0x215054#32) 4 w ∧ w.getLsbD 0 = false) ∧
      t.phase = .d0 .rx0 ∧ t.rxq = [] ∧ t.toValid = s.toValid ∧ t.toMs = s.toMs

/-! ## WRITE_STR, BUF_READ, BUF_WRITE, FLUSH -/

/-- Every line of WRITE_STR answers a next state, this one (R183). -/
def Obligations.WriteStrLines : Prop :=
  ∀ (s : State) (n : Word),
    (s.phase = .x0 → exec (.writeStr n) s = .next { s with idx := 0#32, phase := .x1 }) ∧
    (s.phase = .x1 → s.idx = s.arg → exec (.writeStr n) s = .next { s with
      phase := .idle, trace := .respond 0x000000000#34 :: s.trace }) ∧
    (s.phase = .x1 → s.idx ≠ s.arg → exec (.writeStr n) s = .next { s with phase := .x2 }) ∧
    (s.phase = .x2 → ∃ b, (∀ b', s.src[s.idx.toNat]? = some b' → b = b') ∧ exec (.writeStr n) s = .next { s with
      byte := b, phase := .x3, trace := .srcByte s.idx b :: s.trace }) ∧
    (s.phase = .x3 → exec (.writeStr n) s = .next { s with
      phase := if s.byte = 0x0A#8 then .x3tx .t0 else .x4 .t0 }) ∧
    (s.phase = .x3tx .t0 → s.life = .ready → ∃ w, s.LsrSample w ∧ exec (.writeStr n) s = .next { s with
      v := w, phase := if s.txq.length < s.cfg.txDepth then .x3tx .t1 else .x3tx .t0,
      trace := .memRead (s.cfg.ioBase + 0x215054#32) 4 w :: s.trace }) ∧
    (s.phase = .x3tx .t1 → s.life = .ready → s.txq.length < s.cfg.txDepth → exec (.writeStr n) s = .next { s with
      txq := s.txq ++ [0x0D#8], phase := .x4 .t0,
      trace := .memWrite (s.cfg.ioBase + 0x215040#32) 4 0x0000000D#32 :: s.trace }) ∧
    (s.phase = .x4 .t0 → s.life = .ready → ∃ w, s.LsrSample w ∧ exec (.writeStr n) s = .next { s with
      v := w, phase := if s.txq.length < s.cfg.txDepth then .x4 .t1 else .x4 .t0,
      trace := .memRead (s.cfg.ioBase + 0x215054#32) 4 w :: s.trace }) ∧
    (s.phase = .x4 .t1 → s.life = .ready → s.txq.length < s.cfg.txDepth → exec (.writeStr n) s = .next { s with
      txq := s.txq ++ [s.byte], phase := .x5,
      trace := .memWrite (s.cfg.ioBase + 0x215040#32) 4 (s.byte.setWidth 32) :: s.trace }) ∧
    (s.phase = .x5 → exec (.writeStr n) s = .next { s with idx := s.idx + 1#32, phase := .x1 })

/-- R184 b, whatever the other agents do meanwhile, as long as the client keeps its source buffer: when WRITE_STR answers, the
bus writes it has made are, in order, one IO write per byte of the input with a carriage return right before every line feed,
and the answer is OK 0. `r` is what the engine did between the start of the command and its answer. The codes of the two
characters are ASCII (R106, log entry 17). -/
def Obligations.WriteStrSendsNormalizedText : Prop :=
  ∀ (s t : State) (k : Nat) (r : List Transaction) (w : ResponseWord), s.life = .ready → s.phase = .x0 →
    s.arg.toNat = s.src.length → (∀ m ∈ s.sched, keepsSource m = true) →
    Host.Core.run Sys2Proof.core k s = .next t → t.trace = .respond w :: (r ++ s.trace) →
    (∀ x ∈ r, x.isResponse = false) →
    busWrites r = (normalize s.src).map (fun b => (s.cfg.ioBase + 0x215040#32, 4, b.setWidth 32)) ∧ w = 0x000000000#34

/-- WRITE_STR completes (R183): with room for all of its output it answers, the output is at the tail of the transmit FIFO, and
nothing else of the machine has changed but `E.IDX`, `E.BYTE`, `E.V`, the trace, and the model's schedule and free values. The
number of engine steps is the model's, which gives the lines without a transaction a step (log entry 8). -/
def Obligations.WriteStrCompletes : Prop :=
  ∀ (s : State) (us : List Word), s.cfg.legal = true → s.life = .ready → s.phase = .x0 → s.arg.toNat = s.src.length →
    s.txq.length + (normalize s.src).length ≤ s.cfg.txDepth →
    us.length = 2 + 4 * s.src.length + 2 * (normalize s.src).length →
    ∃ (t : State) (r : List Transaction), alone us s = .next t ∧ t.phase = .idle ∧ t.txq = s.txq ++ normalize s.src ∧
      t.trace = .respond 0x000000000#34 :: (r ++ s.trace) ∧ (∀ x ∈ r, x.isResponse = false) ∧
      t = { s with phase := .idle, txq := s.txq ++ normalize s.src, idx := s.arg, byte := t.byte, v := t.v, trace := t.trace,
                   sched := [], undef := t.undef, freeCount := t.freeCount }

/-- Every line of BUF_READ answers a next state, this one (R185). -/
def Obligations.BufReadLines : Prop :=
  ∀ (s : State) (n : Word),
    (s.phase = .q0 .w0 → exec (.bufRead n) s = .next { s with
      t0 := s.time, phase := .q0 .w1, trace := .timeNow s.time :: s.trace }) ∧
    (s.phase = .q0 .w1 → s.life = .ready → ∃ w, s.LsrSample w ∧ exec (.bufRead n) s = .next { s with
      v := w, phase := if s.rxq ≠ [] then .q1 else if s.toValid = true then .q0 .w2 else .q0 .w1,
      trace := .memRead (s.cfg.ioBase + 0x215054#32) 4 w :: s.trace }) ∧
    (s.phase = .q0 .w2 → exec (.bufRead n) s = .next { s with
      now := s.time, phase := if s.toMs.toNat * 1000 < (s.time - s.t0).toNat then .q0timeout else .q0 .w1,
      trace := .timeNow s.time :: s.trace }) ∧
    (s.phase = .q0timeout → exec (.bufRead n) s = .next { s with
      phase := .idle, trace := .respond 0x100000000#34 :: s.trace }) ∧
    (s.phase = .q1 → exec (.bufRead n) s = .next { s with idx := 0#32, phase := .q2 }) ∧
    (s.phase = .q2 → s.idx = s.arg → exec (.bufRead n) s = .next { s with
      phase := .idle, trace := .respond (s.idx.setWidth 34) :: s.trace }) ∧
    (s.phase = .q2 → s.idx ≠ s.arg → exec (.bufRead n) s = .next { s with phase := .q3 }) ∧
    (s.phase = .q3 → s.life = .ready → ∃ w, s.LsrSample w ∧ exec (.bufRead n) s = .next { s with
      v := w, phase := if s.rxq ≠ [] then .q4 .rx0 else .q3done,
      trace := .memRead (s.cfg.ioBase + 0x215054#32) 4 w :: s.trace }) ∧
    (s.phase = .q3done → exec (.bufRead n) s = .next { s with
      phase := .idle, trace := .respond (s.idx.setWidth 34) :: s.trace }) ∧
    (s.phase = .q4 .rx0 → s.life = .ready → ∃ w, s.LsrSample w ∧ exec (.bufRead n) s = .next { s with
      v := w, phase := if s.rxq ≠ [] then .q4 .rx1 else .q4 .rx0,
      trace := .memRead (s.cfg.ioBase + 0x215054#32) 4 w :: s.trace }) ∧
    (∀ b rest, s.phase = .q4 .rx1 → s.life = .ready → s.rxq = b :: rest →
      ∃ w : Word, w.setWidth 8 = b ∧ exec (.bufRead n) s = .next { s with
        v := w, byte := b, rxq := rest, phase := .q5,
        trace := .memRead (s.cfg.ioBase + 0x215040#32) 4 w :: s.trace }) ∧
    (s.phase = .q5 → exec (.bufRead n) s = .next { s with
      dst := s.dst.set s.idx.toNat s.byte, phase := .q6, trace := .dstWrite s.idx s.byte :: s.trace }) ∧
    (s.phase = .q6 → exec (.bufRead n) s = .next { s with idx := s.idx + 1#32, phase := .q2 })

/-- BUF_READ completes with at least one byte ready (R185, R186, R187 b to d, the source's Scenario D): with `count` the
smaller of the capacity and the number of waiting bytes, the first `count` bytes go into the first `count` slots in order, the
other slots are untouched, and the answer is the count, after exactly the transactions of R186. The number of engine steps is
the model's, which gives the lines without a transaction a step (log entry 8). -/
def Obligations.BufReadDrainsReadyBytes : Prop :=
  ∀ (s : State) (us : List Word) (count : Nat), s.cfg.legal = true → s.life = .ready → s.phase = .q0 .w0 → s.rxq ≠ [] →
    s.arg.toNat = s.dst.length → count = min s.arg.toNat s.rxq.length →
    us.length = 3 + 6 * count + (if count = s.arg.toNat then 1 else 3) →
    ∃ (t : State) (r : List Transaction), alone us s = .next t ∧ t.phase = .idle ∧
      t.dst = s.rxq.take count ++ s.dst.drop count ∧ t.rxq = s.rxq.drop count ∧
      t.trace = .respond (BitVec.ofNat 34 count) :: (r ++ s.trace) ∧ (∀ x ∈ r, x.isResponse = false) ∧
      r.map Transaction.request = (if count = s.arg.toNat then [] else [.memRead (s.cfg.ioBase + 0x215054#32) 4 0]) ++
        (List.range count).reverse.flatMap (fun k => [Transaction.dstWrite (BitVec.ofNat 32 k) (s.rxq.getD k 0),
          .memRead (s.cfg.ioBase + 0x215040#32) 4 0, .memRead (s.cfg.ioBase + 0x215054#32) 4 0,
          .memRead (s.cfg.ioBase + 0x215054#32) 4 0]) ++
        [.memRead (s.cfg.ioBase + 0x215054#32) 4 0, .timeNow 0] ∧
      t.txq = s.txq ∧ t.mem = s.mem ∧ t.toValid = s.toValid ∧ t.toMs = s.toMs

/-- BUF_READ that times out (R187 f, R203): no IO read, no `DstWrite`, the destination buffer untouched, VALUE 0. -/
def Obligations.BufReadTimeoutTouchesNothing : Prop :=
  ∀ (s : State) (u1 u2 u3 u4 : Word) (d : Micros), s.cfg.legal = true → s.life = .ready → s.phase = .q0 .w0 →
    s.rxq = [] → s.toValid = true → s.toMs.toNat * 1000 < d.toNat →
    ∃ (t : State) (w : Word),
      following [.engine u1, .engine u2, .env (.tick d), .engine u3, .engine u4] s = .next t ∧ t.phase = .idle ∧
      t.trace = [Transaction.respond 0x100000000#34, .timeNow (s.time + d), .memRead (s.cfg.ioBase + 0x215054#32) 4 w,
        .timeNow s.time] ++ s.trace ∧
      t.dst = s.dst ∧ t.rxq = [] ∧ t.txq = s.txq ∧ t.mem = s.mem ∧ t.toValid = true ∧ t.toMs = s.toMs

/-- Every line of BUF_WRITE answers a next state, this one (R188). -/
def Obligations.BufWriteLines : Prop :=
  ∀ (s : State) (n : Word),
    (s.phase = .y0 → exec (.bufWrite n) s = .next { s with idx := 0#32, phase := .y1 }) ∧
    (s.phase = .y1 → s.idx = s.arg → exec (.bufWrite n) s = .next { s with
      phase := .idle, trace := .respond (s.arg.setWidth 34) :: s.trace }) ∧
    (s.phase = .y1 → s.idx ≠ s.arg → exec (.bufWrite n) s = .next { s with phase := .y2 }) ∧
    (s.phase = .y2 → ∃ b, (∀ b', s.src[s.idx.toNat]? = some b' → b = b') ∧ exec (.bufWrite n) s = .next { s with
      byte := b, phase := .y3 .t0, trace := .srcByte s.idx b :: s.trace }) ∧
    (s.phase = .y3 .t0 → s.life = .ready → ∃ w, s.LsrSample w ∧ exec (.bufWrite n) s = .next { s with
      v := w, phase := if s.txq.length < s.cfg.txDepth then .y3 .t1 else .y3 .t0,
      trace := .memRead (s.cfg.ioBase + 0x215054#32) 4 w :: s.trace }) ∧
    (s.phase = .y3 .t1 → s.life = .ready → s.txq.length < s.cfg.txDepth → exec (.bufWrite n) s = .next { s with
      txq := s.txq ++ [s.byte], phase := .y4,
      trace := .memWrite (s.cfg.ioBase + 0x215040#32) 4 (s.byte.setWidth 32) :: s.trace }) ∧
    (s.phase = .y4 → exec (.bufWrite n) s = .next { s with idx := s.idx + 1#32, phase := .y1 })

/-- R188, R189 b and c, whatever the other agents do meanwhile, as long as the client keeps its source buffer: when BUF_WRITE
answers, its bus writes are, in order, one IO write per byte of the buffer, untranslated, and the answer is OK with the full
length. -/
def Obligations.BufWriteSendsEveryByte : Prop :=
  ∀ (s t : State) (k : Nat) (r : List Transaction) (w : ResponseWord), s.life = .ready → s.phase = .y0 →
    s.arg.toNat = s.src.length → (∀ m ∈ s.sched, keepsSource m = true) →
    Host.Core.run Sys2Proof.core k s = .next t → t.trace = .respond w :: (r ++ s.trace) →
    (∀ x ∈ r, x.isResponse = false) →
    busWrites r = s.src.map (fun b => (s.cfg.ioBase + 0x215040#32, 4, b.setWidth 32)) ∧ w = s.arg.setWidth 34

/-- BUF_WRITE completes (R188): with room for the whole buffer it answers, the buffer is at the tail of the transmit FIFO, and
nothing else of the machine has changed but `E.IDX`, `E.BYTE`, `E.V`, the trace, and the model's schedule and free values. The
number of engine steps is the model's, which gives the lines without a transaction a step (log entry 8). -/
def Obligations.BufWriteCompletes : Prop :=
  ∀ (s : State) (us : List Word), s.cfg.legal = true → s.life = .ready → s.phase = .y0 → s.arg.toNat = s.src.length →
    s.txq.length + s.src.length ≤ s.cfg.txDepth → us.length = 2 + 5 * s.src.length →
    ∃ (t : State) (r : List Transaction), alone us s = .next t ∧ t.phase = .idle ∧ t.txq = s.txq ++ s.src ∧
      t.trace = .respond (s.arg.setWidth 34) :: (r ++ s.trace) ∧ (∀ x ∈ r, x.isResponse = false) ∧
      t = { s with phase := .idle, txq := s.txq ++ s.src, idx := s.arg, byte := t.byte, v := t.v, trace := t.trace,
                   sched := [], undef := t.undef, freeCount := t.freeCount }

/-- R190: FLUSH answers OK 0 and does nothing else: no bus access, the transmit FIFO as it was; it exists only in a host build
and after INIT. -/
def Obligations.FlushDoesNothing : Prop :=
  (∀ s : State, s.phase = .f0 → exec .flush s = .next { s with
    phase := .idle, trace := .respond 0x000000000#34 :: s.trace }) ∧
  (∀ (s : State) (us : List Word), s.cfg.legal = true → s.cfg.hostBuild = true → s.life = .ready → us.length = 2 →
    ∃ t : State, alone us (s.offering .flush [] []) = .next t ∧ t.phase = .idle ∧
      t.trace = .respond 0x000000000#34 :: s.trace ∧ t.txq = s.txq ∧ t.rxq = s.rxq ∧ t.mem = s.mem ∧
      t.lineOut = s.lineOut ∧ t.toValid = s.toValid ∧ t.toMs = s.toMs ∧ t.life = .ready) ∧
  (∀ s : State, s.cfg.hostBuild = false → exec .flush (s.offering .flush [] []) = .refused (.reservedWord .facade)) ∧
  (∀ s : State, s.cfg.hostBuild = true → s.life = .uninit →
    exec .flush (s.offering .flush [] []) = .refused (.lifecycle .uninit))

/-! ## The peripheral's line side -/

/-- The line delivers a byte at any time; it is appended while there is room and lost otherwise (R77); and bytes leave the
receive FIFO, by READ_BYTE's IO read, in the order they entered (R74; BUF_READ's is in `BufReadLines`). R72 gives R77 from
INIT's response on; that the queue is kept the same way in UNINIT too is the model's choice (log entry 22, DEDUCED). -/
def Obligations.LineReceive : Prop :=
  (∀ (s : State) (b : Byte), s.rxq.length < s.cfg.rxDepth → envMove (.rx b) s = .next { s with rxq := s.rxq ++ [b] }) ∧
  (∀ (s : State) (b : Byte), s.cfg.rxDepth ≤ s.rxq.length → envMove (.rx b) s = .next s) ∧
  (∀ (s : State) (b : Byte) (rest : List Byte), s.life = .ready → s.rxq = b :: rest → s.phase = .d0 .rx1 →
    ∃ t, exec .readByte s = .next t ∧ t.byte = b ∧ t.rxq = rest)

/-- The line may take the head of a non-empty transmit FIFO at any time; bytes leave in the order they were written (R78). R72
gives R78 from INIT's response on; that the queue is kept the same way in UNINIT too is the model's choice (log entry 22,
DEDUCED). -/
def Obligations.LineTransmit : Prop :=
  (∀ (s : State) (b : Byte) (rest : List Byte), s.txq = b :: rest →
    envMove .drain s = .next { s with txq := rest, lineOut := s.lineOut ++ [b] }) ∧
  (∀ s : State, s.txq = [] → envMove .drain s = .next s)

/-! ## Frames, invariants, whole-machine rules -/

/-- What an instruction's step can store to in the bus space: line I1 the enable switch, I2 LCR, I3 BAUD, I6 CNTL, and nothing
else; in particular every instruction but INIT leaves every byte as it was (R31 column "engine writes", R32). -/
def Obligations.MemoryFrame : Prop :=
  ∀ (i : Instr) (s t : State), exec i s = .next t → ∀ a : Nat,
    (i = .init ∧ s.phase = .i1 → a ≠ (s.cfg.ioBase + 0x215004#32).toNat → t.mem.read a = s.mem.read a) ∧
    (i = .init ∧ s.phase = .i2 →
      (a < (s.cfg.ioBase + 0x21504C#32).toNat ∨ (s.cfg.ioBase + 0x21504C#32).toNat + 3 < a) → t.mem.read a = s.mem.read a) ∧
    (i = .init ∧ s.phase = .i3 →
      (a < (s.cfg.ioBase + 0x215068#32).toNat ∨ (s.cfg.ioBase + 0x215068#32).toNat + 3 < a) → t.mem.read a = s.mem.read a) ∧
    (i = .init ∧ s.phase = .i6 →
      (a < (s.cfg.ioBase + 0x215060#32).toNat ∨ (s.cfg.ioBase + 0x215060#32).toNat + 3 < a) → t.mem.read a = s.mem.read a) ∧
    (¬(i = .init ∧ s.phase ∈ [Phase.i1, .i2, .i3, .i6]) → t.mem.read a = s.mem.read a)

/-- What each register's writers are (R20 to R26, R30, R42, R217): an instruction's step leaves a register, a FIFO or a
collaborator unchanged unless it is one of the lines named here, and the parameters, the clock, the line's output and the
schedule always. -/
def Obligations.EachRegisterHasItsWriters : Prop :=
  ∀ (i : Instr) (s t : State), exec i s = .next t →
    t.cfg = s.cfg ∧ t.time = s.time ∧ t.lineOut = s.lineOut ∧ t.sched = s.sched ∧ t.undef = s.undef ∧
      t.freeCount = s.freeCount ∧
    (t.life = s.life ∨ (i = .init ∧ s.phase = .i7 ∧ t.life = .ready)) ∧
    ((t.toValid = s.toValid ∧ t.toMs = s.toMs) ∨ (i = .init ∧ s.phase = .i7 ∧ t.toValid = false ∧ t.toMs = s.toMs) ∨
      (((∃ ms, i = .setTimeoutMs ms) ∨ i = .setTimeoutNone) ∧ s.phase = .s0)) ∧
    ((t.opc = s.opc ∧ t.flags = s.flags ∧ t.arg = s.arg ∧ t.src = s.src ∧ t.cmds = s.cmds) ∨ s.phase = .idle) ∧
    (t.dst = s.dst ∨ s.phase = .idle ∨ ((∃ n, i = .bufRead n) ∧ s.phase = .q5)) ∧
    (t.byte = s.byte ∨ s.phase ∈ [Phase.x2, .y2, .d0 .rx1, .q4 .rx1]) ∧
    (t.v = s.v ∨ s.phase ∈ [Phase.i0, .b0 .t0, .h0, .a0 .w1, .d0 .rx0, .d0 .rx1, .x3tx .t0, .x4 .t0, .q0 .w1, .q3, .q4 .rx0,
      .q4 .rx1, .y3 .t0]) ∧
    ((t.t0 = s.t0 ∧ t.now = s.now) ∨ s.phase ∈ [Phase.a0 .w0, .a0 .w2, .q0 .w0, .q0 .w2]) ∧
    (t.idx = s.idx ∨ s.phase ∈ [Phase.x0, .x5, .q1, .q6, .y0, .y4]) ∧
    (t.txq = s.txq ∨ s.phase.atIoWrite = true) ∧
    (t.rxq = s.rxq ∨ s.phase.atIoRead = true) ∧
    ((t.pin14 = s.pin14 ∧ t.pin15 = s.pin15) ∨ (i = .init ∧ s.phase ∈ [Phase.i4, .i5]))

/-- The only post-construction change of the timeout is SET_TIMEOUT's, and nothing sets the lifecycle back (R20, R21), for every
step of every agent. In a state that meets the invariant and is READY the timeout changes at S0 only; in any state, one no run
reaches included, at S0 and at INIT's last line only. -/
def Obligations.TimeoutAndLifecycleRules : Prop :=
  ∀ s t : State, step s = .next t →
    (s.life = .ready → t.life = .ready) ∧
    (s.Inv → s.life = .ready → (t.toValid ≠ s.toValid ∨ t.toMs ≠ s.toMs) → s.phase = .s0) ∧
    ((t.toValid ≠ s.toValid ∨ t.toMs ≠ s.toMs) → s.phase = .s0 ∨ s.phase = .i7) ∧
    (t.life ≠ s.life → s.phase = .i7 ∧ t.toValid = false)

/-- Every step of every agent keeps the invariant: the legal launch, the canonical bus memory, the FIFO bounds, the lifecycle
of the control point, the latched command, the configured peripheral, the gates of the IO accesses, the index bounds and the
conditions of Timeout. -/
def Obligations.StepKeepsInvariant : Prop :=
  ∀ s t : State, s.Inv → step s = .next t → t.Inv

/-- R80: after INIT the peripheral is configured, and no operation and no other agent changes that again: for every legal
launch, all power-on contents, every stream of commands and every interleaving with the other agents. -/
def Obligations.ConfiguredStateStands : Prop :=
  ∀ (c : Config) (p : PowerOn) (cmds : List Command) (moves : List Move) (k : Nat) (t : State), c.legal = true →
    p.mem.wf = true →
    Host.Core.run Sys2Proof.core k { State.resetWith c p with cmds := cmds, sched := moves } = .next t → t.life = .ready →
    t.enb.getLsbD 0 = true ∧ t.stored .lcr = 0x00000003#32 ∧ t.stored .baud = 0x0000010E#32 ∧
      t.stored .cntl = 0x00000003#32

/-- R242, "One poll licenses one access": in the trace of every run from reset, right before every IO write stands a poll that
saw TX_SPACE and right before every IO read a poll that saw DATA_READY; and every step keeps it. -/
def Obligations.EveryIoAccessIsGated : Prop :=
  (∀ s t : State, Gated s.cfg s.trace → (s.phase.atIoWrite = true → JustPolled s.cfg 5 s.trace) →
    (s.phase.atIoRead = true → JustPolled s.cfg 0 s.trace) → step s = .next t →
    Gated t.cfg t.trace ∧ (t.phase.atIoWrite = true → JustPolled t.cfg 5 t.trace) ∧
    (t.phase.atIoRead = true → JustPolled t.cfg 0 t.trace)) ∧
  (∀ (c : Config) (p : PowerOn) (cmds : List Command) (moves : List Move) (k : Nat) (t : State),
    Host.Core.run Sys2Proof.core k { State.resetWith c p with cmds := cmds, sched := moves } = .next t → Gated c t.trace)

/-- "no path reads one before writing it" (R231): the latches whose reset value is unspecified are never observed. Two runs
from IDLE with no timeout present that differ only in those latches stop alike, and otherwise end in states that differ at most
in those latches: the trace with every transaction and response, the peripheral, the collaborators, the client's commands and
buffers and all else are the same. So the reset values the model names (log entry 1) for these latches show nowhere. -/
def Obligations.UnspecifiedLatchesNeverObserved : Prop :=
  ∀ (s : State) (l : Latches) (k : Nat), s.phase = .idle → s.toValid = false →
    (∀ t, Host.Core.run Sys2Proof.core k s = .next t →
      ∃ l' : Latches, Host.Core.run Sys2Proof.core k (s.withLatches l) = .next (t.withLatches l')) ∧
    (∀ r, Host.Core.run Sys2Proof.core k s = .refused r → Host.Core.run Sys2Proof.core k (s.withLatches l) = .refused r)

/-- R69 with the columns of R31 and the constants of R105: a step performs at most one transaction, and every bus access is at
IO_BASE plus a constant of the address map, computed without overflow, with that address's width; a write carries only what the
rules give it; and the index of a client-buffer access is `E.IDX`. -/
def Obligations.OnlyListedTransactions : Prop :=
  ∀ s t : State, step s = .next t →
    (t.trace = s.trace ∨ ∃ x : Transaction, t.trace = x :: s.trace ∧ x.listed s.cfg) ∧
    (∀ f : Field, (s.cfg.addr f).toNat = s.cfg.ioBase.toNat + f.offset.toNat) ∧
    s.cfg.enbAddr.toNat = s.cfg.ioBase.toNat + 0x215004 ∧
    (∀ (i : Word) (b : Byte), t.trace = .srcByte i b :: s.trace ∨ t.trace = .dstWrite i b :: s.trace → i = s.idx)

/-- "at every label the next transaction is enabled" (R222): whenever a command is in progress its next line answers a next
state, and a step is refused only for one of the four named reasons. -/
def Obligations.EngineIsNeverStuck : Prop :=
  (∀ (s : State) (i : Instr), s.inProgress = some i → ∃ t, exec i s = .next t) ∧
  (∀ (s : State) (r : Refusal), step s = .refused r →
    (r = .illFormedLaunch ∧ s.cfg.legal = false) ∨
    (r = .ownershipViolated ∧ ∃ rest, s.sched = .env .intrude :: rest) ∨
    (∃ c rest, s.phase = .idle ∧ s.cmds = c :: rest ∧
      ((∃ why, r = .reservedWord why ∧ decode s.cfg.hostBuild c.word = .reserved why) ∨
        ∃ i, r = .lifecycle s.life ∧ decode s.cfg.hostBuild c.word = .instr i ∧ s.life ≠ lifeFor i)))

/-- R135: the baud-divisor constant is what the source's formula gives for 115200 baud, exactly for the clocks in the stated
range. -/
def Obligations.BaudDivisorFormula : Prop :=
  ∀ clock : Nat, Config.baudDivisor clock 115200 = Config.baudValue.toNat ↔ 249753600 ≤ clock ∧ clock ≤ 250675199
end

