-- ==== Sys2Proof/Laws/Memory.lean ====
section
/-! SUPPORT. The laws of the bus memory: a read after a write, and that every write keeps the canonical form. -/

namespace Sys2Proof.Machine.Memory

theorem read_write_same (m : Memory) (a : Nat) (b : Byte) (h : m.wf = true) : (m.write a b).read a = b := by
  suffices H : ∀ (m : Memory) (lo : Option Nat), wfAbove lo m = true → (m.write a b).read a = b from H m none h
  intro m
  induction m with
  | nil => intro lo _; by_cases hb : b = unlisted <;> simp [write, read, hb]
  | cons c rest ih =>
    obtain ⟨k, x⟩ := c
    intro lo hw
    have hrest : wfAbove (some k) rest = true := by
      simp only [wfAbove, Bool.and_eq_true] at hw; exact hw.2
    have absent : ∀ (l : Memory) (lo : Nat), wfAbove (some lo) l = true → ∀ d, d ≤ lo → l.read d = unlisted := by
      intro l
      induction l with
      | nil => intros; rfl
      | cons e l ihl =>
        obtain ⟨k', y⟩ := e
        intro lo hl d hd
        simp only [wfAbove, Bool.and_eq_true, decide_eq_true_eq] at hl
        have hne : k' ≠ d := by omega
        simp only [read, hne, if_false]
        exact ihl k' hl.2 d (by omega)
    by_cases hlt : a < k
    · by_cases hb : b = unlisted
      · have hne : k ≠ a := by omega
        simp [write, hlt, hb, read, hne, absent rest k hrest a (by omega)]
      · simp [write, hlt, hb, read]
    · by_cases heq : a = k
      · by_cases hb : b = unlisted
        · simp [write, heq, hb, absent rest k hrest k (Nat.le_refl k)]
        · simp [write, heq, hb, read]
      · have hne : k ≠ a := fun h => heq h.symm
        simp [write, hlt, heq, read, hne, ih (some k) hrest]

theorem read_write_other (m : Memory) (a d : Nat) (b : Byte) (hd : d ≠ a) : (m.write a b).read d = m.read d := by
  induction m with
  | nil => by_cases hb : b = unlisted <;> simp [write, read, hb, hd.symm]
  | cons c rest ih =>
    obtain ⟨k, x⟩ := c
    by_cases hlt : a < k
    · by_cases hb : b = unlisted <;> simp [write, hlt, hb, read, hd.symm]
    · by_cases heq : a = k
      · subst heq
        by_cases hb : b = unlisted <;> simp [write, hb, read, hd.symm]
      · simp [write, hlt, heq, read, ih]

theorem wfAbove_write (m : Memory) (lo : Option Nat) (a : Nat) (b : Byte) (h : wfAbove lo m = true)
    (ha : ∀ l, lo = some l → l < a) : wfAbove lo (m.write a b) = true := by
  induction m generalizing lo with
  | nil =>
    by_cases hb : b = unlisted
    · simp [write, hb, wfAbove]
    · cases lo <;> simp_all [write, wfAbove]
  | cons c rest ih =>
    obtain ⟨k, x⟩ := c
    have h' := h
    simp only [wfAbove, Bool.and_eq_true, decide_eq_true_eq] at h'
    obtain ⟨⟨hlo, hx⟩, hrest⟩ := h'
    by_cases hlt : a < k
    · by_cases hb : b = unlisted
      · simp [write, hlt, hb, h]
      · cases lo <;> simp_all [write, wfAbove]
    · by_cases heq : a = k
      · subst heq
        by_cases hb : b = unlisted
        · simp only [write, Nat.lt_irrefl, if_false, if_true, hb]
          cases hr : rest with
          | nil => simp [wfAbove]
          | cons e l =>
            obtain ⟨k', y⟩ := e
            rw [hr] at hrest
            simp only [wfAbove, Bool.and_eq_true, decide_eq_true_eq] at hrest ⊢
            refine ⟨⟨?_, hrest.1.2⟩, hrest.2⟩
            cases lo with
            | none => trivial
            | some l => have := ha l rfl; simp; omega
        · simp [write, hb, wfAbove, hlo, hrest]
      · have : wfAbove (some k) (write rest a b) = true := ih (some k) hrest (by simp; omega)
        simp [write, hlt, heq, wfAbove, hlo, hx, this]

theorem wf_nil : wf [] = true := rfl

theorem wf_write (m : Memory) (a : Nat) (b : Byte) (h : m.wf = true) : (m.write a b).wf = true :=
  wfAbove_write m none a b h (by simp)

theorem wf_write32 (m : Memory) (a : Nat) (w : Word) (h : m.wf = true) : (m.write32 a w).wf = true := by
  simp only [write32]
  exact wf_write _ _ _ (wf_write _ _ _ (wf_write _ _ _ (wf_write _ _ _ h)))

theorem read_write32_other (m : Memory) (a d : Nat) (w : Word) (h : d < a ∨ a + 3 < d) :
    (m.write32 a w).read d = m.read d := by
  simp only [write32]
  rw [read_write_other _ _ _ _ (by omega), read_write_other _ _ _ _ (by omega), read_write_other _ _ _ _ (by omega),
    read_write_other _ _ _ _ (by omega)]

theorem read32_write32_same (m : Memory) (a : Nat) (w : Word) (h : m.wf = true) : (m.write32 a w).read32 a = w := by
  have h0 := wf_write m a (w.extractLsb' 0 8) h
  have h1 := wf_write _ (a + 1) (w.extractLsb' 8 8) h0
  have h2 := wf_write _ (a + 2) (w.extractLsb' 16 8) h1
  simp only [read32, write32]
  rw [read_write_same _ _ _ h2, read_write_other _ _ (a + 2) _ (by omega), read_write_same _ _ _ h1,
    read_write_other _ _ (a + 1) _ (by omega), read_write_other _ _ (a + 1) _ (by omega), read_write_same _ _ _ h0,
    read_write_other _ _ a _ (by omega), read_write_other _ _ a _ (by omega), read_write_other _ _ a _ (by omega),
    read_write_same _ _ _ h]
  apply BitVec.eq_of_getLsbD_eq
  intro i hi
  simp only [BitVec.getLsbD_append, BitVec.getLsbD_extractLsb']
  rcases (by omega : i < 8 ∨ (8 ≤ i ∧ i < 16) ∨ (16 ≤ i ∧ i < 24) ∨ (24 ≤ i ∧ i < 32)) with h | h | h | h
  · simp [h]
  · simp [show ¬ i < 8 by omega, show i - 8 < 8 by omega, show 8 + (i - 8) = i by omega]
  · simp [show ¬ i < 8 by omega, show ¬ i - 8 < 8 by omega, show i - 8 - 8 < 8 by omega, show 16 + (i - 8 - 8) = i by omega]
  · simp [show ¬ i < 8 by omega, show ¬ i - 8 < 8 by omega, show ¬ i - 8 - 8 < 8 by omega, show i - 8 - 8 - 8 < 8 by omega,
      show 24 + (i - 8 - 8 - 8) = i by omega]

theorem read32_write_other (m : Memory) (a d : Nat) (b : Byte) (h : a < d ∨ d + 3 < a) :
    (m.write a b).read32 d = m.read32 d := by
  simp only [read32]
  rw [read_write_other _ _ _ _ (by omega), read_write_other _ _ _ _ (by omega), read_write_other _ _ _ _ (by omega),
    read_write_other _ _ _ _ (by omega)]

theorem read32_write32_other (m : Memory) (a d : Nat) (w : Word) (h : d + 3 < a ∨ a + 3 < d) :
    (m.write32 a w).read32 d = m.read32 d := by
  simp only [read32]
  rw [read_write32_other _ _ _ _ (by omega), read_write32_other _ _ _ _ (by omega), read_write32_other _ _ _ _ (by omega),
    read_write32_other _ _ _ _ (by omega)]

end Sys2Proof.Machine.Memory
end

