-- ==== Sys2Proof/Laws/State.lean ====
section
/-! SUPPORT. One lemma per field per update of the state, each true by rfl, so that no later proof unfolds a record update. -/

namespace Sys2Proof.Machine

/-! ## record -/

@[simp] theorem State.record_cfg (s : State) (t : Transaction) : (s.record t).cfg = s.cfg := rfl
@[simp] theorem State.record_life (s : State) (t : Transaction) : (s.record t).life = s.life := rfl
@[simp] theorem State.record_toValid (s : State) (t : Transaction) : (s.record t).toValid = s.toValid := rfl
@[simp] theorem State.record_toMs (s : State) (t : Transaction) : (s.record t).toMs = s.toMs := rfl
@[simp] theorem State.record_opc (s : State) (t : Transaction) : (s.record t).opc = s.opc := rfl
@[simp] theorem State.record_flags (s : State) (t : Transaction) : (s.record t).flags = s.flags := rfl
@[simp] theorem State.record_arg (s : State) (t : Transaction) : (s.record t).arg = s.arg := rfl
@[simp] theorem State.record_byte (s : State) (t : Transaction) : (s.record t).byte = s.byte := rfl
@[simp] theorem State.record_v (s : State) (t : Transaction) : (s.record t).v = s.v := rfl
@[simp] theorem State.record_t0 (s : State) (t : Transaction) : (s.record t).t0 = s.t0 := rfl
@[simp] theorem State.record_now (s : State) (t : Transaction) : (s.record t).now = s.now := rfl
@[simp] theorem State.record_idx (s : State) (t : Transaction) : (s.record t).idx = s.idx := rfl
@[simp] theorem State.record_phase (s : State) (t : Transaction) : (s.record t).phase = s.phase := rfl
@[simp] theorem State.record_cmds (s : State) (t : Transaction) : (s.record t).cmds = s.cmds := rfl
@[simp] theorem State.record_src (s : State) (t : Transaction) : (s.record t).src = s.src := rfl
@[simp] theorem State.record_dst (s : State) (t : Transaction) : (s.record t).dst = s.dst := rfl
@[simp] theorem State.record_mem (s : State) (t : Transaction) : (s.record t).mem = s.mem := rfl
@[simp] theorem State.record_txq (s : State) (t : Transaction) : (s.record t).txq = s.txq := rfl
@[simp] theorem State.record_rxq (s : State) (t : Transaction) : (s.record t).rxq = s.rxq := rfl
@[simp] theorem State.record_lineOut (s : State) (t : Transaction) : (s.record t).lineOut = s.lineOut := rfl
@[simp] theorem State.record_pin14 (s : State) (t : Transaction) : (s.record t).pin14 = s.pin14 := rfl
@[simp] theorem State.record_pin15 (s : State) (t : Transaction) : (s.record t).pin15 = s.pin15 := rfl
@[simp] theorem State.record_time (s : State) (t : Transaction) : (s.record t).time = s.time := rfl
@[simp] theorem State.record_sched (s : State) (t : Transaction) : (s.record t).sched = s.sched := rfl
@[simp] theorem State.record_undef (s : State) (t : Transaction) : (s.record t).undef = s.undef := rfl
@[simp] theorem State.record_freeCount (s : State) (t : Transaction) : (s.record t).freeCount = s.freeCount := rfl
@[simp] theorem State.record_trace (s : State) (t : Transaction) : (s.record t).trace = t :: s.trace := rfl
@[simp] theorem State.record_enb (s : State) (t : Transaction) : (s.record t).enb = s.enb := rfl
@[simp] theorem State.record_stored (s : State) (t : Transaction) (f : Field) : (s.record t).stored f = s.stored f := rfl
@[simp] theorem State.record_dataReady (s : State) (t : Transaction) : (s.record t).dataReady = s.dataReady := rfl
@[simp] theorem State.record_txSpace (s : State) (t : Transaction) : (s.record t).txSpace = s.txSpace := rfl
@[simp] theorem State.record_lsrWord (s : State) (t : Transaction) : (s.record t).lsrWord = s.lsrWord := rfl

/-! ## goto -/

@[simp] theorem State.goto_cfg (s : State) (p : Phase) : (s.goto p).cfg = s.cfg := rfl
@[simp] theorem State.goto_life (s : State) (p : Phase) : (s.goto p).life = s.life := rfl
@[simp] theorem State.goto_toValid (s : State) (p : Phase) : (s.goto p).toValid = s.toValid := rfl
@[simp] theorem State.goto_toMs (s : State) (p : Phase) : (s.goto p).toMs = s.toMs := rfl
@[simp] theorem State.goto_opc (s : State) (p : Phase) : (s.goto p).opc = s.opc := rfl
@[simp] theorem State.goto_flags (s : State) (p : Phase) : (s.goto p).flags = s.flags := rfl
@[simp] theorem State.goto_arg (s : State) (p : Phase) : (s.goto p).arg = s.arg := rfl
@[simp] theorem State.goto_byte (s : State) (p : Phase) : (s.goto p).byte = s.byte := rfl
@[simp] theorem State.goto_v (s : State) (p : Phase) : (s.goto p).v = s.v := rfl
@[simp] theorem State.goto_t0 (s : State) (p : Phase) : (s.goto p).t0 = s.t0 := rfl
@[simp] theorem State.goto_now (s : State) (p : Phase) : (s.goto p).now = s.now := rfl
@[simp] theorem State.goto_idx (s : State) (p : Phase) : (s.goto p).idx = s.idx := rfl
@[simp] theorem State.goto_phase (s : State) (p : Phase) : (s.goto p).phase = p := rfl
@[simp] theorem State.goto_cmds (s : State) (p : Phase) : (s.goto p).cmds = s.cmds := rfl
@[simp] theorem State.goto_src (s : State) (p : Phase) : (s.goto p).src = s.src := rfl
@[simp] theorem State.goto_dst (s : State) (p : Phase) : (s.goto p).dst = s.dst := rfl
@[simp] theorem State.goto_mem (s : State) (p : Phase) : (s.goto p).mem = s.mem := rfl
@[simp] theorem State.goto_txq (s : State) (p : Phase) : (s.goto p).txq = s.txq := rfl
@[simp] theorem State.goto_rxq (s : State) (p : Phase) : (s.goto p).rxq = s.rxq := rfl
@[simp] theorem State.goto_lineOut (s : State) (p : Phase) : (s.goto p).lineOut = s.lineOut := rfl
@[simp] theorem State.goto_pin14 (s : State) (p : Phase) : (s.goto p).pin14 = s.pin14 := rfl
@[simp] theorem State.goto_pin15 (s : State) (p : Phase) : (s.goto p).pin15 = s.pin15 := rfl
@[simp] theorem State.goto_time (s : State) (p : Phase) : (s.goto p).time = s.time := rfl
@[simp] theorem State.goto_sched (s : State) (p : Phase) : (s.goto p).sched = s.sched := rfl
@[simp] theorem State.goto_undef (s : State) (p : Phase) : (s.goto p).undef = s.undef := rfl
@[simp] theorem State.goto_freeCount (s : State) (p : Phase) : (s.goto p).freeCount = s.freeCount := rfl
@[simp] theorem State.goto_trace (s : State) (p : Phase) : (s.goto p).trace = s.trace := rfl
@[simp] theorem State.goto_enb (s : State) (p : Phase) : (s.goto p).enb = s.enb := rfl
@[simp] theorem State.goto_stored (s : State) (p : Phase) (f : Field) : (s.goto p).stored f = s.stored f := rfl
@[simp] theorem State.goto_dataReady (s : State) (p : Phase) : (s.goto p).dataReady = s.dataReady := rfl
@[simp] theorem State.goto_txSpace (s : State) (p : Phase) : (s.goto p).txSpace = s.txSpace := rfl
@[simp] theorem State.goto_lsrWord (s : State) (p : Phase) : (s.goto p).lsrWord = s.lsrWord := rfl

/-! ## setIdx -/

@[simp] theorem State.setIdx_cfg (s : State) (i : Word) : (s.setIdx i).cfg = s.cfg := rfl
@[simp] theorem State.setIdx_life (s : State) (i : Word) : (s.setIdx i).life = s.life := rfl
@[simp] theorem State.setIdx_toValid (s : State) (i : Word) : (s.setIdx i).toValid = s.toValid := rfl
@[simp] theorem State.setIdx_toMs (s : State) (i : Word) : (s.setIdx i).toMs = s.toMs := rfl
@[simp] theorem State.setIdx_opc (s : State) (i : Word) : (s.setIdx i).opc = s.opc := rfl
@[simp] theorem State.setIdx_flags (s : State) (i : Word) : (s.setIdx i).flags = s.flags := rfl
@[simp] theorem State.setIdx_arg (s : State) (i : Word) : (s.setIdx i).arg = s.arg := rfl
@[simp] theorem State.setIdx_byte (s : State) (i : Word) : (s.setIdx i).byte = s.byte := rfl
@[simp] theorem State.setIdx_v (s : State) (i : Word) : (s.setIdx i).v = s.v := rfl
@[simp] theorem State.setIdx_t0 (s : State) (i : Word) : (s.setIdx i).t0 = s.t0 := rfl
@[simp] theorem State.setIdx_now (s : State) (i : Word) : (s.setIdx i).now = s.now := rfl
@[simp] theorem State.setIdx_idx (s : State) (i : Word) : (s.setIdx i).idx = i := rfl
@[simp] theorem State.setIdx_phase (s : State) (i : Word) : (s.setIdx i).phase = s.phase := rfl
@[simp] theorem State.setIdx_cmds (s : State) (i : Word) : (s.setIdx i).cmds = s.cmds := rfl
@[simp] theorem State.setIdx_src (s : State) (i : Word) : (s.setIdx i).src = s.src := rfl
@[simp] theorem State.setIdx_dst (s : State) (i : Word) : (s.setIdx i).dst = s.dst := rfl
@[simp] theorem State.setIdx_mem (s : State) (i : Word) : (s.setIdx i).mem = s.mem := rfl
@[simp] theorem State.setIdx_txq (s : State) (i : Word) : (s.setIdx i).txq = s.txq := rfl
@[simp] theorem State.setIdx_rxq (s : State) (i : Word) : (s.setIdx i).rxq = s.rxq := rfl
@[simp] theorem State.setIdx_lineOut (s : State) (i : Word) : (s.setIdx i).lineOut = s.lineOut := rfl
@[simp] theorem State.setIdx_pin14 (s : State) (i : Word) : (s.setIdx i).pin14 = s.pin14 := rfl
@[simp] theorem State.setIdx_pin15 (s : State) (i : Word) : (s.setIdx i).pin15 = s.pin15 := rfl
@[simp] theorem State.setIdx_time (s : State) (i : Word) : (s.setIdx i).time = s.time := rfl
@[simp] theorem State.setIdx_sched (s : State) (i : Word) : (s.setIdx i).sched = s.sched := rfl
@[simp] theorem State.setIdx_undef (s : State) (i : Word) : (s.setIdx i).undef = s.undef := rfl
@[simp] theorem State.setIdx_freeCount (s : State) (i : Word) : (s.setIdx i).freeCount = s.freeCount := rfl
@[simp] theorem State.setIdx_trace (s : State) (i : Word) : (s.setIdx i).trace = s.trace := rfl
@[simp] theorem State.setIdx_enb (s : State) (i : Word) : (s.setIdx i).enb = s.enb := rfl
@[simp] theorem State.setIdx_stored (s : State) (i : Word) (f : Field) : (s.setIdx i).stored f = s.stored f := rfl
@[simp] theorem State.setIdx_dataReady (s : State) (i : Word) : (s.setIdx i).dataReady = s.dataReady := rfl
@[simp] theorem State.setIdx_txSpace (s : State) (i : Word) : (s.setIdx i).txSpace = s.txSpace := rfl
@[simp] theorem State.setIdx_lsrWord (s : State) (i : Word) : (s.setIdx i).lsrWord = s.lsrWord := rfl

/-! ## readLsr -/

@[simp] theorem State.readLsr_cfg (s : State) : (s.readLsr).cfg = s.cfg := rfl
@[simp] theorem State.readLsr_life (s : State) : (s.readLsr).life = s.life := rfl
@[simp] theorem State.readLsr_toValid (s : State) : (s.readLsr).toValid = s.toValid := rfl
@[simp] theorem State.readLsr_toMs (s : State) : (s.readLsr).toMs = s.toMs := rfl
@[simp] theorem State.readLsr_opc (s : State) : (s.readLsr).opc = s.opc := rfl
@[simp] theorem State.readLsr_flags (s : State) : (s.readLsr).flags = s.flags := rfl
@[simp] theorem State.readLsr_arg (s : State) : (s.readLsr).arg = s.arg := rfl
@[simp] theorem State.readLsr_byte (s : State) : (s.readLsr).byte = s.byte := rfl
@[simp] theorem State.readLsr_v (s : State) : (s.readLsr).v = s.lsrWord := rfl
@[simp] theorem State.readLsr_t0 (s : State) : (s.readLsr).t0 = s.t0 := rfl
@[simp] theorem State.readLsr_now (s : State) : (s.readLsr).now = s.now := rfl
@[simp] theorem State.readLsr_idx (s : State) : (s.readLsr).idx = s.idx := rfl
@[simp] theorem State.readLsr_phase (s : State) : (s.readLsr).phase = s.phase := rfl
@[simp] theorem State.readLsr_cmds (s : State) : (s.readLsr).cmds = s.cmds := rfl
@[simp] theorem State.readLsr_src (s : State) : (s.readLsr).src = s.src := rfl
@[simp] theorem State.readLsr_dst (s : State) : (s.readLsr).dst = s.dst := rfl
@[simp] theorem State.readLsr_mem (s : State) : (s.readLsr).mem = s.mem := rfl
@[simp] theorem State.readLsr_txq (s : State) : (s.readLsr).txq = s.txq := rfl
@[simp] theorem State.readLsr_rxq (s : State) : (s.readLsr).rxq = s.rxq := rfl
@[simp] theorem State.readLsr_lineOut (s : State) : (s.readLsr).lineOut = s.lineOut := rfl
@[simp] theorem State.readLsr_pin14 (s : State) : (s.readLsr).pin14 = s.pin14 := rfl
@[simp] theorem State.readLsr_pin15 (s : State) : (s.readLsr).pin15 = s.pin15 := rfl
@[simp] theorem State.readLsr_time (s : State) : (s.readLsr).time = s.time := rfl
@[simp] theorem State.readLsr_sched (s : State) : (s.readLsr).sched = s.sched := rfl
@[simp] theorem State.readLsr_undef (s : State) : (s.readLsr).undef = s.undef := rfl
@[simp] theorem State.readLsr_freeCount (s : State) : (s.readLsr).freeCount = s.freeCount := rfl
@[simp] theorem State.readLsr_trace (s : State) : (s.readLsr).trace = .memRead (s.cfg.addr .lsr) 4 s.lsrWord :: s.trace := rfl
@[simp] theorem State.readLsr_enb (s : State) : (s.readLsr).enb = s.enb := rfl
@[simp] theorem State.readLsr_stored (s : State) (f : Field) : (s.readLsr).stored f = s.stored f := rfl
@[simp] theorem State.readLsr_dataReady (s : State) : (s.readLsr).dataReady = s.dataReady := rfl
@[simp] theorem State.readLsr_txSpace (s : State) : (s.readLsr).txSpace = s.txSpace := rfl
@[simp] theorem State.readLsr_lsrWord (s : State) : (s.readLsr).lsrWord = s.lsrWord := rfl

/-! ## readIo -/

@[simp] theorem State.readIo_cfg (s : State) : (s.readIo).cfg = s.cfg := rfl
@[simp] theorem State.readIo_life (s : State) : (s.readIo).life = s.life := rfl
@[simp] theorem State.readIo_toValid (s : State) : (s.readIo).toValid = s.toValid := rfl
@[simp] theorem State.readIo_toMs (s : State) : (s.readIo).toMs = s.toMs := rfl
@[simp] theorem State.readIo_opc (s : State) : (s.readIo).opc = s.opc := rfl
@[simp] theorem State.readIo_flags (s : State) : (s.readIo).flags = s.flags := rfl
@[simp] theorem State.readIo_arg (s : State) : (s.readIo).arg = s.arg := rfl
@[simp] theorem State.readIo_byte (s : State) : (s.readIo).byte = s.ioByte := rfl
@[simp] theorem State.readIo_v (s : State) : (s.readIo).v = s.ioWord := rfl
@[simp] theorem State.readIo_t0 (s : State) : (s.readIo).t0 = s.t0 := rfl
@[simp] theorem State.readIo_now (s : State) : (s.readIo).now = s.now := rfl
@[simp] theorem State.readIo_idx (s : State) : (s.readIo).idx = s.idx := rfl
@[simp] theorem State.readIo_phase (s : State) : (s.readIo).phase = s.phase := rfl
@[simp] theorem State.readIo_cmds (s : State) : (s.readIo).cmds = s.cmds := rfl
@[simp] theorem State.readIo_src (s : State) : (s.readIo).src = s.src := rfl
@[simp] theorem State.readIo_dst (s : State) : (s.readIo).dst = s.dst := rfl
@[simp] theorem State.readIo_mem (s : State) : (s.readIo).mem = s.mem := rfl
@[simp] theorem State.readIo_txq (s : State) : (s.readIo).txq = s.txq := rfl
@[simp] theorem State.readIo_rxq (s : State) : (s.readIo).rxq = s.rxqAfterRead := rfl
@[simp] theorem State.readIo_lineOut (s : State) : (s.readIo).lineOut = s.lineOut := rfl
@[simp] theorem State.readIo_pin14 (s : State) : (s.readIo).pin14 = s.pin14 := rfl
@[simp] theorem State.readIo_pin15 (s : State) : (s.readIo).pin15 = s.pin15 := rfl
@[simp] theorem State.readIo_time (s : State) : (s.readIo).time = s.time := rfl
@[simp] theorem State.readIo_sched (s : State) : (s.readIo).sched = s.sched := rfl
@[simp] theorem State.readIo_undef (s : State) : (s.readIo).undef = s.undef := rfl
@[simp] theorem State.readIo_freeCount (s : State) : (s.readIo).freeCount = s.freeCount := rfl
@[simp] theorem State.readIo_trace (s : State) : (s.readIo).trace = .memRead (s.cfg.addr .io) 4 s.ioWord :: s.trace := rfl
@[simp] theorem State.readIo_enb (s : State) : (s.readIo).enb = s.enb := rfl
@[simp] theorem State.readIo_stored (s : State) (f : Field) : (s.readIo).stored f = s.stored f := rfl
@[simp] theorem State.readIo_txSpace (s : State) : (s.readIo).txSpace = s.txSpace := rfl

/-! ## writeIo -/

@[simp] theorem State.writeIo_cfg (s : State) (b : Byte) : (s.writeIo b).cfg = s.cfg := rfl
@[simp] theorem State.writeIo_life (s : State) (b : Byte) : (s.writeIo b).life = s.life := rfl
@[simp] theorem State.writeIo_toValid (s : State) (b : Byte) : (s.writeIo b).toValid = s.toValid := rfl
@[simp] theorem State.writeIo_toMs (s : State) (b : Byte) : (s.writeIo b).toMs = s.toMs := rfl
@[simp] theorem State.writeIo_opc (s : State) (b : Byte) : (s.writeIo b).opc = s.opc := rfl
@[simp] theorem State.writeIo_flags (s : State) (b : Byte) : (s.writeIo b).flags = s.flags := rfl
@[simp] theorem State.writeIo_arg (s : State) (b : Byte) : (s.writeIo b).arg = s.arg := rfl
@[simp] theorem State.writeIo_byte (s : State) (b : Byte) : (s.writeIo b).byte = s.byte := rfl
@[simp] theorem State.writeIo_v (s : State) (b : Byte) : (s.writeIo b).v = s.v := rfl
@[simp] theorem State.writeIo_t0 (s : State) (b : Byte) : (s.writeIo b).t0 = s.t0 := rfl
@[simp] theorem State.writeIo_now (s : State) (b : Byte) : (s.writeIo b).now = s.now := rfl
@[simp] theorem State.writeIo_idx (s : State) (b : Byte) : (s.writeIo b).idx = s.idx := rfl
@[simp] theorem State.writeIo_phase (s : State) (b : Byte) : (s.writeIo b).phase = s.phase := rfl
@[simp] theorem State.writeIo_cmds (s : State) (b : Byte) : (s.writeIo b).cmds = s.cmds := rfl
@[simp] theorem State.writeIo_src (s : State) (b : Byte) : (s.writeIo b).src = s.src := rfl
@[simp] theorem State.writeIo_dst (s : State) (b : Byte) : (s.writeIo b).dst = s.dst := rfl
@[simp] theorem State.writeIo_mem (s : State) (b : Byte) : (s.writeIo b).mem = s.mem := rfl
@[simp] theorem State.writeIo_txq (s : State) (b : Byte) : (s.writeIo b).txq = s.txqAfterWrite (widen b) := rfl
@[simp] theorem State.writeIo_rxq (s : State) (b : Byte) : (s.writeIo b).rxq = s.rxq := rfl
@[simp] theorem State.writeIo_lineOut (s : State) (b : Byte) : (s.writeIo b).lineOut = s.lineOut := rfl
@[simp] theorem State.writeIo_pin14 (s : State) (b : Byte) : (s.writeIo b).pin14 = s.pin14 := rfl
@[simp] theorem State.writeIo_pin15 (s : State) (b : Byte) : (s.writeIo b).pin15 = s.pin15 := rfl
@[simp] theorem State.writeIo_time (s : State) (b : Byte) : (s.writeIo b).time = s.time := rfl
@[simp] theorem State.writeIo_sched (s : State) (b : Byte) : (s.writeIo b).sched = s.sched := rfl
@[simp] theorem State.writeIo_undef (s : State) (b : Byte) : (s.writeIo b).undef = s.undef := rfl
@[simp] theorem State.writeIo_freeCount (s : State) (b : Byte) : (s.writeIo b).freeCount = s.freeCount := rfl
@[simp] theorem State.writeIo_trace (s : State) (b : Byte) : (s.writeIo b).trace = .memWrite (s.cfg.addr .io) 4 (widen b) :: s.trace := rfl
@[simp] theorem State.writeIo_enb (s : State) (b : Byte) : (s.writeIo b).enb = s.enb := rfl
@[simp] theorem State.writeIo_stored (s : State) (b : Byte) (f : Field) : (s.writeIo b).stored f = s.stored f := rfl
@[simp] theorem State.writeIo_dataReady (s : State) (b : Byte) : (s.writeIo b).dataReady = s.dataReady := rfl

/-! ## readEnb -/

@[simp] theorem State.readEnb_cfg (s : State) : (s.readEnb).cfg = s.cfg := rfl
@[simp] theorem State.readEnb_life (s : State) : (s.readEnb).life = s.life := rfl
@[simp] theorem State.readEnb_toValid (s : State) : (s.readEnb).toValid = s.toValid := rfl
@[simp] theorem State.readEnb_toMs (s : State) : (s.readEnb).toMs = s.toMs := rfl
@[simp] theorem State.readEnb_opc (s : State) : (s.readEnb).opc = s.opc := rfl
@[simp] theorem State.readEnb_flags (s : State) : (s.readEnb).flags = s.flags := rfl
@[simp] theorem State.readEnb_arg (s : State) : (s.readEnb).arg = s.arg := rfl
@[simp] theorem State.readEnb_byte (s : State) : (s.readEnb).byte = s.byte := rfl
@[simp] theorem State.readEnb_v (s : State) : (s.readEnb).v = widen s.enb := rfl
@[simp] theorem State.readEnb_t0 (s : State) : (s.readEnb).t0 = s.t0 := rfl
@[simp] theorem State.readEnb_now (s : State) : (s.readEnb).now = s.now := rfl
@[simp] theorem State.readEnb_idx (s : State) : (s.readEnb).idx = s.idx := rfl
@[simp] theorem State.readEnb_phase (s : State) : (s.readEnb).phase = s.phase := rfl
@[simp] theorem State.readEnb_cmds (s : State) : (s.readEnb).cmds = s.cmds := rfl
@[simp] theorem State.readEnb_src (s : State) : (s.readEnb).src = s.src := rfl
@[simp] theorem State.readEnb_dst (s : State) : (s.readEnb).dst = s.dst := rfl
@[simp] theorem State.readEnb_mem (s : State) : (s.readEnb).mem = s.mem := rfl
@[simp] theorem State.readEnb_txq (s : State) : (s.readEnb).txq = s.txq := rfl
@[simp] theorem State.readEnb_rxq (s : State) : (s.readEnb).rxq = s.rxq := rfl
@[simp] theorem State.readEnb_lineOut (s : State) : (s.readEnb).lineOut = s.lineOut := rfl
@[simp] theorem State.readEnb_pin14 (s : State) : (s.readEnb).pin14 = s.pin14 := rfl
@[simp] theorem State.readEnb_pin15 (s : State) : (s.readEnb).pin15 = s.pin15 := rfl
@[simp] theorem State.readEnb_time (s : State) : (s.readEnb).time = s.time := rfl
@[simp] theorem State.readEnb_sched (s : State) : (s.readEnb).sched = s.sched := rfl
@[simp] theorem State.readEnb_undef (s : State) : (s.readEnb).undef = s.undef := rfl
@[simp] theorem State.readEnb_freeCount (s : State) : (s.readEnb).freeCount = s.freeCount := rfl
@[simp] theorem State.readEnb_trace (s : State) : (s.readEnb).trace = .memRead s.cfg.enbAddr 1 (widen s.enb) :: s.trace := rfl
@[simp] theorem State.readEnb_enb (s : State) : (s.readEnb).enb = s.enb := rfl
@[simp] theorem State.readEnb_stored (s : State) (f : Field) : (s.readEnb).stored f = s.stored f := rfl
@[simp] theorem State.readEnb_dataReady (s : State) : (s.readEnb).dataReady = s.dataReady := rfl
@[simp] theorem State.readEnb_txSpace (s : State) : (s.readEnb).txSpace = s.txSpace := rfl
@[simp] theorem State.readEnb_lsrWord (s : State) : (s.readEnb).lsrWord = s.lsrWord := rfl

/-! ## writeEnb -/

@[simp] theorem State.writeEnb_cfg (s : State) (b : Byte) : (s.writeEnb b).cfg = s.cfg := rfl
@[simp] theorem State.writeEnb_life (s : State) (b : Byte) : (s.writeEnb b).life = s.life := rfl
@[simp] theorem State.writeEnb_toValid (s : State) (b : Byte) : (s.writeEnb b).toValid = s.toValid := rfl
@[simp] theorem State.writeEnb_toMs (s : State) (b : Byte) : (s.writeEnb b).toMs = s.toMs := rfl
@[simp] theorem State.writeEnb_opc (s : State) (b : Byte) : (s.writeEnb b).opc = s.opc := rfl
@[simp] theorem State.writeEnb_flags (s : State) (b : Byte) : (s.writeEnb b).flags = s.flags := rfl
@[simp] theorem State.writeEnb_arg (s : State) (b : Byte) : (s.writeEnb b).arg = s.arg := rfl
@[simp] theorem State.writeEnb_byte (s : State) (b : Byte) : (s.writeEnb b).byte = s.byte := rfl
@[simp] theorem State.writeEnb_v (s : State) (b : Byte) : (s.writeEnb b).v = s.v := rfl
@[simp] theorem State.writeEnb_t0 (s : State) (b : Byte) : (s.writeEnb b).t0 = s.t0 := rfl
@[simp] theorem State.writeEnb_now (s : State) (b : Byte) : (s.writeEnb b).now = s.now := rfl
@[simp] theorem State.writeEnb_idx (s : State) (b : Byte) : (s.writeEnb b).idx = s.idx := rfl
@[simp] theorem State.writeEnb_phase (s : State) (b : Byte) : (s.writeEnb b).phase = s.phase := rfl
@[simp] theorem State.writeEnb_cmds (s : State) (b : Byte) : (s.writeEnb b).cmds = s.cmds := rfl
@[simp] theorem State.writeEnb_src (s : State) (b : Byte) : (s.writeEnb b).src = s.src := rfl
@[simp] theorem State.writeEnb_dst (s : State) (b : Byte) : (s.writeEnb b).dst = s.dst := rfl
@[simp] theorem State.writeEnb_mem (s : State) (b : Byte) : (s.writeEnb b).mem = s.mem.write s.cfg.enbAddr.toNat b := rfl
@[simp] theorem State.writeEnb_txq (s : State) (b : Byte) : (s.writeEnb b).txq = s.txq := rfl
@[simp] theorem State.writeEnb_rxq (s : State) (b : Byte) : (s.writeEnb b).rxq = s.rxq := rfl
@[simp] theorem State.writeEnb_lineOut (s : State) (b : Byte) : (s.writeEnb b).lineOut = s.lineOut := rfl
@[simp] theorem State.writeEnb_pin14 (s : State) (b : Byte) : (s.writeEnb b).pin14 = s.pin14 := rfl
@[simp] theorem State.writeEnb_pin15 (s : State) (b : Byte) : (s.writeEnb b).pin15 = s.pin15 := rfl
@[simp] theorem State.writeEnb_time (s : State) (b : Byte) : (s.writeEnb b).time = s.time := rfl
@[simp] theorem State.writeEnb_sched (s : State) (b : Byte) : (s.writeEnb b).sched = s.sched := rfl
@[simp] theorem State.writeEnb_undef (s : State) (b : Byte) : (s.writeEnb b).undef = s.undef := rfl
@[simp] theorem State.writeEnb_freeCount (s : State) (b : Byte) : (s.writeEnb b).freeCount = s.freeCount := rfl
@[simp] theorem State.writeEnb_trace (s : State) (b : Byte) : (s.writeEnb b).trace = .memWrite s.cfg.enbAddr 1 (widen b) :: s.trace := rfl
@[simp] theorem State.writeEnb_dataReady (s : State) (b : Byte) : (s.writeEnb b).dataReady = s.dataReady := rfl
@[simp] theorem State.writeEnb_txSpace (s : State) (b : Byte) : (s.writeEnb b).txSpace = s.txSpace := rfl
@[simp] theorem State.writeEnb_lsrWord (s : State) (b : Byte) : (s.writeEnb b).lsrWord = s.lsrWord := rfl

/-! ## writeConfig -/

@[simp] theorem State.writeConfig_cfg (s : State) (f : ConfigField) (w : Word) : (s.writeConfig f w).cfg = s.cfg := rfl
@[simp] theorem State.writeConfig_life (s : State) (f : ConfigField) (w : Word) : (s.writeConfig f w).life = s.life := rfl
@[simp] theorem State.writeConfig_toValid (s : State) (f : ConfigField) (w : Word) : (s.writeConfig f w).toValid = s.toValid := rfl
@[simp] theorem State.writeConfig_toMs (s : State) (f : ConfigField) (w : Word) : (s.writeConfig f w).toMs = s.toMs := rfl
@[simp] theorem State.writeConfig_opc (s : State) (f : ConfigField) (w : Word) : (s.writeConfig f w).opc = s.opc := rfl
@[simp] theorem State.writeConfig_flags (s : State) (f : ConfigField) (w : Word) : (s.writeConfig f w).flags = s.flags := rfl
@[simp] theorem State.writeConfig_arg (s : State) (f : ConfigField) (w : Word) : (s.writeConfig f w).arg = s.arg := rfl
@[simp] theorem State.writeConfig_byte (s : State) (f : ConfigField) (w : Word) : (s.writeConfig f w).byte = s.byte := rfl
@[simp] theorem State.writeConfig_v (s : State) (f : ConfigField) (w : Word) : (s.writeConfig f w).v = s.v := rfl
@[simp] theorem State.writeConfig_t0 (s : State) (f : ConfigField) (w : Word) : (s.writeConfig f w).t0 = s.t0 := rfl
@[simp] theorem State.writeConfig_now (s : State) (f : ConfigField) (w : Word) : (s.writeConfig f w).now = s.now := rfl
@[simp] theorem State.writeConfig_idx (s : State) (f : ConfigField) (w : Word) : (s.writeConfig f w).idx = s.idx := rfl
@[simp] theorem State.writeConfig_phase (s : State) (f : ConfigField) (w : Word) : (s.writeConfig f w).phase = s.phase := rfl
@[simp] theorem State.writeConfig_cmds (s : State) (f : ConfigField) (w : Word) : (s.writeConfig f w).cmds = s.cmds := rfl
@[simp] theorem State.writeConfig_src (s : State) (f : ConfigField) (w : Word) : (s.writeConfig f w).src = s.src := rfl
@[simp] theorem State.writeConfig_dst (s : State) (f : ConfigField) (w : Word) : (s.writeConfig f w).dst = s.dst := rfl
@[simp] theorem State.writeConfig_mem (s : State) (f : ConfigField) (w : Word) : (s.writeConfig f w).mem = s.mem.write32 (s.cfg.addr f.toField).toNat w := rfl
@[simp] theorem State.writeConfig_txq (s : State) (f : ConfigField) (w : Word) : (s.writeConfig f w).txq = s.txq := rfl
@[simp] theorem State.writeConfig_rxq (s : State) (f : ConfigField) (w : Word) : (s.writeConfig f w).rxq = s.rxq := rfl
@[simp] theorem State.writeConfig_lineOut (s : State) (f : ConfigField) (w : Word) : (s.writeConfig f w).lineOut = s.lineOut := rfl
@[simp] theorem State.writeConfig_pin14 (s : State) (f : ConfigField) (w : Word) : (s.writeConfig f w).pin14 = s.pin14 := rfl
@[simp] theorem State.writeConfig_pin15 (s : State) (f : ConfigField) (w : Word) : (s.writeConfig f w).pin15 = s.pin15 := rfl
@[simp] theorem State.writeConfig_time (s : State) (f : ConfigField) (w : Word) : (s.writeConfig f w).time = s.time := rfl
@[simp] theorem State.writeConfig_sched (s : State) (f : ConfigField) (w : Word) : (s.writeConfig f w).sched = s.sched := rfl
@[simp] theorem State.writeConfig_undef (s : State) (f : ConfigField) (w : Word) : (s.writeConfig f w).undef = s.undef := rfl
@[simp] theorem State.writeConfig_freeCount (s : State) (f : ConfigField) (w : Word) : (s.writeConfig f w).freeCount = s.freeCount := rfl
@[simp] theorem State.writeConfig_trace (s : State) (f : ConfigField) (w : Word) : (s.writeConfig f w).trace = .memWrite (s.cfg.addr f.toField) 4 w :: s.trace := rfl
@[simp] theorem State.writeConfig_dataReady (s : State) (f : ConfigField) (w : Word) : (s.writeConfig f w).dataReady = s.dataReady := rfl
@[simp] theorem State.writeConfig_txSpace (s : State) (f : ConfigField) (w : Word) : (s.writeConfig f w).txSpace = s.txSpace := rfl
@[simp] theorem State.writeConfig_lsrWord (s : State) (f : ConfigField) (w : Word) : (s.writeConfig f w).lsrWord = s.lsrWord := rfl

/-! ## gpioSetAlt -/

@[simp] theorem State.gpioSetAlt_cfg (s : State) (pin fn : Nat) : (s.gpioSetAlt pin fn).cfg = s.cfg := rfl
@[simp] theorem State.gpioSetAlt_life (s : State) (pin fn : Nat) : (s.gpioSetAlt pin fn).life = s.life := rfl
@[simp] theorem State.gpioSetAlt_toValid (s : State) (pin fn : Nat) : (s.gpioSetAlt pin fn).toValid = s.toValid := rfl
@[simp] theorem State.gpioSetAlt_toMs (s : State) (pin fn : Nat) : (s.gpioSetAlt pin fn).toMs = s.toMs := rfl
@[simp] theorem State.gpioSetAlt_opc (s : State) (pin fn : Nat) : (s.gpioSetAlt pin fn).opc = s.opc := rfl
@[simp] theorem State.gpioSetAlt_flags (s : State) (pin fn : Nat) : (s.gpioSetAlt pin fn).flags = s.flags := rfl
@[simp] theorem State.gpioSetAlt_arg (s : State) (pin fn : Nat) : (s.gpioSetAlt pin fn).arg = s.arg := rfl
@[simp] theorem State.gpioSetAlt_byte (s : State) (pin fn : Nat) : (s.gpioSetAlt pin fn).byte = s.byte := rfl
@[simp] theorem State.gpioSetAlt_v (s : State) (pin fn : Nat) : (s.gpioSetAlt pin fn).v = s.v := rfl
@[simp] theorem State.gpioSetAlt_t0 (s : State) (pin fn : Nat) : (s.gpioSetAlt pin fn).t0 = s.t0 := rfl
@[simp] theorem State.gpioSetAlt_now (s : State) (pin fn : Nat) : (s.gpioSetAlt pin fn).now = s.now := rfl
@[simp] theorem State.gpioSetAlt_idx (s : State) (pin fn : Nat) : (s.gpioSetAlt pin fn).idx = s.idx := rfl
@[simp] theorem State.gpioSetAlt_phase (s : State) (pin fn : Nat) : (s.gpioSetAlt pin fn).phase = s.phase := rfl
@[simp] theorem State.gpioSetAlt_cmds (s : State) (pin fn : Nat) : (s.gpioSetAlt pin fn).cmds = s.cmds := rfl
@[simp] theorem State.gpioSetAlt_src (s : State) (pin fn : Nat) : (s.gpioSetAlt pin fn).src = s.src := rfl
@[simp] theorem State.gpioSetAlt_dst (s : State) (pin fn : Nat) : (s.gpioSetAlt pin fn).dst = s.dst := rfl
@[simp] theorem State.gpioSetAlt_mem (s : State) (pin fn : Nat) : (s.gpioSetAlt pin fn).mem = s.mem := rfl
@[simp] theorem State.gpioSetAlt_txq (s : State) (pin fn : Nat) : (s.gpioSetAlt pin fn).txq = s.txq := rfl
@[simp] theorem State.gpioSetAlt_rxq (s : State) (pin fn : Nat) : (s.gpioSetAlt pin fn).rxq = s.rxq := rfl
@[simp] theorem State.gpioSetAlt_lineOut (s : State) (pin fn : Nat) : (s.gpioSetAlt pin fn).lineOut = s.lineOut := rfl
@[simp] theorem State.gpioSetAlt_pin14 (s : State) (pin fn : Nat) : (s.gpioSetAlt pin fn).pin14 = if pin = 14 then .alt fn else s.pin14 := rfl
@[simp] theorem State.gpioSetAlt_pin15 (s : State) (pin fn : Nat) : (s.gpioSetAlt pin fn).pin15 = if pin = 15 then .alt fn else s.pin15 := rfl
@[simp] theorem State.gpioSetAlt_time (s : State) (pin fn : Nat) : (s.gpioSetAlt pin fn).time = s.time := rfl
@[simp] theorem State.gpioSetAlt_sched (s : State) (pin fn : Nat) : (s.gpioSetAlt pin fn).sched = s.sched := rfl
@[simp] theorem State.gpioSetAlt_undef (s : State) (pin fn : Nat) : (s.gpioSetAlt pin fn).undef = s.undef := rfl
@[simp] theorem State.gpioSetAlt_freeCount (s : State) (pin fn : Nat) : (s.gpioSetAlt pin fn).freeCount = s.freeCount := rfl
@[simp] theorem State.gpioSetAlt_trace (s : State) (pin fn : Nat) : (s.gpioSetAlt pin fn).trace = .gpioSetAlt pin fn :: s.trace := rfl
@[simp] theorem State.gpioSetAlt_enb (s : State) (pin fn : Nat) : (s.gpioSetAlt pin fn).enb = s.enb := rfl
@[simp] theorem State.gpioSetAlt_stored (s : State) (pin fn : Nat) (f : Field) : (s.gpioSetAlt pin fn).stored f = s.stored f := rfl
@[simp] theorem State.gpioSetAlt_dataReady (s : State) (pin fn : Nat) : (s.gpioSetAlt pin fn).dataReady = s.dataReady := rfl
@[simp] theorem State.gpioSetAlt_txSpace (s : State) (pin fn : Nat) : (s.gpioSetAlt pin fn).txSpace = s.txSpace := rfl
@[simp] theorem State.gpioSetAlt_lsrWord (s : State) (pin fn : Nat) : (s.gpioSetAlt pin fn).lsrWord = s.lsrWord := rfl

/-! ## sampleStart -/

@[simp] theorem State.sampleStart_cfg (s : State) : (s.sampleStart).cfg = s.cfg := rfl
@[simp] theorem State.sampleStart_life (s : State) : (s.sampleStart).life = s.life := rfl
@[simp] theorem State.sampleStart_toValid (s : State) : (s.sampleStart).toValid = s.toValid := rfl
@[simp] theorem State.sampleStart_toMs (s : State) : (s.sampleStart).toMs = s.toMs := rfl
@[simp] theorem State.sampleStart_opc (s : State) : (s.sampleStart).opc = s.opc := rfl
@[simp] theorem State.sampleStart_flags (s : State) : (s.sampleStart).flags = s.flags := rfl
@[simp] theorem State.sampleStart_arg (s : State) : (s.sampleStart).arg = s.arg := rfl
@[simp] theorem State.sampleStart_byte (s : State) : (s.sampleStart).byte = s.byte := rfl
@[simp] theorem State.sampleStart_v (s : State) : (s.sampleStart).v = s.v := rfl
@[simp] theorem State.sampleStart_t0 (s : State) : (s.sampleStart).t0 = s.time := rfl
@[simp] theorem State.sampleStart_now (s : State) : (s.sampleStart).now = s.now := rfl
@[simp] theorem State.sampleStart_idx (s : State) : (s.sampleStart).idx = s.idx := rfl
@[simp] theorem State.sampleStart_phase (s : State) : (s.sampleStart).phase = s.phase := rfl
@[simp] theorem State.sampleStart_cmds (s : State) : (s.sampleStart).cmds = s.cmds := rfl
@[simp] theorem State.sampleStart_src (s : State) : (s.sampleStart).src = s.src := rfl
@[simp] theorem State.sampleStart_dst (s : State) : (s.sampleStart).dst = s.dst := rfl
@[simp] theorem State.sampleStart_mem (s : State) : (s.sampleStart).mem = s.mem := rfl
@[simp] theorem State.sampleStart_txq (s : State) : (s.sampleStart).txq = s.txq := rfl
@[simp] theorem State.sampleStart_rxq (s : State) : (s.sampleStart).rxq = s.rxq := rfl
@[simp] theorem State.sampleStart_lineOut (s : State) : (s.sampleStart).lineOut = s.lineOut := rfl
@[simp] theorem State.sampleStart_pin14 (s : State) : (s.sampleStart).pin14 = s.pin14 := rfl
@[simp] theorem State.sampleStart_pin15 (s : State) : (s.sampleStart).pin15 = s.pin15 := rfl
@[simp] theorem State.sampleStart_time (s : State) : (s.sampleStart).time = s.time := rfl
@[simp] theorem State.sampleStart_sched (s : State) : (s.sampleStart).sched = s.sched := rfl
@[simp] theorem State.sampleStart_undef (s : State) : (s.sampleStart).undef = s.undef := rfl
@[simp] theorem State.sampleStart_freeCount (s : State) : (s.sampleStart).freeCount = s.freeCount := rfl
@[simp] theorem State.sampleStart_trace (s : State) : (s.sampleStart).trace = .timeNow s.time :: s.trace := rfl
@[simp] theorem State.sampleStart_enb (s : State) : (s.sampleStart).enb = s.enb := rfl
@[simp] theorem State.sampleStart_stored (s : State) (f : Field) : (s.sampleStart).stored f = s.stored f := rfl
@[simp] theorem State.sampleStart_dataReady (s : State) : (s.sampleStart).dataReady = s.dataReady := rfl
@[simp] theorem State.sampleStart_txSpace (s : State) : (s.sampleStart).txSpace = s.txSpace := rfl
@[simp] theorem State.sampleStart_lsrWord (s : State) : (s.sampleStart).lsrWord = s.lsrWord := rfl

/-! ## sampleNow -/

@[simp] theorem State.sampleNow_cfg (s : State) : (s.sampleNow).cfg = s.cfg := rfl
@[simp] theorem State.sampleNow_life (s : State) : (s.sampleNow).life = s.life := rfl
@[simp] theorem State.sampleNow_toValid (s : State) : (s.sampleNow).toValid = s.toValid := rfl
@[simp] theorem State.sampleNow_toMs (s : State) : (s.sampleNow).toMs = s.toMs := rfl
@[simp] theorem State.sampleNow_opc (s : State) : (s.sampleNow).opc = s.opc := rfl
@[simp] theorem State.sampleNow_flags (s : State) : (s.sampleNow).flags = s.flags := rfl
@[simp] theorem State.sampleNow_arg (s : State) : (s.sampleNow).arg = s.arg := rfl
@[simp] theorem State.sampleNow_byte (s : State) : (s.sampleNow).byte = s.byte := rfl
@[simp] theorem State.sampleNow_v (s : State) : (s.sampleNow).v = s.v := rfl
@[simp] theorem State.sampleNow_t0 (s : State) : (s.sampleNow).t0 = s.t0 := rfl
@[simp] theorem State.sampleNow_now (s : State) : (s.sampleNow).now = s.time := rfl
@[simp] theorem State.sampleNow_idx (s : State) : (s.sampleNow).idx = s.idx := rfl
@[simp] theorem State.sampleNow_phase (s : State) : (s.sampleNow).phase = s.phase := rfl
@[simp] theorem State.sampleNow_cmds (s : State) : (s.sampleNow).cmds = s.cmds := rfl
@[simp] theorem State.sampleNow_src (s : State) : (s.sampleNow).src = s.src := rfl
@[simp] theorem State.sampleNow_dst (s : State) : (s.sampleNow).dst = s.dst := rfl
@[simp] theorem State.sampleNow_mem (s : State) : (s.sampleNow).mem = s.mem := rfl
@[simp] theorem State.sampleNow_txq (s : State) : (s.sampleNow).txq = s.txq := rfl
@[simp] theorem State.sampleNow_rxq (s : State) : (s.sampleNow).rxq = s.rxq := rfl
@[simp] theorem State.sampleNow_lineOut (s : State) : (s.sampleNow).lineOut = s.lineOut := rfl
@[simp] theorem State.sampleNow_pin14 (s : State) : (s.sampleNow).pin14 = s.pin14 := rfl
@[simp] theorem State.sampleNow_pin15 (s : State) : (s.sampleNow).pin15 = s.pin15 := rfl
@[simp] theorem State.sampleNow_time (s : State) : (s.sampleNow).time = s.time := rfl
@[simp] theorem State.sampleNow_sched (s : State) : (s.sampleNow).sched = s.sched := rfl
@[simp] theorem State.sampleNow_undef (s : State) : (s.sampleNow).undef = s.undef := rfl
@[simp] theorem State.sampleNow_freeCount (s : State) : (s.sampleNow).freeCount = s.freeCount := rfl
@[simp] theorem State.sampleNow_trace (s : State) : (s.sampleNow).trace = .timeNow s.time :: s.trace := rfl
@[simp] theorem State.sampleNow_enb (s : State) : (s.sampleNow).enb = s.enb := rfl
@[simp] theorem State.sampleNow_stored (s : State) (f : Field) : (s.sampleNow).stored f = s.stored f := rfl
@[simp] theorem State.sampleNow_dataReady (s : State) : (s.sampleNow).dataReady = s.dataReady := rfl
@[simp] theorem State.sampleNow_txSpace (s : State) : (s.sampleNow).txSpace = s.txSpace := rfl
@[simp] theorem State.sampleNow_lsrWord (s : State) : (s.sampleNow).lsrWord = s.lsrWord := rfl

/-! ## fetchByte -/

@[simp] theorem State.fetchByte_cfg (s : State) : (s.fetchByte).cfg = s.cfg := rfl
@[simp] theorem State.fetchByte_life (s : State) : (s.fetchByte).life = s.life := rfl
@[simp] theorem State.fetchByte_toValid (s : State) : (s.fetchByte).toValid = s.toValid := rfl
@[simp] theorem State.fetchByte_toMs (s : State) : (s.fetchByte).toMs = s.toMs := rfl
@[simp] theorem State.fetchByte_opc (s : State) : (s.fetchByte).opc = s.opc := rfl
@[simp] theorem State.fetchByte_flags (s : State) : (s.fetchByte).flags = s.flags := rfl
@[simp] theorem State.fetchByte_arg (s : State) : (s.fetchByte).arg = s.arg := rfl
@[simp] theorem State.fetchByte_byte (s : State) : (s.fetchByte).byte = sourceByte s.src s.idx s.undef := rfl
@[simp] theorem State.fetchByte_v (s : State) : (s.fetchByte).v = s.v := rfl
@[simp] theorem State.fetchByte_t0 (s : State) : (s.fetchByte).t0 = s.t0 := rfl
@[simp] theorem State.fetchByte_now (s : State) : (s.fetchByte).now = s.now := rfl
@[simp] theorem State.fetchByte_idx (s : State) : (s.fetchByte).idx = s.idx := rfl
@[simp] theorem State.fetchByte_phase (s : State) : (s.fetchByte).phase = s.phase := rfl
@[simp] theorem State.fetchByte_cmds (s : State) : (s.fetchByte).cmds = s.cmds := rfl
@[simp] theorem State.fetchByte_src (s : State) : (s.fetchByte).src = s.src := rfl
@[simp] theorem State.fetchByte_dst (s : State) : (s.fetchByte).dst = s.dst := rfl
@[simp] theorem State.fetchByte_mem (s : State) : (s.fetchByte).mem = s.mem := rfl
@[simp] theorem State.fetchByte_txq (s : State) : (s.fetchByte).txq = s.txq := rfl
@[simp] theorem State.fetchByte_rxq (s : State) : (s.fetchByte).rxq = s.rxq := rfl
@[simp] theorem State.fetchByte_lineOut (s : State) : (s.fetchByte).lineOut = s.lineOut := rfl
@[simp] theorem State.fetchByte_pin14 (s : State) : (s.fetchByte).pin14 = s.pin14 := rfl
@[simp] theorem State.fetchByte_pin15 (s : State) : (s.fetchByte).pin15 = s.pin15 := rfl
@[simp] theorem State.fetchByte_time (s : State) : (s.fetchByte).time = s.time := rfl
@[simp] theorem State.fetchByte_sched (s : State) : (s.fetchByte).sched = s.sched := rfl
@[simp] theorem State.fetchByte_undef (s : State) : (s.fetchByte).undef = s.undef := rfl
@[simp] theorem State.fetchByte_freeCount (s : State) : (s.fetchByte).freeCount = s.freeCount := rfl
@[simp] theorem State.fetchByte_trace (s : State) : (s.fetchByte).trace = .srcByte s.idx (sourceByte s.src s.idx s.undef) :: s.trace := rfl
@[simp] theorem State.fetchByte_enb (s : State) : (s.fetchByte).enb = s.enb := rfl
@[simp] theorem State.fetchByte_stored (s : State) (f : Field) : (s.fetchByte).stored f = s.stored f := rfl
@[simp] theorem State.fetchByte_dataReady (s : State) : (s.fetchByte).dataReady = s.dataReady := rfl
@[simp] theorem State.fetchByte_txSpace (s : State) : (s.fetchByte).txSpace = s.txSpace := rfl
@[simp] theorem State.fetchByte_lsrWord (s : State) : (s.fetchByte).lsrWord = s.lsrWord := rfl

/-! ## storeByte -/

@[simp] theorem State.storeByte_cfg (s : State) : (s.storeByte).cfg = s.cfg := rfl
@[simp] theorem State.storeByte_life (s : State) : (s.storeByte).life = s.life := rfl
@[simp] theorem State.storeByte_toValid (s : State) : (s.storeByte).toValid = s.toValid := rfl
@[simp] theorem State.storeByte_toMs (s : State) : (s.storeByte).toMs = s.toMs := rfl
@[simp] theorem State.storeByte_opc (s : State) : (s.storeByte).opc = s.opc := rfl
@[simp] theorem State.storeByte_flags (s : State) : (s.storeByte).flags = s.flags := rfl
@[simp] theorem State.storeByte_arg (s : State) : (s.storeByte).arg = s.arg := rfl
@[simp] theorem State.storeByte_byte (s : State) : (s.storeByte).byte = s.byte := rfl
@[simp] theorem State.storeByte_v (s : State) : (s.storeByte).v = s.v := rfl
@[simp] theorem State.storeByte_t0 (s : State) : (s.storeByte).t0 = s.t0 := rfl
@[simp] theorem State.storeByte_now (s : State) : (s.storeByte).now = s.now := rfl
@[simp] theorem State.storeByte_idx (s : State) : (s.storeByte).idx = s.idx := rfl
@[simp] theorem State.storeByte_phase (s : State) : (s.storeByte).phase = s.phase := rfl
@[simp] theorem State.storeByte_cmds (s : State) : (s.storeByte).cmds = s.cmds := rfl
@[simp] theorem State.storeByte_src (s : State) : (s.storeByte).src = s.src := rfl
@[simp] theorem State.storeByte_dst (s : State) : (s.storeByte).dst = s.dst.set s.idx.toNat s.byte := rfl
@[simp] theorem State.storeByte_mem (s : State) : (s.storeByte).mem = s.mem := rfl
@[simp] theorem State.storeByte_txq (s : State) : (s.storeByte).txq = s.txq := rfl
@[simp] theorem State.storeByte_rxq (s : State) : (s.storeByte).rxq = s.rxq := rfl
@[simp] theorem State.storeByte_lineOut (s : State) : (s.storeByte).lineOut = s.lineOut := rfl
@[simp] theorem State.storeByte_pin14 (s : State) : (s.storeByte).pin14 = s.pin14 := rfl
@[simp] theorem State.storeByte_pin15 (s : State) : (s.storeByte).pin15 = s.pin15 := rfl
@[simp] theorem State.storeByte_time (s : State) : (s.storeByte).time = s.time := rfl
@[simp] theorem State.storeByte_sched (s : State) : (s.storeByte).sched = s.sched := rfl
@[simp] theorem State.storeByte_undef (s : State) : (s.storeByte).undef = s.undef := rfl
@[simp] theorem State.storeByte_freeCount (s : State) : (s.storeByte).freeCount = s.freeCount := rfl
@[simp] theorem State.storeByte_trace (s : State) : (s.storeByte).trace = .dstWrite s.idx s.byte :: s.trace := rfl
@[simp] theorem State.storeByte_enb (s : State) : (s.storeByte).enb = s.enb := rfl
@[simp] theorem State.storeByte_stored (s : State) (f : Field) : (s.storeByte).stored f = s.stored f := rfl
@[simp] theorem State.storeByte_dataReady (s : State) : (s.storeByte).dataReady = s.dataReady := rfl
@[simp] theorem State.storeByte_txSpace (s : State) : (s.storeByte).txSpace = s.txSpace := rfl
@[simp] theorem State.storeByte_lsrWord (s : State) : (s.storeByte).lsrWord = s.lsrWord := rfl

/-! ## latch -/

@[simp] theorem State.latch_cfg (s : State) (i : Instr) (p : Phase) : (s.latch i p).cfg = s.cfg := rfl
@[simp] theorem State.latch_life (s : State) (i : Instr) (p : Phase) : (s.latch i p).life = s.life := rfl
@[simp] theorem State.latch_toValid (s : State) (i : Instr) (p : Phase) : (s.latch i p).toValid = s.toValid := rfl
@[simp] theorem State.latch_toMs (s : State) (i : Instr) (p : Phase) : (s.latch i p).toMs = s.toMs := rfl
@[simp] theorem State.latch_opc (s : State) (i : Instr) (p : Phase) : (s.latch i p).opc = i.opc := rfl
@[simp] theorem State.latch_flags (s : State) (i : Instr) (p : Phase) : (s.latch i p).flags = i.flags := rfl
@[simp] theorem State.latch_arg (s : State) (i : Instr) (p : Phase) : (s.latch i p).arg = i.arg := rfl
@[simp] theorem State.latch_byte (s : State) (i : Instr) (p : Phase) : (s.latch i p).byte = s.byte := rfl
@[simp] theorem State.latch_v (s : State) (i : Instr) (p : Phase) : (s.latch i p).v = s.v := rfl
@[simp] theorem State.latch_t0 (s : State) (i : Instr) (p : Phase) : (s.latch i p).t0 = s.t0 := rfl
@[simp] theorem State.latch_now (s : State) (i : Instr) (p : Phase) : (s.latch i p).now = s.now := rfl
@[simp] theorem State.latch_idx (s : State) (i : Instr) (p : Phase) : (s.latch i p).idx = s.idx := rfl
@[simp] theorem State.latch_phase (s : State) (i : Instr) (p : Phase) : (s.latch i p).phase = p := rfl
@[simp] theorem State.latch_cmds (s : State) (i : Instr) (p : Phase) : (s.latch i p).cmds = s.cmds.tail := rfl
@[simp] theorem State.latch_src (s : State) (i : Instr) (p : Phase) : (s.latch i p).src = (s.cmds.head?.map Command.src).getD [] := rfl
@[simp] theorem State.latch_dst (s : State) (i : Instr) (p : Phase) : (s.latch i p).dst = (s.cmds.head?.map Command.dst).getD [] := rfl
@[simp] theorem State.latch_mem (s : State) (i : Instr) (p : Phase) : (s.latch i p).mem = s.mem := rfl
@[simp] theorem State.latch_txq (s : State) (i : Instr) (p : Phase) : (s.latch i p).txq = s.txq := rfl
@[simp] theorem State.latch_rxq (s : State) (i : Instr) (p : Phase) : (s.latch i p).rxq = s.rxq := rfl
@[simp] theorem State.latch_lineOut (s : State) (i : Instr) (p : Phase) : (s.latch i p).lineOut = s.lineOut := rfl
@[simp] theorem State.latch_pin14 (s : State) (i : Instr) (p : Phase) : (s.latch i p).pin14 = s.pin14 := rfl
@[simp] theorem State.latch_pin15 (s : State) (i : Instr) (p : Phase) : (s.latch i p).pin15 = s.pin15 := rfl
@[simp] theorem State.latch_time (s : State) (i : Instr) (p : Phase) : (s.latch i p).time = s.time := rfl
@[simp] theorem State.latch_sched (s : State) (i : Instr) (p : Phase) : (s.latch i p).sched = s.sched := rfl
@[simp] theorem State.latch_undef (s : State) (i : Instr) (p : Phase) : (s.latch i p).undef = s.undef := rfl
@[simp] theorem State.latch_freeCount (s : State) (i : Instr) (p : Phase) : (s.latch i p).freeCount = s.freeCount := rfl
@[simp] theorem State.latch_trace (s : State) (i : Instr) (p : Phase) : (s.latch i p).trace = s.trace := rfl
@[simp] theorem State.latch_enb (s : State) (i : Instr) (p : Phase) : (s.latch i p).enb = s.enb := rfl
@[simp] theorem State.latch_stored (s : State) (i : Instr) (p : Phase) (f : Field) : (s.latch i p).stored f = s.stored f := rfl
@[simp] theorem State.latch_dataReady (s : State) (i : Instr) (p : Phase) : (s.latch i p).dataReady = s.dataReady := rfl
@[simp] theorem State.latch_txSpace (s : State) (i : Instr) (p : Phase) : (s.latch i p).txSpace = s.txSpace := rfl
@[simp] theorem State.latch_lsrWord (s : State) (i : Instr) (p : Phase) : (s.latch i p).lsrWord = s.lsrWord := rfl

/-! ## supply -/

@[simp] theorem State.supply_cfg (s : State) (u : Word) (rest : List Move) : (s.supply u rest).cfg = s.cfg := rfl
@[simp] theorem State.supply_life (s : State) (u : Word) (rest : List Move) : (s.supply u rest).life = s.life := rfl
@[simp] theorem State.supply_toValid (s : State) (u : Word) (rest : List Move) : (s.supply u rest).toValid = s.toValid := rfl
@[simp] theorem State.supply_toMs (s : State) (u : Word) (rest : List Move) : (s.supply u rest).toMs = s.toMs := rfl
@[simp] theorem State.supply_opc (s : State) (u : Word) (rest : List Move) : (s.supply u rest).opc = s.opc := rfl
@[simp] theorem State.supply_flags (s : State) (u : Word) (rest : List Move) : (s.supply u rest).flags = s.flags := rfl
@[simp] theorem State.supply_arg (s : State) (u : Word) (rest : List Move) : (s.supply u rest).arg = s.arg := rfl
@[simp] theorem State.supply_byte (s : State) (u : Word) (rest : List Move) : (s.supply u rest).byte = s.byte := rfl
@[simp] theorem State.supply_v (s : State) (u : Word) (rest : List Move) : (s.supply u rest).v = s.v := rfl
@[simp] theorem State.supply_t0 (s : State) (u : Word) (rest : List Move) : (s.supply u rest).t0 = s.t0 := rfl
@[simp] theorem State.supply_now (s : State) (u : Word) (rest : List Move) : (s.supply u rest).now = s.now := rfl
@[simp] theorem State.supply_idx (s : State) (u : Word) (rest : List Move) : (s.supply u rest).idx = s.idx := rfl
@[simp] theorem State.supply_phase (s : State) (u : Word) (rest : List Move) : (s.supply u rest).phase = s.phase := rfl
@[simp] theorem State.supply_cmds (s : State) (u : Word) (rest : List Move) : (s.supply u rest).cmds = s.cmds := rfl
@[simp] theorem State.supply_src (s : State) (u : Word) (rest : List Move) : (s.supply u rest).src = s.src := rfl
@[simp] theorem State.supply_dst (s : State) (u : Word) (rest : List Move) : (s.supply u rest).dst = s.dst := rfl
@[simp] theorem State.supply_mem (s : State) (u : Word) (rest : List Move) : (s.supply u rest).mem = s.mem := rfl
@[simp] theorem State.supply_txq (s : State) (u : Word) (rest : List Move) : (s.supply u rest).txq = s.txq := rfl
@[simp] theorem State.supply_rxq (s : State) (u : Word) (rest : List Move) : (s.supply u rest).rxq = s.rxq := rfl
@[simp] theorem State.supply_lineOut (s : State) (u : Word) (rest : List Move) : (s.supply u rest).lineOut = s.lineOut := rfl
@[simp] theorem State.supply_pin14 (s : State) (u : Word) (rest : List Move) : (s.supply u rest).pin14 = s.pin14 := rfl
@[simp] theorem State.supply_pin15 (s : State) (u : Word) (rest : List Move) : (s.supply u rest).pin15 = s.pin15 := rfl
@[simp] theorem State.supply_time (s : State) (u : Word) (rest : List Move) : (s.supply u rest).time = s.time := rfl
@[simp] theorem State.supply_sched (s : State) (u : Word) (rest : List Move) : (s.supply u rest).sched = rest := rfl
@[simp] theorem State.supply_undef (s : State) (u : Word) (rest : List Move) : (s.supply u rest).undef = u := rfl
@[simp] theorem State.supply_freeCount (s : State) (u : Word) (rest : List Move) : (s.supply u rest).freeCount = s.freeCount + 1 := rfl
@[simp] theorem State.supply_trace (s : State) (u : Word) (rest : List Move) : (s.supply u rest).trace = s.trace := rfl
@[simp] theorem State.supply_enb (s : State) (u : Word) (rest : List Move) : (s.supply u rest).enb = s.enb := rfl
@[simp] theorem State.supply_stored (s : State) (u : Word) (rest : List Move) (f : Field) : (s.supply u rest).stored f = s.stored f := rfl

/-! ## lineReceive -/

@[simp] theorem State.lineReceive_cfg (s : State) (b : Byte) : (s.lineReceive b).cfg = s.cfg := rfl
@[simp] theorem State.lineReceive_life (s : State) (b : Byte) : (s.lineReceive b).life = s.life := rfl
@[simp] theorem State.lineReceive_toValid (s : State) (b : Byte) : (s.lineReceive b).toValid = s.toValid := rfl
@[simp] theorem State.lineReceive_toMs (s : State) (b : Byte) : (s.lineReceive b).toMs = s.toMs := rfl
@[simp] theorem State.lineReceive_opc (s : State) (b : Byte) : (s.lineReceive b).opc = s.opc := rfl
@[simp] theorem State.lineReceive_flags (s : State) (b : Byte) : (s.lineReceive b).flags = s.flags := rfl
@[simp] theorem State.lineReceive_arg (s : State) (b : Byte) : (s.lineReceive b).arg = s.arg := rfl
@[simp] theorem State.lineReceive_byte (s : State) (b : Byte) : (s.lineReceive b).byte = s.byte := rfl
@[simp] theorem State.lineReceive_v (s : State) (b : Byte) : (s.lineReceive b).v = s.v := rfl
@[simp] theorem State.lineReceive_t0 (s : State) (b : Byte) : (s.lineReceive b).t0 = s.t0 := rfl
@[simp] theorem State.lineReceive_now (s : State) (b : Byte) : (s.lineReceive b).now = s.now := rfl
@[simp] theorem State.lineReceive_idx (s : State) (b : Byte) : (s.lineReceive b).idx = s.idx := rfl
@[simp] theorem State.lineReceive_phase (s : State) (b : Byte) : (s.lineReceive b).phase = s.phase := rfl
@[simp] theorem State.lineReceive_cmds (s : State) (b : Byte) : (s.lineReceive b).cmds = s.cmds := rfl
@[simp] theorem State.lineReceive_src (s : State) (b : Byte) : (s.lineReceive b).src = s.src := rfl
@[simp] theorem State.lineReceive_dst (s : State) (b : Byte) : (s.lineReceive b).dst = s.dst := rfl
@[simp] theorem State.lineReceive_mem (s : State) (b : Byte) : (s.lineReceive b).mem = s.mem := rfl
@[simp] theorem State.lineReceive_txq (s : State) (b : Byte) : (s.lineReceive b).txq = s.txq := rfl
@[simp] theorem State.lineReceive_rxq (s : State) (b : Byte) : (s.lineReceive b).rxq = if s.rxq.length < s.cfg.rxDepth then s.rxq ++ [b] else s.rxq := rfl
@[simp] theorem State.lineReceive_lineOut (s : State) (b : Byte) : (s.lineReceive b).lineOut = s.lineOut := rfl
@[simp] theorem State.lineReceive_pin14 (s : State) (b : Byte) : (s.lineReceive b).pin14 = s.pin14 := rfl
@[simp] theorem State.lineReceive_pin15 (s : State) (b : Byte) : (s.lineReceive b).pin15 = s.pin15 := rfl
@[simp] theorem State.lineReceive_time (s : State) (b : Byte) : (s.lineReceive b).time = s.time := rfl
@[simp] theorem State.lineReceive_sched (s : State) (b : Byte) : (s.lineReceive b).sched = s.sched := rfl
@[simp] theorem State.lineReceive_undef (s : State) (b : Byte) : (s.lineReceive b).undef = s.undef := rfl
@[simp] theorem State.lineReceive_freeCount (s : State) (b : Byte) : (s.lineReceive b).freeCount = s.freeCount := rfl
@[simp] theorem State.lineReceive_trace (s : State) (b : Byte) : (s.lineReceive b).trace = s.trace := rfl
@[simp] theorem State.lineReceive_enb (s : State) (b : Byte) : (s.lineReceive b).enb = s.enb := rfl
@[simp] theorem State.lineReceive_stored (s : State) (b : Byte) (f : Field) : (s.lineReceive b).stored f = s.stored f := rfl
@[simp] theorem State.lineReceive_txSpace (s : State) (b : Byte) : (s.lineReceive b).txSpace = s.txSpace := rfl

/-! ## lineTransmit -/

@[simp] theorem State.lineTransmit_cfg (s : State) : (s.lineTransmit).cfg = s.cfg := rfl
@[simp] theorem State.lineTransmit_life (s : State) : (s.lineTransmit).life = s.life := rfl
@[simp] theorem State.lineTransmit_toValid (s : State) : (s.lineTransmit).toValid = s.toValid := rfl
@[simp] theorem State.lineTransmit_toMs (s : State) : (s.lineTransmit).toMs = s.toMs := rfl
@[simp] theorem State.lineTransmit_opc (s : State) : (s.lineTransmit).opc = s.opc := rfl
@[simp] theorem State.lineTransmit_flags (s : State) : (s.lineTransmit).flags = s.flags := rfl
@[simp] theorem State.lineTransmit_arg (s : State) : (s.lineTransmit).arg = s.arg := rfl
@[simp] theorem State.lineTransmit_byte (s : State) : (s.lineTransmit).byte = s.byte := rfl
@[simp] theorem State.lineTransmit_v (s : State) : (s.lineTransmit).v = s.v := rfl
@[simp] theorem State.lineTransmit_t0 (s : State) : (s.lineTransmit).t0 = s.t0 := rfl
@[simp] theorem State.lineTransmit_now (s : State) : (s.lineTransmit).now = s.now := rfl
@[simp] theorem State.lineTransmit_idx (s : State) : (s.lineTransmit).idx = s.idx := rfl
@[simp] theorem State.lineTransmit_phase (s : State) : (s.lineTransmit).phase = s.phase := rfl
@[simp] theorem State.lineTransmit_cmds (s : State) : (s.lineTransmit).cmds = s.cmds := rfl
@[simp] theorem State.lineTransmit_src (s : State) : (s.lineTransmit).src = s.src := rfl
@[simp] theorem State.lineTransmit_dst (s : State) : (s.lineTransmit).dst = s.dst := rfl
@[simp] theorem State.lineTransmit_mem (s : State) : (s.lineTransmit).mem = s.mem := rfl
@[simp] theorem State.lineTransmit_txq (s : State) : (s.lineTransmit).txq = s.txq.tail := rfl
@[simp] theorem State.lineTransmit_rxq (s : State) : (s.lineTransmit).rxq = s.rxq := rfl
@[simp] theorem State.lineTransmit_lineOut (s : State) : (s.lineTransmit).lineOut = s.lineOut ++ s.txq.head?.toList := rfl
@[simp] theorem State.lineTransmit_pin14 (s : State) : (s.lineTransmit).pin14 = s.pin14 := rfl
@[simp] theorem State.lineTransmit_pin15 (s : State) : (s.lineTransmit).pin15 = s.pin15 := rfl
@[simp] theorem State.lineTransmit_time (s : State) : (s.lineTransmit).time = s.time := rfl
@[simp] theorem State.lineTransmit_sched (s : State) : (s.lineTransmit).sched = s.sched := rfl
@[simp] theorem State.lineTransmit_undef (s : State) : (s.lineTransmit).undef = s.undef := rfl
@[simp] theorem State.lineTransmit_freeCount (s : State) : (s.lineTransmit).freeCount = s.freeCount := rfl
@[simp] theorem State.lineTransmit_trace (s : State) : (s.lineTransmit).trace = s.trace := rfl
@[simp] theorem State.lineTransmit_enb (s : State) : (s.lineTransmit).enb = s.enb := rfl
@[simp] theorem State.lineTransmit_stored (s : State) (f : Field) : (s.lineTransmit).stored f = s.stored f := rfl
@[simp] theorem State.lineTransmit_dataReady (s : State) : (s.lineTransmit).dataReady = s.dataReady := rfl

/-! ## advanceTime -/

@[simp] theorem State.advanceTime_cfg (s : State) (d : Micros) : (s.advanceTime d).cfg = s.cfg := rfl
@[simp] theorem State.advanceTime_life (s : State) (d : Micros) : (s.advanceTime d).life = s.life := rfl
@[simp] theorem State.advanceTime_toValid (s : State) (d : Micros) : (s.advanceTime d).toValid = s.toValid := rfl
@[simp] theorem State.advanceTime_toMs (s : State) (d : Micros) : (s.advanceTime d).toMs = s.toMs := rfl
@[simp] theorem State.advanceTime_opc (s : State) (d : Micros) : (s.advanceTime d).opc = s.opc := rfl
@[simp] theorem State.advanceTime_flags (s : State) (d : Micros) : (s.advanceTime d).flags = s.flags := rfl
@[simp] theorem State.advanceTime_arg (s : State) (d : Micros) : (s.advanceTime d).arg = s.arg := rfl
@[simp] theorem State.advanceTime_byte (s : State) (d : Micros) : (s.advanceTime d).byte = s.byte := rfl
@[simp] theorem State.advanceTime_v (s : State) (d : Micros) : (s.advanceTime d).v = s.v := rfl
@[simp] theorem State.advanceTime_t0 (s : State) (d : Micros) : (s.advanceTime d).t0 = s.t0 := rfl
@[simp] theorem State.advanceTime_now (s : State) (d : Micros) : (s.advanceTime d).now = s.now := rfl
@[simp] theorem State.advanceTime_idx (s : State) (d : Micros) : (s.advanceTime d).idx = s.idx := rfl
@[simp] theorem State.advanceTime_phase (s : State) (d : Micros) : (s.advanceTime d).phase = s.phase := rfl
@[simp] theorem State.advanceTime_cmds (s : State) (d : Micros) : (s.advanceTime d).cmds = s.cmds := rfl
@[simp] theorem State.advanceTime_src (s : State) (d : Micros) : (s.advanceTime d).src = s.src := rfl
@[simp] theorem State.advanceTime_dst (s : State) (d : Micros) : (s.advanceTime d).dst = s.dst := rfl
@[simp] theorem State.advanceTime_mem (s : State) (d : Micros) : (s.advanceTime d).mem = s.mem := rfl
@[simp] theorem State.advanceTime_txq (s : State) (d : Micros) : (s.advanceTime d).txq = s.txq := rfl
@[simp] theorem State.advanceTime_rxq (s : State) (d : Micros) : (s.advanceTime d).rxq = s.rxq := rfl
@[simp] theorem State.advanceTime_lineOut (s : State) (d : Micros) : (s.advanceTime d).lineOut = s.lineOut := rfl
@[simp] theorem State.advanceTime_pin14 (s : State) (d : Micros) : (s.advanceTime d).pin14 = s.pin14 := rfl
@[simp] theorem State.advanceTime_pin15 (s : State) (d : Micros) : (s.advanceTime d).pin15 = s.pin15 := rfl
@[simp] theorem State.advanceTime_time (s : State) (d : Micros) : (s.advanceTime d).time = s.time + d := rfl
@[simp] theorem State.advanceTime_sched (s : State) (d : Micros) : (s.advanceTime d).sched = s.sched := rfl
@[simp] theorem State.advanceTime_undef (s : State) (d : Micros) : (s.advanceTime d).undef = s.undef := rfl
@[simp] theorem State.advanceTime_freeCount (s : State) (d : Micros) : (s.advanceTime d).freeCount = s.freeCount := rfl
@[simp] theorem State.advanceTime_trace (s : State) (d : Micros) : (s.advanceTime d).trace = s.trace := rfl
@[simp] theorem State.advanceTime_enb (s : State) (d : Micros) : (s.advanceTime d).enb = s.enb := rfl
@[simp] theorem State.advanceTime_stored (s : State) (d : Micros) (f : Field) : (s.advanceTime d).stored f = s.stored f := rfl
@[simp] theorem State.advanceTime_dataReady (s : State) (d : Micros) : (s.advanceTime d).dataReady = s.dataReady := rfl
@[simp] theorem State.advanceTime_txSpace (s : State) (d : Micros) : (s.advanceTime d).txSpace = s.txSpace := rfl
@[simp] theorem State.advanceTime_lsrWord (s : State) (d : Micros) : (s.advanceTime d).lsrWord = s.lsrWord := rfl

/-! ## foreignEnbWrite -/

@[simp] theorem State.foreignEnbWrite_cfg (s : State) (w : BitVec 7) : (s.foreignEnbWrite w).cfg = s.cfg := rfl
@[simp] theorem State.foreignEnbWrite_life (s : State) (w : BitVec 7) : (s.foreignEnbWrite w).life = s.life := rfl
@[simp] theorem State.foreignEnbWrite_toValid (s : State) (w : BitVec 7) : (s.foreignEnbWrite w).toValid = s.toValid := rfl
@[simp] theorem State.foreignEnbWrite_toMs (s : State) (w : BitVec 7) : (s.foreignEnbWrite w).toMs = s.toMs := rfl
@[simp] theorem State.foreignEnbWrite_opc (s : State) (w : BitVec 7) : (s.foreignEnbWrite w).opc = s.opc := rfl
@[simp] theorem State.foreignEnbWrite_flags (s : State) (w : BitVec 7) : (s.foreignEnbWrite w).flags = s.flags := rfl
@[simp] theorem State.foreignEnbWrite_arg (s : State) (w : BitVec 7) : (s.foreignEnbWrite w).arg = s.arg := rfl
@[simp] theorem State.foreignEnbWrite_byte (s : State) (w : BitVec 7) : (s.foreignEnbWrite w).byte = s.byte := rfl
@[simp] theorem State.foreignEnbWrite_v (s : State) (w : BitVec 7) : (s.foreignEnbWrite w).v = s.v := rfl
@[simp] theorem State.foreignEnbWrite_t0 (s : State) (w : BitVec 7) : (s.foreignEnbWrite w).t0 = s.t0 := rfl
@[simp] theorem State.foreignEnbWrite_now (s : State) (w : BitVec 7) : (s.foreignEnbWrite w).now = s.now := rfl
@[simp] theorem State.foreignEnbWrite_idx (s : State) (w : BitVec 7) : (s.foreignEnbWrite w).idx = s.idx := rfl
@[simp] theorem State.foreignEnbWrite_phase (s : State) (w : BitVec 7) : (s.foreignEnbWrite w).phase = s.phase := rfl
@[simp] theorem State.foreignEnbWrite_cmds (s : State) (w : BitVec 7) : (s.foreignEnbWrite w).cmds = s.cmds := rfl
@[simp] theorem State.foreignEnbWrite_src (s : State) (w : BitVec 7) : (s.foreignEnbWrite w).src = s.src := rfl
@[simp] theorem State.foreignEnbWrite_dst (s : State) (w : BitVec 7) : (s.foreignEnbWrite w).dst = s.dst := rfl
@[simp] theorem State.foreignEnbWrite_mem (s : State) (w : BitVec 7) : (s.foreignEnbWrite w).mem = s.mem.write s.cfg.enbAddr.toNat (w ++ s.enb.extractLsb' 0 1) := rfl
@[simp] theorem State.foreignEnbWrite_txq (s : State) (w : BitVec 7) : (s.foreignEnbWrite w).txq = s.txq := rfl
@[simp] theorem State.foreignEnbWrite_rxq (s : State) (w : BitVec 7) : (s.foreignEnbWrite w).rxq = s.rxq := rfl
@[simp] theorem State.foreignEnbWrite_lineOut (s : State) (w : BitVec 7) : (s.foreignEnbWrite w).lineOut = s.lineOut := rfl
@[simp] theorem State.foreignEnbWrite_pin14 (s : State) (w : BitVec 7) : (s.foreignEnbWrite w).pin14 = s.pin14 := rfl
@[simp] theorem State.foreignEnbWrite_pin15 (s : State) (w : BitVec 7) : (s.foreignEnbWrite w).pin15 = s.pin15 := rfl
@[simp] theorem State.foreignEnbWrite_time (s : State) (w : BitVec 7) : (s.foreignEnbWrite w).time = s.time := rfl
@[simp] theorem State.foreignEnbWrite_sched (s : State) (w : BitVec 7) : (s.foreignEnbWrite w).sched = s.sched := rfl
@[simp] theorem State.foreignEnbWrite_undef (s : State) (w : BitVec 7) : (s.foreignEnbWrite w).undef = s.undef := rfl
@[simp] theorem State.foreignEnbWrite_freeCount (s : State) (w : BitVec 7) : (s.foreignEnbWrite w).freeCount = s.freeCount := rfl
@[simp] theorem State.foreignEnbWrite_trace (s : State) (w : BitVec 7) : (s.foreignEnbWrite w).trace = s.trace := rfl
@[simp] theorem State.foreignEnbWrite_dataReady (s : State) (w : BitVec 7) : (s.foreignEnbWrite w).dataReady = s.dataReady := rfl
@[simp] theorem State.foreignEnbWrite_txSpace (s : State) (w : BitVec 7) : (s.foreignEnbWrite w).txSpace = s.txSpace := rfl
@[simp] theorem State.foreignEnbWrite_lsrWord (s : State) (w : BitVec 7) : (s.foreignEnbWrite w).lsrWord = s.lsrWord := rfl

/-! ## offerCommand -/

@[simp] theorem State.offerCommand_cfg (s : State) (c : Command) : (s.offerCommand c).cfg = s.cfg := rfl
@[simp] theorem State.offerCommand_life (s : State) (c : Command) : (s.offerCommand c).life = s.life := rfl
@[simp] theorem State.offerCommand_toValid (s : State) (c : Command) : (s.offerCommand c).toValid = s.toValid := rfl
@[simp] theorem State.offerCommand_toMs (s : State) (c : Command) : (s.offerCommand c).toMs = s.toMs := rfl
@[simp] theorem State.offerCommand_opc (s : State) (c : Command) : (s.offerCommand c).opc = s.opc := rfl
@[simp] theorem State.offerCommand_flags (s : State) (c : Command) : (s.offerCommand c).flags = s.flags := rfl
@[simp] theorem State.offerCommand_arg (s : State) (c : Command) : (s.offerCommand c).arg = s.arg := rfl
@[simp] theorem State.offerCommand_byte (s : State) (c : Command) : (s.offerCommand c).byte = s.byte := rfl
@[simp] theorem State.offerCommand_v (s : State) (c : Command) : (s.offerCommand c).v = s.v := rfl
@[simp] theorem State.offerCommand_t0 (s : State) (c : Command) : (s.offerCommand c).t0 = s.t0 := rfl
@[simp] theorem State.offerCommand_now (s : State) (c : Command) : (s.offerCommand c).now = s.now := rfl
@[simp] theorem State.offerCommand_idx (s : State) (c : Command) : (s.offerCommand c).idx = s.idx := rfl
@[simp] theorem State.offerCommand_phase (s : State) (c : Command) : (s.offerCommand c).phase = s.phase := rfl
@[simp] theorem State.offerCommand_cmds (s : State) (c : Command) : (s.offerCommand c).cmds = s.cmds ++ [c] := rfl
@[simp] theorem State.offerCommand_src (s : State) (c : Command) : (s.offerCommand c).src = s.src := rfl
@[simp] theorem State.offerCommand_dst (s : State) (c : Command) : (s.offerCommand c).dst = s.dst := rfl
@[simp] theorem State.offerCommand_mem (s : State) (c : Command) : (s.offerCommand c).mem = s.mem := rfl
@[simp] theorem State.offerCommand_txq (s : State) (c : Command) : (s.offerCommand c).txq = s.txq := rfl
@[simp] theorem State.offerCommand_rxq (s : State) (c : Command) : (s.offerCommand c).rxq = s.rxq := rfl
@[simp] theorem State.offerCommand_lineOut (s : State) (c : Command) : (s.offerCommand c).lineOut = s.lineOut := rfl
@[simp] theorem State.offerCommand_pin14 (s : State) (c : Command) : (s.offerCommand c).pin14 = s.pin14 := rfl
@[simp] theorem State.offerCommand_pin15 (s : State) (c : Command) : (s.offerCommand c).pin15 = s.pin15 := rfl
@[simp] theorem State.offerCommand_time (s : State) (c : Command) : (s.offerCommand c).time = s.time := rfl
@[simp] theorem State.offerCommand_sched (s : State) (c : Command) : (s.offerCommand c).sched = s.sched := rfl
@[simp] theorem State.offerCommand_undef (s : State) (c : Command) : (s.offerCommand c).undef = s.undef := rfl
@[simp] theorem State.offerCommand_freeCount (s : State) (c : Command) : (s.offerCommand c).freeCount = s.freeCount := rfl
@[simp] theorem State.offerCommand_trace (s : State) (c : Command) : (s.offerCommand c).trace = s.trace := rfl
@[simp] theorem State.offerCommand_enb (s : State) (c : Command) : (s.offerCommand c).enb = s.enb := rfl
@[simp] theorem State.offerCommand_stored (s : State) (c : Command) (f : Field) : (s.offerCommand c).stored f = s.stored f := rfl
@[simp] theorem State.offerCommand_dataReady (s : State) (c : Command) : (s.offerCommand c).dataReady = s.dataReady := rfl
@[simp] theorem State.offerCommand_txSpace (s : State) (c : Command) : (s.offerCommand c).txSpace = s.txSpace := rfl
@[simp] theorem State.offerCommand_lsrWord (s : State) (c : Command) : (s.offerCommand c).lsrWord = s.lsrWord := rfl

/-! ## offering -/

@[simp] theorem State.offering_cfg (s : State) (i : Instr) (src dst : List Byte) : (s.offering i src dst).cfg = s.cfg := rfl
@[simp] theorem State.offering_life (s : State) (i : Instr) (src dst : List Byte) : (s.offering i src dst).life = s.life := rfl
@[simp] theorem State.offering_toValid (s : State) (i : Instr) (src dst : List Byte) : (s.offering i src dst).toValid = s.toValid := rfl
@[simp] theorem State.offering_toMs (s : State) (i : Instr) (src dst : List Byte) : (s.offering i src dst).toMs = s.toMs := rfl
@[simp] theorem State.offering_opc (s : State) (i : Instr) (src dst : List Byte) : (s.offering i src dst).opc = s.opc := rfl
@[simp] theorem State.offering_flags (s : State) (i : Instr) (src dst : List Byte) : (s.offering i src dst).flags = s.flags := rfl
@[simp] theorem State.offering_arg (s : State) (i : Instr) (src dst : List Byte) : (s.offering i src dst).arg = s.arg := rfl
@[simp] theorem State.offering_byte (s : State) (i : Instr) (src dst : List Byte) : (s.offering i src dst).byte = s.byte := rfl
@[simp] theorem State.offering_v (s : State) (i : Instr) (src dst : List Byte) : (s.offering i src dst).v = s.v := rfl
@[simp] theorem State.offering_t0 (s : State) (i : Instr) (src dst : List Byte) : (s.offering i src dst).t0 = s.t0 := rfl
@[simp] theorem State.offering_now (s : State) (i : Instr) (src dst : List Byte) : (s.offering i src dst).now = s.now := rfl
@[simp] theorem State.offering_idx (s : State) (i : Instr) (src dst : List Byte) : (s.offering i src dst).idx = s.idx := rfl
@[simp] theorem State.offering_phase (s : State) (i : Instr) (src dst : List Byte) : (s.offering i src dst).phase = .idle := rfl
@[simp] theorem State.offering_cmds (s : State) (i : Instr) (src dst : List Byte) : (s.offering i src dst).cmds = { word := encode i, src := src, dst := dst } :: s.cmds := rfl
@[simp] theorem State.offering_src (s : State) (i : Instr) (src dst : List Byte) : (s.offering i src dst).src = s.src := rfl
@[simp] theorem State.offering_dst (s : State) (i : Instr) (src dst : List Byte) : (s.offering i src dst).dst = s.dst := rfl
@[simp] theorem State.offering_mem (s : State) (i : Instr) (src dst : List Byte) : (s.offering i src dst).mem = s.mem := rfl
@[simp] theorem State.offering_txq (s : State) (i : Instr) (src dst : List Byte) : (s.offering i src dst).txq = s.txq := rfl
@[simp] theorem State.offering_rxq (s : State) (i : Instr) (src dst : List Byte) : (s.offering i src dst).rxq = s.rxq := rfl
@[simp] theorem State.offering_lineOut (s : State) (i : Instr) (src dst : List Byte) : (s.offering i src dst).lineOut = s.lineOut := rfl
@[simp] theorem State.offering_pin14 (s : State) (i : Instr) (src dst : List Byte) : (s.offering i src dst).pin14 = s.pin14 := rfl
@[simp] theorem State.offering_pin15 (s : State) (i : Instr) (src dst : List Byte) : (s.offering i src dst).pin15 = s.pin15 := rfl
@[simp] theorem State.offering_time (s : State) (i : Instr) (src dst : List Byte) : (s.offering i src dst).time = s.time := rfl
@[simp] theorem State.offering_sched (s : State) (i : Instr) (src dst : List Byte) : (s.offering i src dst).sched = s.sched := rfl
@[simp] theorem State.offering_undef (s : State) (i : Instr) (src dst : List Byte) : (s.offering i src dst).undef = s.undef := rfl
@[simp] theorem State.offering_freeCount (s : State) (i : Instr) (src dst : List Byte) : (s.offering i src dst).freeCount = s.freeCount := rfl
@[simp] theorem State.offering_trace (s : State) (i : Instr) (src dst : List Byte) : (s.offering i src dst).trace = s.trace := rfl
@[simp] theorem State.offering_enb (s : State) (i : Instr) (src dst : List Byte) : (s.offering i src dst).enb = s.enb := rfl
@[simp] theorem State.offering_stored (s : State) (i : Instr) (src dst : List Byte) (f : Field) : (s.offering i src dst).stored f = s.stored f := rfl
@[simp] theorem State.offering_dataReady (s : State) (i : Instr) (src dst : List Byte) : (s.offering i src dst).dataReady = s.dataReady := rfl
@[simp] theorem State.offering_txSpace (s : State) (i : Instr) (src dst : List Byte) : (s.offering i src dst).txSpace = s.txSpace := rfl
@[simp] theorem State.offering_lsrWord (s : State) (i : Instr) (src dst : List Byte) : (s.offering i src dst).lsrWord = s.lsrWord := rfl

/-! ## schedule -/

@[simp] theorem State.schedule_cfg (s : State) (moves : List Move) : (s.schedule moves).cfg = s.cfg := rfl
@[simp] theorem State.schedule_life (s : State) (moves : List Move) : (s.schedule moves).life = s.life := rfl
@[simp] theorem State.schedule_toValid (s : State) (moves : List Move) : (s.schedule moves).toValid = s.toValid := rfl
@[simp] theorem State.schedule_toMs (s : State) (moves : List Move) : (s.schedule moves).toMs = s.toMs := rfl
@[simp] theorem State.schedule_opc (s : State) (moves : List Move) : (s.schedule moves).opc = s.opc := rfl
@[simp] theorem State.schedule_flags (s : State) (moves : List Move) : (s.schedule moves).flags = s.flags := rfl
@[simp] theorem State.schedule_arg (s : State) (moves : List Move) : (s.schedule moves).arg = s.arg := rfl
@[simp] theorem State.schedule_byte (s : State) (moves : List Move) : (s.schedule moves).byte = s.byte := rfl
@[simp] theorem State.schedule_v (s : State) (moves : List Move) : (s.schedule moves).v = s.v := rfl
@[simp] theorem State.schedule_t0 (s : State) (moves : List Move) : (s.schedule moves).t0 = s.t0 := rfl
@[simp] theorem State.schedule_now (s : State) (moves : List Move) : (s.schedule moves).now = s.now := rfl
@[simp] theorem State.schedule_idx (s : State) (moves : List Move) : (s.schedule moves).idx = s.idx := rfl
@[simp] theorem State.schedule_phase (s : State) (moves : List Move) : (s.schedule moves).phase = s.phase := rfl
@[simp] theorem State.schedule_cmds (s : State) (moves : List Move) : (s.schedule moves).cmds = s.cmds := rfl
@[simp] theorem State.schedule_src (s : State) (moves : List Move) : (s.schedule moves).src = s.src := rfl
@[simp] theorem State.schedule_dst (s : State) (moves : List Move) : (s.schedule moves).dst = s.dst := rfl
@[simp] theorem State.schedule_mem (s : State) (moves : List Move) : (s.schedule moves).mem = s.mem := rfl
@[simp] theorem State.schedule_txq (s : State) (moves : List Move) : (s.schedule moves).txq = s.txq := rfl
@[simp] theorem State.schedule_rxq (s : State) (moves : List Move) : (s.schedule moves).rxq = s.rxq := rfl
@[simp] theorem State.schedule_lineOut (s : State) (moves : List Move) : (s.schedule moves).lineOut = s.lineOut := rfl
@[simp] theorem State.schedule_pin14 (s : State) (moves : List Move) : (s.schedule moves).pin14 = s.pin14 := rfl
@[simp] theorem State.schedule_pin15 (s : State) (moves : List Move) : (s.schedule moves).pin15 = s.pin15 := rfl
@[simp] theorem State.schedule_time (s : State) (moves : List Move) : (s.schedule moves).time = s.time := rfl
@[simp] theorem State.schedule_sched (s : State) (moves : List Move) : (s.schedule moves).sched = moves := rfl
@[simp] theorem State.schedule_undef (s : State) (moves : List Move) : (s.schedule moves).undef = s.undef := rfl
@[simp] theorem State.schedule_freeCount (s : State) (moves : List Move) : (s.schedule moves).freeCount = s.freeCount := rfl
@[simp] theorem State.schedule_trace (s : State) (moves : List Move) : (s.schedule moves).trace = s.trace := rfl
@[simp] theorem State.schedule_enb (s : State) (moves : List Move) : (s.schedule moves).enb = s.enb := rfl
@[simp] theorem State.schedule_stored (s : State) (moves : List Move) (f : Field) : (s.schedule moves).stored f = s.stored f := rfl
@[simp] theorem State.schedule_dataReady (s : State) (moves : List Move) : (s.schedule moves).dataReady = s.dataReady := rfl
@[simp] theorem State.schedule_txSpace (s : State) (moves : List Move) : (s.schedule moves).txSpace = s.txSpace := rfl
@[simp] theorem State.schedule_lsrWord (s : State) (moves : List Move) : (s.schedule moves).lsrWord = s.lsrWord := rfl

/-! ## changeSource -/

@[simp] theorem State.changeSource_cfg (s : State) (i : Nat) (b : Byte) : (s.changeSource i b).cfg = s.cfg := rfl
@[simp] theorem State.changeSource_life (s : State) (i : Nat) (b : Byte) : (s.changeSource i b).life = s.life := rfl
@[simp] theorem State.changeSource_toValid (s : State) (i : Nat) (b : Byte) : (s.changeSource i b).toValid = s.toValid := rfl
@[simp] theorem State.changeSource_toMs (s : State) (i : Nat) (b : Byte) : (s.changeSource i b).toMs = s.toMs := rfl
@[simp] theorem State.changeSource_opc (s : State) (i : Nat) (b : Byte) : (s.changeSource i b).opc = s.opc := rfl
@[simp] theorem State.changeSource_flags (s : State) (i : Nat) (b : Byte) : (s.changeSource i b).flags = s.flags := rfl
@[simp] theorem State.changeSource_arg (s : State) (i : Nat) (b : Byte) : (s.changeSource i b).arg = s.arg := rfl
@[simp] theorem State.changeSource_byte (s : State) (i : Nat) (b : Byte) : (s.changeSource i b).byte = s.byte := rfl
@[simp] theorem State.changeSource_v (s : State) (i : Nat) (b : Byte) : (s.changeSource i b).v = s.v := rfl
@[simp] theorem State.changeSource_t0 (s : State) (i : Nat) (b : Byte) : (s.changeSource i b).t0 = s.t0 := rfl
@[simp] theorem State.changeSource_now (s : State) (i : Nat) (b : Byte) : (s.changeSource i b).now = s.now := rfl
@[simp] theorem State.changeSource_idx (s : State) (i : Nat) (b : Byte) : (s.changeSource i b).idx = s.idx := rfl
@[simp] theorem State.changeSource_phase (s : State) (i : Nat) (b : Byte) : (s.changeSource i b).phase = s.phase := rfl
@[simp] theorem State.changeSource_cmds (s : State) (i : Nat) (b : Byte) : (s.changeSource i b).cmds = s.cmds := rfl
@[simp] theorem State.changeSource_src (s : State) (i : Nat) (b : Byte) : (s.changeSource i b).src = s.src.set i b := rfl
@[simp] theorem State.changeSource_dst (s : State) (i : Nat) (b : Byte) : (s.changeSource i b).dst = s.dst := rfl
@[simp] theorem State.changeSource_mem (s : State) (i : Nat) (b : Byte) : (s.changeSource i b).mem = s.mem := rfl
@[simp] theorem State.changeSource_txq (s : State) (i : Nat) (b : Byte) : (s.changeSource i b).txq = s.txq := rfl
@[simp] theorem State.changeSource_rxq (s : State) (i : Nat) (b : Byte) : (s.changeSource i b).rxq = s.rxq := rfl
@[simp] theorem State.changeSource_lineOut (s : State) (i : Nat) (b : Byte) : (s.changeSource i b).lineOut = s.lineOut := rfl
@[simp] theorem State.changeSource_pin14 (s : State) (i : Nat) (b : Byte) : (s.changeSource i b).pin14 = s.pin14 := rfl
@[simp] theorem State.changeSource_pin15 (s : State) (i : Nat) (b : Byte) : (s.changeSource i b).pin15 = s.pin15 := rfl
@[simp] theorem State.changeSource_time (s : State) (i : Nat) (b : Byte) : (s.changeSource i b).time = s.time := rfl
@[simp] theorem State.changeSource_sched (s : State) (i : Nat) (b : Byte) : (s.changeSource i b).sched = s.sched := rfl
@[simp] theorem State.changeSource_undef (s : State) (i : Nat) (b : Byte) : (s.changeSource i b).undef = s.undef := rfl
@[simp] theorem State.changeSource_freeCount (s : State) (i : Nat) (b : Byte) : (s.changeSource i b).freeCount = s.freeCount := rfl
@[simp] theorem State.changeSource_trace (s : State) (i : Nat) (b : Byte) : (s.changeSource i b).trace = s.trace := rfl
@[simp] theorem State.changeSource_enb (s : State) (i : Nat) (b : Byte) : (s.changeSource i b).enb = s.enb := rfl
@[simp] theorem State.changeSource_stored (s : State) (i : Nat) (b : Byte) (f : Field) : (s.changeSource i b).stored f = s.stored f := rfl
@[simp] theorem State.changeSource_dataReady (s : State) (i : Nat) (b : Byte) : (s.changeSource i b).dataReady = s.dataReady := rfl
@[simp] theorem State.changeSource_txSpace (s : State) (i : Nat) (b : Byte) : (s.changeSource i b).txSpace = s.txSpace := rfl
@[simp] theorem State.changeSource_lsrWord (s : State) (i : Nat) (b : Byte) : (s.changeSource i b).lsrWord = s.lsrWord := rfl

end Sys2Proof.Machine
end

