-- ==== Sys2Proof/Laws/Ops.lean ====
section
/-! SUPPORT. One lemma for each shared operation that says once everything it can do: the word an LSR or an IO read returns,
the response word, acceptance, the lines of the shared procedures, the environment's moves, and where the enable switch and
the configuration fields lie. -/

namespace Sys2Proof.Machine

/-! ## The line-status word -/

theorem lsrWord_bit0 (s : State) : s.lsrWord.getLsbD 0 = s.dataReady := by
  simp only [State.lsrWord, Config.dataReadyMask, Config.txSpaceMask]
  cases s.dataReady <;> cases s.txSpace <;> simp

theorem lsrWord_bit5 (s : State) : s.lsrWord.getLsbD 5 = s.txSpace := by
  simp only [State.lsrWord, Config.dataReadyMask, Config.txSpaceMask]
  cases s.dataReady <;> cases s.txSpace <;> simp

theorem lsrWord_other (s : State) (j : Nat) (h0 : j ≠ 0) (h5 : j ≠ 5) : s.lsrWord.getLsbD j = s.undef.getLsbD j := by
  by_cases hj : j < 32
  · have : ∀ j < 32, j ≠ 0 → j ≠ 5 →
        ((~~~(0x00000001#32 ||| 0x00000020#32)).getLsbD j = true ∧ (0x00000001#32).getLsbD j = false ∧
          (0x00000020#32).getLsbD j = false) := by decide
    obtain ⟨ha, hb, hc⟩ := this j hj h0 h5
    simp only [State.lsrWord, Config.dataReadyMask, Config.txSpaceMask]
    rw [BitVec.getLsbD_or, BitVec.getLsbD_or, BitVec.getLsbD_and, ha]
    cases s.dataReady <;> cases s.txSpace <;> simp [hb, hc]
  · rw [BitVec.getLsbD_of_ge _ _ (by omega), BitVec.getLsbD_of_ge _ _ (by omega)]

theorem dataReady_ready {s : State} (h : s.life = .ready) : s.dataReady = !s.rxq.isEmpty := by
  simp [State.dataReady, h]

theorem txSpace_ready {s : State} (h : s.life = .ready) : s.txSpace = decide (s.txq.length < s.cfg.txDepth) := by
  simp [State.txSpace, h]

/-- A read of LSR gives what the peripheral's contract promises once INIT has responded. -/
theorem lsrWord_sample {s : State} (h : s.life = .ready) : s.LsrSample s.lsrWord :=
  ⟨by rw [lsrWord_bit0, dataReady_ready h], by rw [lsrWord_bit5, txSpace_ready h], lsrWord_other s⟩

/-! ## The data word -/

theorem lowByte_widen (b : Byte) : lowByte (widen b) = b := by
  simp only [lowByte, widen]; exact BitVec.setWidth_setWidth_of_le b (by decide) |>.trans (BitVec.setWidth_eq b)

theorem lowByte_ioReadWord (u : Word) (b : Byte) : lowByte (ioReadWord u b) = b := by
  apply BitVec.eq_of_getLsbD_eq
  intro i hi
  rw [lowByte, ioReadWord, BitVec.getLsbD_setWidth, BitVec.getLsbD_append]
  simp [hi]

/-- `rx` returns the low byte of the word it read. -/
theorem lowByte_ioWord (s : State) : lowByte s.ioWord = s.ioByte := by
  rcases hl : s.life with _ | _ <;> rcases hr : s.rxq with _ | ⟨b, r⟩ <;>
    simp [State.ioWord, State.ioByte, hl, hr, lowByte_ioReadWord]

theorem readIo_byte_is_low_byte (s : State) : s.readIo.byte = lowByte s.readIo.v := (lowByte_ioWord s).symm

theorem ioByte_cons {s : State} {b : Byte} {r : List Byte} (hl : s.life = .ready) (h : s.rxq = b :: r) : s.ioByte = b := by
  simp [State.ioByte, hl, h]

theorem rxqAfterRead_ready {s : State} (hl : s.life = .ready) : s.rxqAfterRead = s.rxq.tail := by
  simp [State.rxqAfterRead, hl]

theorem txqAfterWrite_room {s : State} {w : Word} (hl : s.life = .ready) (h : s.txq.length < s.cfg.txDepth) :
    s.txqAfterWrite w = s.txq ++ [lowByte w] := by
  simp [State.txqAfterWrite, hl, h]

theorem txqAfterWrite_length (s : State) (w : Word) : (s.txqAfterWrite w).length ≤ s.cfg.txDepth := by
  unfold State.txqAfterWrite
  split
  · rename_i h; simp only [List.length_append, List.length_singleton]; omega
  · exact List.length_take_le _ _

theorem rxqAfterRead_length (s : State) (h : s.rxq.length ≤ s.cfg.rxDepth) : s.rxqAfterRead.length ≤ s.cfg.rxDepth := by
  unfold State.rxqAfterRead
  split
  · simp only [List.length_tail]; omega
  · exact List.length_take_le _ _

/-! ## Response, acceptance, procedures: everything each can answer -/

theorem respond_next {st : Status} {value : Word} {s t : State} (h : respond st value s = .next t) :
    t = { s with trace := .respond (responseWord st value) :: s.trace, phase := .idle } := by
  simpa [respond, State.record, State.goto] using h.symm

theorem responseWord_status_ok (value : Word) : (responseWord .ok value).extractLsb' 32 2 = 0 := by
  apply BitVec.eq_of_getLsbD_eq
  intro i hi
  rw [BitVec.getLsbD_extractLsb', responseWord, BitVec.getLsbD_append]
  simp [Status.code]

theorem responseWord_value (st : Status) (value : Word) : (responseWord st value).extractLsb' 0 32 = value := by
  apply BitVec.eq_of_getLsbD_eq
  intro i hi
  rw [BitVec.getLsbD_extractLsb', responseWord, BitVec.getLsbD_append]
  simp [hi]

/-- Acceptance answers the latched state or refuses for the lifecycle. -/
theorem accept_cases (gate : Life) (i : Instr) (first : Phase) (s : State) :
    (s.life = gate ∧ accept gate i first s = .next (s.latch i first)) ∨
      (s.life ≠ gate ∧ accept gate i first s = .refused (.lifecycle s.life)) := by
  by_cases h : s.life = gate
  · exact .inl ⟨h, by simp [accept, h]⟩
  · exact .inr ⟨h, by simp [accept, h]⟩

theorem acceptFacade_cases (i : Instr) (first : Phase) (s : State) :
    (s.cfg.hostBuild = true ∧ s.life = .ready ∧ acceptFacade i first s = .next (s.latch i first)) ∨
      (s.cfg.hostBuild = true ∧ s.life ≠ .ready ∧ acceptFacade i first s = .refused (.lifecycle s.life)) ∨
      (s.cfg.hostBuild = false ∧ acceptFacade i first s = .refused (.reservedWord .facade)) := by
  cases hb : s.cfg.hostBuild
  · exact .inr (.inr ⟨rfl, by simp [acceptFacade, hb]⟩)
  · by_cases h : s.life = .ready
    · exact .inl ⟨rfl, h, by simp [acceptFacade, accept, hb, h]⟩
    · exact .inr (.inl ⟨rfl, h, by simp [acceptFacade, accept, hb, h]⟩)

theorem txLine_t0 (b : Byte) (here : TxPoint → Phase) (ret : Phase) (s : State) :
    (s.txSpace = true ∧ txLine b here ret .t0 s = .next (s.readLsr.goto (here .t1))) ∨
      (s.txSpace = false ∧ txLine b here ret .t0 s = .next (s.readLsr.goto (here .t0))) := by
  cases h : s.txSpace <;> simp [txLine, h]

theorem rxLine_rx0 (here : RxPoint → Phase) (ret : Phase) (s : State) :
    (s.dataReady = true ∧ rxLine here ret .rx0 s = .next (s.readLsr.goto (here .rx1))) ∨
      (s.dataReady = false ∧ rxLine here ret .rx0 s = .next (s.readLsr.goto (here .rx0))) := by
  cases h : s.dataReady <;> simp [rxLine, h]

theorem waitLine_w1 (here : WaitPoint → Phase) (ok late : Phase) (s : State) :
    (s.dataReady = true ∧ waitLine here ok late .w1 s = .next (s.readLsr.goto ok)) ∨
      (s.dataReady = false ∧ s.toValid = true ∧ waitLine here ok late .w1 s = .next (s.readLsr.goto (here .w2))) ∨
      (s.dataReady = false ∧ s.toValid = false ∧ waitLine here ok late .w1 s = .next (s.readLsr.goto (here .w1))) := by
  cases h : s.dataReady <;> cases h' : s.toValid <;> simp [waitLine, h, h']

theorem waitLine_w2 (here : WaitPoint → Phase) (ok late : Phase) (s : State) :
    (expired s.t0 s.time s.toMs = true ∧ waitLine here ok late .w2 s = .next (s.sampleNow.goto late)) ∨
      (expired s.t0 s.time s.toMs = false ∧ waitLine here ok late .w2 s = .next (s.sampleNow.goto (here .w1))) := by
  cases h : expired s.t0 s.time s.toMs <;> simp [waitLine, h]

theorem loopLine_cases (value : Word) (body : Phase) (s : State) :
    (s.idx = s.arg ∧ loopLine value body s = respond .ok value s) ∨
      (s.idx ≠ s.arg ∧ loopLine value body s = .next (s.goto body)) := by
  by_cases h : s.idx = s.arg <;> simp [loopLine, h]

/-! ## One step of the machine -/

/-- Everything a step can be: the engine's, another agent's, or a refused launch. -/
theorem step_cases (s : State) :
    (s.cfg.legal = false ∧ step s = .refused .illFormedLaunch) ∨
      (s.cfg.legal = true ∧ s.sched = [] ∧ step s = engineStep (s.supply (Config.freeWord s.freeCount) [])) ∨
      (∃ u rest, s.cfg.legal = true ∧ s.sched = .engine u :: rest ∧ step s = engineStep (s.supply u rest)) ∨
      (∃ e rest, s.cfg.legal = true ∧ s.sched = .env e :: rest ∧ step s = envMove e { s with sched := rest }) := by
  cases hl : s.cfg.legal
  · exact .inl ⟨rfl, by simp [step, stepAgents, hl]⟩
  · rcases hs : s.sched with _ | ⟨_ | _, rest⟩
    · exact .inr (.inl ⟨rfl, rfl, by simp [step, stepAgents, hl, hs]⟩)
    · exact .inr (.inr (.inl ⟨_, _, rfl, rfl, by simp [step, stepAgents, hl, hs]⟩))
    · exact .inr (.inr (.inr ⟨_, _, rfl, rfl, by simp [step, stepAgents, hl, hs]⟩))

/-- Another agent's move changes one piece of state outside the engine, or is refused. -/
theorem envMove_next {e : EnvMove} {s t : State} (h : envMove e s = .next t) :
    (∃ b, e = .rx b ∧ t = s.lineReceive b) ∨ (e = .drain ∧ t = s.lineTransmit) ∨ (∃ d, e = .tick d ∧ t = s.advanceTime d) ∨
      (∃ v, e = .enbWrite v ∧ t = s.foreignEnbWrite v) ∨ (e = .enbRead ∧ t = s) ∨
      (∃ c, e = .offer c ∧ t = s.offerCommand c) ∨ (∃ i b, e = .srcSet i b ∧ t = s.changeSource i b) := by
  cases e <;> simp_all [envMove]

/-! ## Addresses -/

theorem legal_bounds {c : Config} (h : c.legal = true) :
    c.ioBase.toNat % 4 = 0 ∧ c.ioBase.toNat + 0x21506B < 2 ^ 32 ∧ 1 ≤ c.txDepth ∧ 1 ≤ c.rxDepth := by
  simp only [Config.legal, Bool.and_eq_true, beq_iff_eq, decide_eq_true_eq] at h
  omega

theorem add_const_toNat (a : Word) (k : Nat) (h : a.toNat + k < 2 ^ 32) :
    (a + BitVec.ofNat 32 k).toNat = a.toNat + k := by
  rw [BitVec.toNat_add, BitVec.toNat_ofNat, Nat.mod_eq_of_lt (show k < 2 ^ 32 by omega), Nat.mod_eq_of_lt h]

/-- The block offset plus the place in the block is the offset R64 prints, for every field. -/
theorem field_offsets :
    Field.io.offset = 0x215040#32 ∧ Field.ier.offset = 0x215044#32 ∧ Field.iir.offset = 0x215048#32 ∧
      Field.lcr.offset = 0x21504C#32 ∧ Field.mcr.offset = 0x215050#32 ∧ Field.lsr.offset = 0x215054#32 ∧
      Field.msr.offset = 0x215058#32 ∧ Field.scratch.offset = 0x21505C#32 ∧ Field.cntl.offset = 0x215060#32 ∧
      Field.stat.offset = 0x215064#32 ∧ Field.baud.offset = 0x215068#32 := by decide

/-! The addresses the engine issues, as R64 prints them. -/

theorem addr_io (c : Config) : c.addr .io = c.ioBase + 0x215040#32 := rfl
theorem addr_lsr (c : Config) : c.addr .lsr = c.ioBase + 0x215054#32 := rfl
theorem addr_lcr (c : Config) : c.addr .lcr = c.ioBase + 0x21504C#32 := rfl
theorem addr_baud (c : Config) : c.addr .baud = c.ioBase + 0x215068#32 := rfl
theorem addr_cntl (c : Config) : c.addr .cntl = c.ioBase + 0x215060#32 := rfl

theorem addr_toNat {c : Config} (h : c.legal = true) (f : Field) :
    (c.addr f).toNat = c.ioBase.toNat + f.offset.toNat := by
  have hb := (legal_bounds h).2.1
  have hf : f.offset.toNat ≤ 0x215068 := by cases f <;> decide
  have := add_const_toNat c.ioBase f.offset.toNat (by omega)
  rwa [BitVec.ofNat_toNat, BitVec.setWidth_eq] at this

/-- Distinct fields have distinct addresses. -/
theorem addr_inj {c : Config} {f g : Field} (h : c.addr f = c.addr g) : f = g := by
  have h' : f.offset = g.offset := (BitVec.add_right_inj _).mp h
  revert h'
  cases f <;> cases g <;> decide

/-- The enable switch is none of them. -/
theorem enbAddr_ne_addr (c : Config) (f : Field) : c.enbAddr ≠ c.addr f := by
  intro h
  have h' : Config.enbOffset = f.offset := (BitVec.add_right_inj _).mp h
  revert h'
  cases f <;> decide

theorem enbAddr_toNat {c : Config} (h : c.legal = true) : c.enbAddr.toNat = c.ioBase.toNat + 0x215004 := by
  have hb := (legal_bounds h).2.1
  exact add_const_toNat _ _ (by omega)

end Sys2Proof.Machine
end

