-- ==== Sys2Proof/Laws/Encoding.lean ====
section
/-! SUPPORT. The fields of an encoded instruction and of a word that decodes, and the response words in one piece: what later
proofs cite instead of unfolding `encode`, `decode` and `responseWord`. -/

namespace Sys2Proof

open Sys2Proof.Machine

theorem opcField_encode (i : Instr) : opcField (encode i) = i.opc := by
  apply BitVec.eq_of_getLsbD_eq
  intro k hk
  rw [opcField, BitVec.getLsbD_extractLsb', encode, BitVec.getLsbD_append, BitVec.getLsbD_append]
  simp [hk, show ¬(36 + k < 32) by omega, show ¬(36 + k - 32 < 4) by omega, show 36 + k - 32 - 4 = k by omega]

theorem flagsField_encode (i : Instr) : flagsField (encode i) = i.flags := by
  apply BitVec.eq_of_getLsbD_eq
  intro k hk
  rw [flagsField, BitVec.getLsbD_extractLsb', encode, BitVec.getLsbD_append, BitVec.getLsbD_append]
  simp [hk]

theorem argField_encode (i : Instr) : argField (encode i) = i.arg := by
  apply BitVec.eq_of_getLsbD_eq
  intro k hk
  rw [argField, BitVec.getLsbD_extractLsb', encode, BitVec.getLsbD_append]
  simp [hk]

/-- The three fields are the whole word (R100). -/
theorem commandWord_ext {a b : CommandWord} (h1 : opcField a = opcField b) (h2 : flagsField a = flagsField b)
    (h3 : argField a = argField b) : a = b := by
  apply BitVec.eq_of_getLsbD_eq
  intro k hk
  have e1 := congrArg (fun x => x.getLsbD (k - 36)) h1
  have e2 := congrArg (fun x => x.getLsbD (k - 32)) h2
  have e3 := congrArg (fun x => x.getLsbD k) h3
  simp only [opcField, flagsField, argField, BitVec.getLsbD_extractLsb'] at e1 e2 e3
  by_cases ha : k < 32
  · simpa [ha] using e3
  · by_cases hb : k < 36
    · simpa [show k - 32 < 4 by omega, show 32 + (k - 32) = k by omega] using e2
    · simpa [show k - 36 < 4 by omega, show 36 + (k - 36) = k by omega] using e1

theorem setWidth_of_high_zero (a : Word) (h : a.extractLsb' 8 24 = 0#24) : (a.setWidth 8).setWidth 32 = a := by
  apply BitVec.eq_of_getLsbD_eq
  intro k hk
  rw [BitVec.getLsbD_setWidth, BitVec.getLsbD_setWidth]
  by_cases hk8 : k < 8
  · simp [hk8, hk]
  · have := congrArg (fun x => x.getLsbD (k - 8)) h
    simp only [BitVec.getLsbD_extractLsb', show 8 + (k - 8) = k by omega, show k - 8 < 24 by omega] at this
    simp_all

/-- A word that decodes has the fields of the instruction it decodes to, and the instruction is one of the build. -/
theorem decode_fields {hb : Bool} {w : CommandWord} {i : Instr} (h : decode hb w = .instr i) :
    opcField w = i.opc ∧ flagsField w = i.flags ∧ argField w = i.arg ∧ i.wellFormed hb = true := by
  have ho : ∀ n : Nat, (opcField w).toNat = n → opcField w = BitVec.ofNat 4 n := by
    intro n hn; rw [← hn]; simp
  unfold decode at h
  simp only at h
  split at h
  all_goals (try (rename_i hn; have hn' := ho _ hn; rw [hn']))
  all_goals (try simp only [decodePlain, decodeSetTimeout, decodeWriteByte, decodeSized, decodeFacade] at h)
  all_goals (repeat' (split at h))
  all_goals (try (cases h))
  all_goals (simp_all [Instr.opc, Instr.flags, Instr.arg, Instr.wellFormed, Instr.isFacade, setWidth_of_high_zero])

/-- An OK response word is its value, zero-extended. -/
theorem responseWord_ok (value : Word) : responseWord .ok value = value.setWidth 34 := by
  apply BitVec.eq_of_getLsbD_eq
  intro k hk
  rw [responseWord, BitVec.getLsbD_append, BitVec.getLsbD_setWidth]
  by_cases h : k < 32
  · simp [h, hk]
  · simp [h, Status.code, BitVec.getLsbD_of_ge value k (by omega)]

theorem responseWord_ok_byte (b : Byte) : responseWord .ok (widen b) = b.setWidth 34 := by
  rw [responseWord_ok, widen]
  apply BitVec.eq_of_getLsbD_eq
  intro k hk
  rw [BitVec.getLsbD_setWidth, BitVec.getLsbD_setWidth, BitVec.getLsbD_setWidth]
  by_cases h : k < 8
  · simp [show k < 32 by omega]
  · simp [BitVec.getLsbD_of_ge b k (by omega)]

end Sys2Proof
end

