-- ==== Sys2Proof/Laws/Lines.lean ====
section
/-! SUPPORT. What the engine's step can do, said once: at a control point of an operation in progress it goes to the state
`State.line` gives, at IDLE it waits, accepts or refuses. Later proofs split on the control point and cite this instead of
unfolding `exec`. -/

namespace Sys2Proof.Machine

/-- The state a response leaves. -/
def State.answered (st : Status) (value : Word) (s : State) : State :=
  (s.record (.respond (responseWord st value))).goto .idle

/-- A line of `tx`. -/
def State.txStep (b : Byte) (here : TxPoint → Phase) (ret : Phase) (p : TxPoint) (s : State) : State :=
  match p with
  | .t0 => s.readLsr.goto (if s.txSpace then here .t1 else here .t0)
  | .t1 => (s.writeIo b).goto ret

/-- A line of `rx`. -/
def State.rxStep (here : RxPoint → Phase) (ret : Phase) (p : RxPoint) (s : State) : State :=
  match p with
  | .rx0 => s.readLsr.goto (if s.dataReady then here .rx1 else here .rx0)
  | .rx1 => s.readIo.goto ret

/-- A line of `wait`. -/
def State.waitStep (here : WaitPoint → Phase) (ok late : Phase) (p : WaitPoint) (s : State) : State :=
  match p with
  | .w0 => s.sampleStart.goto (here .w1)
  | .w1 => s.readLsr.goto (if s.dataReady then ok else if s.toValid then here .w2 else here .w1)
  | .w2 => s.sampleNow.goto (if expired s.t0 s.time s.toMs then late else here .w1)

/-- The head of a per-byte loop. -/
def State.loopStep (value : Word) (body : Phase) (s : State) : State :=
  if s.idx = s.arg then s.answered .ok value else s.goto body

/-- The state after the line at the engine's control point; at IDLE nothing is in progress and nothing changes. -/
def State.line (s : State) : State :=
  match s.phase with
  | .idle => s
  | .i0 => s.readEnb.goto .i1
  | .i1 => (s.writeEnb (lowByte s.v ||| Config.enbMask)).goto .i2
  | .i2 => (s.writeConfig .lcr Config.lcrValue).goto .i3
  | .i3 => (s.writeConfig .baud Config.baudValue).goto .i4
  | .i4 => (s.gpioSetAlt Config.firstPin Config.altFunction).goto .i5
  | .i5 => (s.gpioSetAlt Config.secondPin Config.altFunction).goto .i6
  | .i6 => (s.writeConfig .cntl Config.cntlValue).goto .i7
  | .i7 => State.answered .ok 0#32 { s with toValid := false, life := .ready }
  | .s0 => State.answered .ok 0#32 { s with toValid := s.flags.getLsbD 0, toMs := s.arg }
  | .b0 p => s.txStep (lowByte s.arg) .b0 .b1 p
  | .b1 => s.answered .ok 0#32
  | .h0 => s.readLsr.goto .h1
  | .h1 => s.answered .ok (flagValue (s.v.getLsbD 0))
  | .a0 p => s.waitStep .a0 (.a1 .ok) (.a1 .timedOut) p
  | .a1 .ok => s.answered .ok 0#32
  | .a1 .timedOut => s.answered .timedOut 0#32
  | .d0 p => s.rxStep .d0 .d1 p
  | .d1 => s.answered .ok (widen s.byte)
  | .x0 => (s.setIdx 0#32).goto .x1
  | .x1 => s.loopStep 0#32 .x2
  | .x2 => s.fetchByte.goto .x3
  | .x3 => s.goto (if s.byte = Config.lineFeed then .x3tx .t0 else .x4 .t0)
  | .x3tx p => s.txStep Config.carriageReturn .x3tx (.x4 .t0) p
  | .x4 p => s.txStep s.byte .x4 .x5 p
  | .x5 => (s.setIdx (s.idx + 1#32)).goto .x1
  | .q0 p => s.waitStep .q0 .q1 .q0timeout p
  | .q0timeout => s.answered .timedOut 0#32
  | .q1 => (s.setIdx 0#32).goto .q2
  | .q2 => s.loopStep s.idx .q3
  | .q3 => s.readLsr.goto (if s.dataReady then .q4 .rx0 else .q3done)
  | .q3done => s.answered .ok s.idx
  | .q4 p => s.rxStep .q4 .q5 p
  | .q5 => s.storeByte.goto .q6
  | .q6 => (s.setIdx (s.idx + 1#32)).goto .q2
  | .y0 => (s.setIdx 0#32).goto .y1
  | .y1 => s.loopStep s.arg .y2
  | .y2 => s.fetchByte.goto (.y3 .t0)
  | .y3 p => s.txStep s.byte .y3 .y4 p
  | .y4 => (s.setIdx (s.idx + 1#32)).goto .y1
  | .f0 => s.answered .ok 0#32

/-! The line at each control point. -/

theorem line_i0 {s : State} (h : s.phase = .i0) : s.line = s.readEnb.goto .i1 := by
  simp only [State.line, h]

theorem line_i1 {s : State} (h : s.phase = .i1) : s.line = (s.writeEnb (lowByte s.v ||| Config.enbMask)).goto .i2 := by
  simp only [State.line, h]

theorem line_i2 {s : State} (h : s.phase = .i2) : s.line = (s.writeConfig .lcr Config.lcrValue).goto .i3 := by
  simp only [State.line, h]

theorem line_i3 {s : State} (h : s.phase = .i3) : s.line = (s.writeConfig .baud Config.baudValue).goto .i4 := by
  simp only [State.line, h]

theorem line_i4 {s : State} (h : s.phase = .i4) : s.line = (s.gpioSetAlt Config.firstPin Config.altFunction).goto .i5 := by
  simp only [State.line, h]

theorem line_i5 {s : State} (h : s.phase = .i5) : s.line = (s.gpioSetAlt Config.secondPin Config.altFunction).goto .i6 := by
  simp only [State.line, h]

theorem line_i6 {s : State} (h : s.phase = .i6) : s.line = (s.writeConfig .cntl Config.cntlValue).goto .i7 := by
  simp only [State.line, h]

theorem line_i7 {s : State} (h : s.phase = .i7) :
    s.line = State.answered .ok 0#32 { s with toValid := false, life := .ready } := by
  simp only [State.line, h]

theorem line_s0 {s : State} (h : s.phase = .s0) :
    s.line = State.answered .ok 0#32 { s with toValid := s.flags.getLsbD 0, toMs := s.arg } := by
  simp only [State.line, h]

theorem line_b0 {s : State} {p : TxPoint} (h : s.phase = .b0 p) : s.line = s.txStep (lowByte s.arg) .b0 .b1 p := by
  simp only [State.line, h]

theorem line_b1 {s : State} (h : s.phase = .b1) : s.line = s.answered .ok 0#32 := by
  simp only [State.line, h]

theorem line_h0 {s : State} (h : s.phase = .h0) : s.line = s.readLsr.goto .h1 := by
  simp only [State.line, h]

theorem line_h1 {s : State} (h : s.phase = .h1) : s.line = s.answered .ok (flagValue (s.v.getLsbD 0)) := by
  simp only [State.line, h]

theorem line_a0 {s : State} {p : WaitPoint} (h : s.phase = .a0 p) :
    s.line = s.waitStep .a0 (.a1 .ok) (.a1 .timedOut) p := by
  simp only [State.line, h]

theorem line_a1_ok {s : State} (h : s.phase = .a1 .ok) : s.line = s.answered .ok 0#32 := by
  simp only [State.line, h]

theorem line_a1_timedOut {s : State} (h : s.phase = .a1 .timedOut) : s.line = s.answered .timedOut 0#32 := by
  simp only [State.line, h]

theorem line_d0 {s : State} {p : RxPoint} (h : s.phase = .d0 p) : s.line = s.rxStep .d0 .d1 p := by
  simp only [State.line, h]

theorem line_d1 {s : State} (h : s.phase = .d1) : s.line = s.answered .ok (widen s.byte) := by
  simp only [State.line, h]

theorem line_x0 {s : State} (h : s.phase = .x0) : s.line = (s.setIdx 0#32).goto .x1 := by
  simp only [State.line, h]

theorem line_x1 {s : State} (h : s.phase = .x1) : s.line = s.loopStep 0#32 .x2 := by
  simp only [State.line, h]

theorem line_x2 {s : State} (h : s.phase = .x2) : s.line = s.fetchByte.goto .x3 := by
  simp only [State.line, h]

theorem line_x3 {s : State} (h : s.phase = .x3) :
    s.line = s.goto (if s.byte = Config.lineFeed then .x3tx .t0 else .x4 .t0) := by
  simp only [State.line, h]

theorem line_x3tx {s : State} {p : TxPoint} (h : s.phase = .x3tx p) :
    s.line = s.txStep Config.carriageReturn .x3tx (.x4 .t0) p := by
  simp only [State.line, h]

theorem line_x4 {s : State} {p : TxPoint} (h : s.phase = .x4 p) : s.line = s.txStep s.byte .x4 .x5 p := by
  simp only [State.line, h]

theorem line_x5 {s : State} (h : s.phase = .x5) : s.line = (s.setIdx (s.idx + 1#32)).goto .x1 := by
  simp only [State.line, h]

theorem line_q0 {s : State} {p : WaitPoint} (h : s.phase = .q0 p) : s.line = s.waitStep .q0 .q1 .q0timeout p := by
  simp only [State.line, h]

theorem line_q0timeout {s : State} (h : s.phase = .q0timeout) : s.line = s.answered .timedOut 0#32 := by
  simp only [State.line, h]

theorem line_q1 {s : State} (h : s.phase = .q1) : s.line = (s.setIdx 0#32).goto .q2 := by
  simp only [State.line, h]

theorem line_q2 {s : State} (h : s.phase = .q2) : s.line = s.loopStep s.idx .q3 := by
  simp only [State.line, h]

theorem line_q3 {s : State} (h : s.phase = .q3) : s.line = s.readLsr.goto (if s.dataReady then .q4 .rx0 else .q3done) := by
  simp only [State.line, h]

theorem line_q3done {s : State} (h : s.phase = .q3done) : s.line = s.answered .ok s.idx := by
  simp only [State.line, h]

theorem line_q4 {s : State} {p : RxPoint} (h : s.phase = .q4 p) : s.line = s.rxStep .q4 .q5 p := by
  simp only [State.line, h]

theorem line_q5 {s : State} (h : s.phase = .q5) : s.line = s.storeByte.goto .q6 := by
  simp only [State.line, h]

theorem line_q6 {s : State} (h : s.phase = .q6) : s.line = (s.setIdx (s.idx + 1#32)).goto .q2 := by
  simp only [State.line, h]

theorem line_y0 {s : State} (h : s.phase = .y0) : s.line = (s.setIdx 0#32).goto .y1 := by
  simp only [State.line, h]

theorem line_y1 {s : State} (h : s.phase = .y1) : s.line = s.loopStep s.arg .y2 := by
  simp only [State.line, h]

theorem line_y2 {s : State} (h : s.phase = .y2) : s.line = s.fetchByte.goto (.y3 .t0) := by
  simp only [State.line, h]

theorem line_y3 {s : State} {p : TxPoint} (h : s.phase = .y3 p) : s.line = s.txStep s.byte .y3 .y4 p := by
  simp only [State.line, h]

theorem line_y4 {s : State} (h : s.phase = .y4) : s.line = (s.setIdx (s.idx + 1#32)).goto .y1 := by
  simp only [State.line, h]

theorem line_f0 {s : State} (h : s.phase = .f0) : s.line = s.answered .ok 0#32 := by
  simp only [State.line, h]

theorem txLine_next (b : Byte) (here : TxPoint → Phase) (ret : Phase) (p : TxPoint) (s : State) :
    txLine b here ret p s = .next (s.txStep b here ret p) := by cases p <;> rfl

theorem rxLine_next (here : RxPoint → Phase) (ret : Phase) (p : RxPoint) (s : State) :
    rxLine here ret p s = .next (s.rxStep here ret p) := by cases p <;> rfl

theorem waitLine_next (here : WaitPoint → Phase) (ok late : Phase) (p : WaitPoint) (s : State) :
    waitLine here ok late p s = .next (s.waitStep here ok late p) := by cases p <;> rfl

theorem loopLine_next (value : Word) (body : Phase) (s : State) :
    loopLine value body s = .next (s.loopStep value body) := by
  unfold loopLine State.loopStep; split <;> rfl

/-- A command in progress takes its line. -/
theorem exec_inProgress {s : State} {i : Instr} (h : s.inProgress = some i) : exec i s = .next s.line := by
  unfold State.inProgress at h
  unfold State.line
  split at h <;> cases h <;> rename_i hp <;>
    simp only [exec, execInit, execHasByte, execReadByte, execFlush, execWriteByte, execWriteStr, execBufRead, execBufWrite, hp,
      txLine_next, rxLine_next, waitLine_next, loopLine_next, pollLine, ite_self] <;> try rfl
  · cases hf : s.flags.getLsbD 0 <;>
      simp only [Bool.false_eq_true, if_true, if_false, execSetTimeoutMs, execSetTimeoutNone, hp, setTimeoutLine, hf] <;> rfl
  · simp only [execWaitForByte, hp, waitLine_next]
  · rename_i r; cases r <;> simp only [execWaitForByte, hp] <;> rfl

/-- Every control point but IDLE belongs to an operation in progress. -/
theorem inProgress_of_busy {s : State} (h : s.phase ≠ .idle) : ∃ i, s.inProgress = some i := by
  unfold State.inProgress
  cases hp : s.phase <;> simp_all

theorem inProgress_idle {s : State} (h : s.phase = .idle) : s.inProgress = none := by simp [State.inProgress, h]

/-- At IDLE an instruction is accepted exactly in its lifecycle state and in a build that has it. -/
theorem exec_idle {i : Instr} {s : State} (h : s.phase = .idle) :
    (i.wellFormed s.cfg.hostBuild = true ∧ s.life = lifeFor i ∧ exec i s = .next (s.latch i (firstLabel i))) ∨
      (i.wellFormed s.cfg.hostBuild = true ∧ s.life ≠ lifeFor i ∧ exec i s = .refused (.lifecycle s.life)) ∨
      (i.wellFormed s.cfg.hostBuild = false ∧ exec i s = .refused (.reservedWord .facade)) := by
  cases i <;> cases hb : s.cfg.hostBuild <;> cases hl : s.life <;>
    simp [exec, execInit, execSetTimeoutMs, execSetTimeoutNone, execWriteByte, execHasByte, execWaitForByte, execReadByte,
      execWriteStr, execBufRead, execBufWrite, execFlush, h, accept, acceptFacade, hb, hl, Instr.wellFormed, Instr.isFacade,
      lifeFor, firstLabel]

theorem engineStep_busy {s : State} (h : s.phase ≠ .idle) : engineStep s = .next s.line := by
  obtain ⟨i, hi⟩ := inProgress_of_busy h
  simp only [engineStep, hi, exec_inProgress hi]

theorem engineStep_idle {s : State} (h : s.phase = .idle) : engineStep s = acceptNext s := by
  simp only [engineStep, inProgress_idle h]

/-- Everything an engine step at IDLE can answer with a next state. -/
theorem acceptNext_next {s t : State} (hp : s.phase = .idle) (h : acceptNext s = .next t) :
    (s.cmds = [] ∧ t = s) ∨
      ∃ c rest i, s.cmds = c :: rest ∧ decode s.cfg.hostBuild c.word = .instr i ∧ i.wellFormed s.cfg.hostBuild = true ∧
        s.life = lifeFor i ∧ t = s.latch i (firstLabel i) := by
  unfold acceptNext at h
  split at h
  · rename_i hc; cases h; exact .inl ⟨hc, rfl⟩
  · rename_i c rest hc
    split at h
    · rename_i i hd
      rcases exec_idle (i := i) hp with ⟨hw, hl, he⟩ | ⟨_, _, he⟩ | ⟨_, he⟩ <;> rw [he] at h <;> cases h
      exact .inr ⟨c, rest, i, hc, hd, hw, hl, rfl⟩
    · cases h

/-- When the engine moves next, the step is the engine's. -/
theorem step_engineTurn {s e : State} (hl : s.cfg.legal = true) (he : s.engineTurn = some e) : step s = engineStep e := by
  unfold State.engineTurn at he
  rcases hs : s.sched with _ | ⟨_ | _, rest⟩ <;> simp only [hs] at he <;> cases he <;>
    simp only [step, stepAgents, hl, hs, if_true]

theorem engineTurn_supply {s e : State} (he : s.engineTurn = some e) : ∃ u rest, e = s.supply u rest := by
  unfold State.engineTurn at he
  rcases hs : s.sched with _ | ⟨_ | _, rest⟩ <;> simp only [hs] at he <;> cases he <;> exact ⟨_, _, rfl⟩

/-- Every next state of the machine: the engine waited, accepted a command or took a line, or another agent moved. -/
theorem step_next {s t : State} (h : step s = .next t) :
    s.cfg.legal = true ∧
      ((∃ e, s.engineTurn = some e ∧ s.phase = .idle ∧ s.cmds = [] ∧ t = e) ∨
       (∃ e c rest i, s.engineTurn = some e ∧ s.phase = .idle ∧ s.cmds = c :: rest ∧
          decode s.cfg.hostBuild c.word = .instr i ∧ i.wellFormed s.cfg.hostBuild = true ∧ s.life = lifeFor i ∧
          t = e.latch i (firstLabel i)) ∨
       (∃ e, s.engineTurn = some e ∧ s.phase ≠ .idle ∧ t = e.line) ∨
       (∃ m rest, s.engineTurn = none ∧ s.sched = .env m :: rest ∧ envMove m { s with sched := rest } = .next t)) := by
  rcases step_cases s with ⟨_, he⟩ | ⟨hl, hs, he⟩ | ⟨u, rest, hl, hs, he⟩ | ⟨m, rest, hl, hs, he⟩
  · rw [he] at h; cases h
  all_goals refine ⟨hl, ?_⟩; rw [he] at h
  · have ht : s.engineTurn = some (s.supply (Config.freeWord s.freeCount) []) := by simp [State.engineTurn, hs]
    by_cases hp : s.phase = .idle
    · rw [engineStep_idle (by simpa using hp)] at h
      rcases acceptNext_next (by simpa using hp) h with ⟨hc, hq⟩ | ⟨c, rest, i, hc, hd, hw, hli, hq⟩
      · exact .inl ⟨_, ht, hp, hc, hq⟩
      · exact .inr (.inl ⟨_, c, rest, i, ht, hp, hc, hd, hw, hli, hq⟩)
    · rw [engineStep_busy (by simpa using hp)] at h; cases h
      exact .inr (.inr (.inl ⟨_, ht, hp, rfl⟩))
  · have ht : s.engineTurn = some (s.supply u rest) := by simp [State.engineTurn, hs]
    by_cases hp : s.phase = .idle
    · rw [engineStep_idle (by simpa using hp)] at h
      rcases acceptNext_next (by simpa using hp) h with ⟨hc, hq⟩ | ⟨c, rest, i, hc, hd, hw, hli, hq⟩
      · exact .inl ⟨_, ht, hp, hc, hq⟩
      · exact .inr (.inl ⟨_, c, rest, i, ht, hp, hc, hd, hw, hli, hq⟩)
    · rw [engineStep_busy (by simpa using hp)] at h; cases h
      exact .inr (.inr (.inl ⟨_, ht, hp, rfl⟩))
  · exact .inr (.inr (.inr ⟨m, rest, by simp [State.engineTurn, hs], hs, h⟩))

/-! ## Runs -/

theorem run_zero (s : State) : Host.Core.run Sys2Proof.core 0 s = .next s := rfl

theorem run_succ (k : Nat) {s t : State} (h : step s = .next t) :
    Host.Core.run Sys2Proof.core (k + 1) s = Host.Core.run Sys2Proof.core k t := by
  have h' : Sys2Proof.core.step s = .next t := h
  simp only [Host.Core.run, h']

/-- A property that every step keeps holds in every state a run reaches. -/
theorem run_keeps {P : State → Prop} (hstep : ∀ s t, P s → step s = .next t → P t) :
    ∀ (k : Nat) (s t : State), P s → Host.Core.run Sys2Proof.core k s = .next t → P t := by
  intro k
  induction k with
  | zero => intro s t hs h; cases h; exact hs
  | succ k ih =>
    intro s t hs h
    cases hq : step s with
    | next s' => rw [run_succ k hq] at h; exact ih s' t (hstep s s' hs hq) h
    | fault r => exact nomatch r
    | refused r =>
      have hq' : Sys2Proof.core.step s = .refused r := hq
      simp only [Host.Core.run, hq'] at h
      cases h

/-- One engine step of a run that follows a schedule. -/
theorem following_engine (u : Word) (moves : List Move) {s : State} (hl : s.cfg.legal = true) (hp : s.phase ≠ .idle) :
    following (.engine u :: moves) s = following moves (s.supply u moves).line := by
  have hs : step (s.schedule (.engine u :: moves)) = .next (s.supply u moves).line := by
    have : (s.schedule (.engine u :: moves)).engineTurn = some (s.supply u moves) := rfl
    rw [step_engineTurn (s := s.schedule (.engine u :: moves)) hl this]
    exact engineStep_busy hp
  have hsched : ((s.supply u moves).line).schedule moves = (s.supply u moves).line := by
    unfold State.line
    cases hph : (s.supply u moves).phase <;>
      first
      | rfl
      | (rename_i p; cases p <;> rfl)
      | (simp only [State.loopStep]; split <;> rfl)
  simp only [following, List.length_cons]
  rw [run_succ _ hs, hsched]

/-- The same with the control point and the line's effect named. -/
theorem following_line (u : Word) (moves : List Move) {s t : State} (p : Phase) (hl : s.cfg.legal = true) (hp : s.phase = p)
    (hne : p ≠ .idle) (ht : (s.supply u moves).line = t) :
    following (.engine u :: moves) s = following moves t := by
  rw [following_engine u moves hl (by rw [hp]; exact hne), ht]

/-- The acceptance of the oldest offered command in such a run. -/
theorem following_accept (u : Word) (moves : List Move) {s : State} {c : Command} {rest : List Command} {i : Instr}
    (hl : s.cfg.legal = true) (hp : s.phase = .idle) (hc : s.cmds = c :: rest)
    (hd : decode s.cfg.hostBuild c.word = .instr i) (hi : s.life = lifeFor i) :
    following (.engine u :: moves) s = following moves ((s.supply u moves).latch i (firstLabel i)) := by
  have hw := (decode_fields hd).2.2.2
  have hs : step (s.schedule (.engine u :: moves)) = .next ((s.supply u moves).latch i (firstLabel i)) := by
    have : (s.schedule (.engine u :: moves)).engineTurn = some (s.supply u moves) := rfl
    rw [step_engineTurn (s := s.schedule (.engine u :: moves)) hl this,
      engineStep_idle (s := s.supply u moves) hp]
    have he : exec i (s.supply u moves) = .next ((s.supply u moves).latch i (firstLabel i)) := by
      rcases exec_idle (i := i) (s := s.supply u moves) hp with ⟨_, _, h⟩ | ⟨_, h, _⟩ | ⟨h, _⟩
      · exact h
      · exact absurd hi h
      · exact absurd (hw.symm.trans h) (by decide)
    simp only [acceptNext, State.supply_cmds, State.supply_cfg, hc, hd]
    exact he
  simp only [following, List.length_cons]
  rw [run_succ _ hs]
  rfl

/-- One move of another agent in such a run. -/
theorem following_env (m : EnvMove) (moves : List Move) {s t : State} (hl : s.cfg.legal = true)
    (h : envMove m { s with sched := moves } = .next t) :
    following (.env m :: moves) s = following moves t := by
  have hs : step (s.schedule (.env m :: moves)) = .next t := by
    rcases step_cases (s.schedule (.env m :: moves)) with ⟨h', _⟩ | ⟨_, h', _⟩ | ⟨u, rest, _, h', _⟩ | ⟨e, rest, _, h', he⟩
    · simp [State.schedule, hl] at h'
    · cases h'
    · cases h'
    · cases h'; rw [he]; exact h
  have hsched : t.schedule moves = t := by
    rcases envMove_next h with ⟨b, _, rfl⟩ | ⟨_, rfl⟩ | ⟨d, _, rfl⟩ | ⟨v, _, rfl⟩ | ⟨_, rfl⟩ | ⟨c, _, rfl⟩ | ⟨i, b, _, rfl⟩ <;>
      rfl
  simp only [following, List.length_cons]
  rw [run_succ _ hs, hsched]

theorem following_nil (s : State) : following [] s = .next (s.schedule []) := rfl

theorem alone_eq_following (us : List Word) (s : State) : alone us s = following (us.map Move.engine) s := by
  unfold alone following; rw [List.length_map]

end Sys2Proof.Machine
end

