-- ==== Sys2Proof/Laws/PerInstr.lean ====
section
/-! SUPPORT. The statement made for every instruction as syntax: its words spell its row of the opcode table. -/

namespace Sys2Proof.Laws.TableRow

/-- The word of `i` matches the mask and the pattern of its row of R103. -/
def Statement (i : Instr) : Prop := encode i &&& i.tableMask = i.tableMatch

theorem init : Statement .init := by unfold Statement; decide
theorem setTimeoutNone : Statement .setTimeoutNone := by unfold Statement; decide
theorem hasByte : Statement .hasByte := by unfold Statement; decide
theorem waitForByte : Statement .waitForByte := by unfold Statement; decide
theorem readByte : Statement .readByte := by unfold Statement; decide
theorem flush : Statement .flush := by unfold Statement; decide

/-- A row whose operand is the whole of ARG keeps the eight bits above it. -/
theorem sized (o f : BitVec 4) (n : Word) (m : CommandWord) (h : (o ++ f : BitVec 8) ++ 0#32 = m) :
    ((o ++ f) ++ n : BitVec 40) &&& 0xFF00000000#40 = m := by
  have hm : (0xFF00000000#40) = (BitVec.allOnes 8 ++ 0#32 : BitVec 40) := by decide
  rw [hm, BitVec.and_append, BitVec.and_allOnes, BitVec.and_zero, h]

theorem setTimeoutMs (ms : Word) : Statement (.setTimeoutMs ms) := by
  show ((0x1#4 ++ 0x1#4) ++ ms : BitVec 40) &&& 0xFF00000000#40 = 0x1100000000#40
  exact sized _ _ ms _ (by decide)

theorem writeStr (len : Word) : Statement (.writeStr len) := by
  show ((0x6#4 ++ 0x0#4) ++ len : BitVec 40) &&& 0xFF00000000#40 = 0x6000000000#40
  exact sized _ _ len _ (by decide)

theorem bufRead (cap : Word) : Statement (.bufRead cap) := by
  show ((0x7#4 ++ 0x0#4) ++ cap : BitVec 40) &&& 0xFF00000000#40 = 0x7000000000#40
  exact sized _ _ cap _ (by decide)

theorem bufWrite (len : Word) : Statement (.bufWrite len) := by
  show ((0x8#4 ++ 0x0#4) ++ len : BitVec 40) &&& 0xFF00000000#40 = 0x8000000000#40
  exact sized _ _ len _ (by decide)

theorem writeByte (b : Byte) : Statement (.writeByte b) := by
  revert b; unfold Statement; decide

end Sys2Proof.Laws.TableRow
end

