-- ==== Sys2Proof/Tests/Slice0.lean ====
section
/-! SUPPORT. The model's own tests, with expected values from the spec's encodings and from 95_test_vectors.md, and for every
obligation with hypotheses a concrete state that meets them, clause by clause. -/

namespace Sys2Proof.Tests

open Sys2Proof Sys2Proof.Machine

/-! ## Helpers -/

/-- The machine after INIT, with nothing waiting. -/
def ready : State := State.reset.broughtUp

/-- The machine at a control point of a running command. -/
def here (p : Phase) : State := { ready with phase := p }

/-- A command word at the command port. -/
def offered (w : CommandWord) (s : State) : State := { s with cmds := [{ word := w, src := [], dst := [] }] }

/-- The answer is a next state with this property. -/
def next (P : State → Bool) : Result → Bool
  | .next t => P t
  | .fault _ => false
  | .refused _ => false

/-- The answer is this refusal. -/
def refuses (r : Refusal) : Result → Bool
  | .refused q => q == r
  | .next _ => false
  | .fault _ => false

/-- Another launch: one slot in each FIFO, and a build without the facade. -/
def small : Config := { Config.launch with txDepth := 1, rxDepth := 1, hostBuild := false }

/-! ## WellFormed: each check refuses its ill-formed term -/

theorem test_wellFormed_refuses_bufRead : (Instr.bufRead 4).wellFormed false = false := by decide
theorem test_wellFormed_refuses_bufWrite : (Instr.bufWrite 4).wellFormed false = false := by decide
theorem test_wellFormed_refuses_flush : Instr.flush.wellFormed false = false := by decide
theorem test_wellFormed_accepts : (Instr.bufRead 4).wellFormed true = true ∧ (Instr.writeByte 0xFF).wellFormed false = true := by
  decide

/-! ## Decode: words written out from R100 to R103, OPC then FLAGS then ARG, and the reserved words of V-E15 to V-E22 -/

theorem test_decode_init : decode true (0b0000#4 ++ 0b0000#4 ++ 0x00000000#32) = .instr .init := by decide
theorem test_decode_setTimeoutMs : decode true (0b0001#4 ++ 0b0001#4 ++ 0xFFFFFFFF#32) = .instr (.setTimeoutMs 4294967295) := by
  decide
theorem test_decode_setTimeoutNone : decode true (0b0001#4 ++ 0b0000#4 ++ 0x00000000#32) = .instr .setTimeoutNone := by decide
theorem test_decode_writeByte : decode false (0b0010#4 ++ 0b0000#4 ++ 0x000000FF#32) = .instr (.writeByte 0xFF) := by decide
theorem test_decode_hasByte : decode true (0b0011#4 ++ 0b0000#4 ++ 0x00000000#32) = .instr .hasByte := by decide
theorem test_decode_waitForByte : decode true (0b0100#4 ++ 0b0000#4 ++ 0x00000000#32) = .instr .waitForByte := by decide
theorem test_decode_readByte : decode true (0b0101#4 ++ 0b0000#4 ++ 0x00000000#32) = .instr .readByte := by decide
theorem test_decode_writeStr : decode true (0b0110#4 ++ 0b0000#4 ++ 0x80000003#32) = .instr (.writeStr 0x80000003) := by decide
theorem test_decode_bufRead : decode true (0b0111#4 ++ 0b0000#4 ++ 0x0000000A#32) = .instr (.bufRead 10) := by decide
theorem test_decode_bufWrite : decode true (0b1000#4 ++ 0b0000#4 ++ 0x00000002#32) = .instr (.bufWrite 2) := by decide
theorem test_decode_flush : decode true (0b1001#4 ++ 0b0000#4 ++ 0x00000000#32) = .instr .flush := by decide
theorem test_decode_reserved : decode true 0xF000000000#40 = .reserved .opcode ∧ decode true 0x1000000005#40 = .reserved .operand ∧
    decode true 0x1300000064#40 = .reserved .flags ∧ decode true 0x3100000000#40 = .reserved .flags ∧
    decode true 0x2000000141#40 = .reserved .operand ∧ decode false 0x9000000000#40 = .reserved .facade := by decide
theorem test_encode : encode (.setTimeoutMs 0x64) = 0x1100000064#40 ∧ encode (.writeByte 0x41) = 0x2000000041#40 ∧
    encode (.bufRead 10) = 0x700000000A#40 ∧ encode .flush = 0x9000000000#40 := by decide
theorem test_decodeTableWord : decodeTableWord 40 0x1100000064 = some (.setTimeoutMs 100) ∧
    decodeTableWord 40 0xA000000000 = none := by decide

/-! ## Memory and reset -/

theorem test_memory_canonical : ((Memory.write [] 5 0xAB).write 3 1).write 5 0 = [(3, 1)] := by decide
theorem test_memory_little_endian : (Memory.write32 [] 8 0x0000010E).read 8 = 0x0E ∧
    (Memory.write32 [] 8 0x0000010E).read 9 = 0x01 := by decide
theorem test_reset : State.reset.life = .uninit ∧ State.reset.phase = .idle ∧ State.reset.toValid = false ∧
    State.reset.trace = [] ∧ State.reset.mem.wf = true ∧ State.reset.cfg.legal = true := by decide
theorem test_placed_word_runs : next (fun t => t.phase == .b0 .t0 && t.arg == 0x41)
    (step (State.reset.withFetchWord 40 0x2000000041)) = true := by decide
theorem test_placed_init_runs : next (fun t => t.phase == .i0 && t.opc == 0)
    (step (State.reset.withFetchWord 40 0x0000000000)) = true := by decide

/-! ## One step of each operation, from the vectors of 95_test_vectors.md -/

/-- V-I2: ENB reads 0x06 and is written 0x07. -/
theorem test_init_enable : next (fun t => t.enb == 0x07 && t.trace == [.memWrite 0x3F215004 1 0x07])
    (exec .init { State.reset with phase := .i1, v := 0x06 }) = true := by decide

/-- V-I6: the divisor goes to IO_BASE+0x215068 as 0x0000010E. -/
theorem test_init_baud : next (fun t => t.stored .baud == 270 && t.trace == [.memWrite 0x3F215068 4 0x0000010E])
    (exec .init { State.reset with phase := .i3 }) = true := by decide

/-- V-S2: 500 replaces 100. -/
theorem test_setTimeoutMs : next (fun t => t.toMs == 500 && t.toValid && t.trace == [.respond 0])
    (exec (.setTimeoutMs 500) { here .s0 with toValid := true, toMs := 100, flags := 1, arg := 0x1F4 }) = true := by decide

/-- V-S3: the timeout is gone. -/
theorem test_setTimeoutNone : next (fun t => t.toValid == false && t.phase == .idle)
    (exec .setTimeoutNone { here .s0 with toValid := true, toMs := 100, flags := 0, arg := 0 }) = true := by decide

/-- V-T4: LSR reads 0xFFFFFFDF, bit 5 clear: `tx` polls again. -/
theorem test_writeByte_full : next (fun t => t.phase == .b0 .t0 && t.v == 0xFFFFFFDE && t.txq == [1])
    (exec (.writeByte 0xFF) { here (.b0 .t0) with cfg := small, txq := [1], undef := 0xFFFFFFFF }) = true := by decide

/-- V-T5: a line feed is sent as it is. -/
theorem test_writeByte_sends : next (fun t => t.txq == [0x0A] && t.trace == [.memWrite 0x3F215040 4 0x0000000A])
    (exec (.writeByte 0x0A) { here (.b0 .t1) with arg := 0x0A }) = true := by decide

/-- V-H3: every bit but bit 0 set, the answer is 0. -/
theorem test_hasByte : next (fun t => t.trace == [.respond 0])
    (exec .hasByte { here .h1 with v := 0xFFFFFFFE }) = true := by decide

/-- V-W4, V-W7, V-W10: 100000 us are not past 100 ms and 100001 are; 1001 us are past 1 ms over a wrap of the counter; the
largest duration. -/
theorem test_expired : expired 1000 101000 100 = false ∧ expired 1000 101001 100 = true ∧
    expired 0xFFFFFFFFFFFFFF00 0x2E8 1 = false ∧ expired 0xFFFFFFFFFFFFFF00 0x2E9 1 = true ∧
    expired 0 4294967295000 0xFFFFFFFF = false ∧ expired 0 4294967295001 0xFFFFFFFF = true := by decide

/-- V-W9: with timeout 0 the clock has to move. -/
theorem test_wait_zero_timeout : next (fun t => t.phase == .a0 .w1)
      (exec .waitForByte { here (.a0 .w2) with toValid := true, t0 := 7, time := 7 }) = true ∧
    next (fun t => t.phase == .a1 .timedOut)
      (exec .waitForByte { here (.a0 .w2) with toValid := true, t0 := 7, time := 8 }) = true := by
  simp [exec, execWaitForByte, waitLine, here, expired, ready, State.reset, State.resetWith, PowerOn.chosen, State.broughtUp,
    State.sampleNow, State.goto, next, Config.microsPerMs]

/-- V-D2: IO reads 0xFFFFFF7A, the byte is 0x7A. -/
theorem test_readByte : next (fun t => t.v == 0xFFFFFF7A && t.byte == 0x7A && t.rxq == [])
    (exec .readByte { here (.d0 .rx1) with rxq := [0x7A], undef := 0xFFFFFFFF }) = true := by decide

/-- S-B: a line feed goes to the carriage return first. -/
theorem test_writeStr_line_feed : next (fun t => t.phase == .x3tx .t0) (exec (.writeStr 1) { here .x3 with byte := 0x0A }) = true := by
  decide

/-- V-X2: the carriage return is sent. -/
theorem test_writeStr_carriage_return : next (fun t => t.txq == [0x0D] && t.phase == .x4 .t0)
    (exec (.writeStr 1) { here (.x3tx .t1) with byte := 0x0A }) = true := by decide

/-- S-D: three bytes read, none ready, the answer is 3. -/
theorem test_bufRead_answers : next (fun t => t.trace == [.respond 3])
    (exec (.bufRead 10) { here .q3done with idx := 3, arg := 10 }) = true := by decide

/-- V-Q2: slot 1 gets byte 2. -/
theorem test_bufRead_stores : next (fun t => t.dst == [1, 2] && t.trace == [.dstWrite 1 2])
    (exec (.bufRead 2) { here .q5 with idx := 1, arg := 2, byte := 2, dst := [1, 0xEE] }) = true := by decide

/-- V-Y1: 0x0A goes out without a carriage return. -/
theorem test_bufWrite_raw : next (fun t => t.byte == 0x0A && t.phase == .y3 .t0)
    (exec (.bufWrite 2) { here .y2 with arg := 2, src := [0x0A, 0x41] }) = true := by decide

/-- V-F1: the transmit FIFO is as it was. -/
theorem test_flush : next (fun t => t.txq == [1, 2, 3] && t.trace == [.respond 0])
    (exec .flush { here .f0 with txq := [1, 2, 3] }) = true := by decide

/-- V-L1, V-L2. -/
theorem test_lifecycle : refuses (.lifecycle .uninit) (step { offered 0x3000000000 State.reset with sched := [.engine 0] }) = true ∧
    refuses (.lifecycle .ready) (step { offered 0 ready with sched := [.engine 0] }) = true := by decide

/-! ## Witnesses: states that meet the hypotheses of the obligations -/

theorem witness_RowsDisjointAndRoundTrip : Instr.init.tableMatch ≠ Instr.flush.tableMatch ∧
    (Instr.setTimeoutMs 0).tableMatch ≠ Instr.setTimeoutNone.tableMatch ∧
    (0x20000000FF#40 &&& (Instr.writeByte 0).tableMask = (Instr.writeByte 0).tableMatch) ∧
    (Instr.bufRead 0xFFFFFFFF).wellFormed true = true ∧ Instr.init.wellFormed false = true ∧
    decode false 0x11FFFFFFFF#40 = .instr (.setTimeoutMs 0xFFFFFFFF) := by decide

theorem witness_ReservedWordsAreRefused : ∃ s e : State, ∃ c : Command, s.cfg.legal = true ∧ s.engineTurn = some e ∧
    s.phase = .idle ∧ s.cmds = [c] ∧ decode s.cfg.hostBuild c.word = .reserved .opcode :=
  ⟨{ offered 0xA000000000 ready with sched := [.engine 0] }, _, _, by decide, rfl, rfl, rfl, by decide⟩

theorem witness_BuildChangesOnlyFacade : (0x6000000000#40).extractLsb' 36 4 = 6#4 ∧ (0xA000000000#40).extractLsb' 36 4 = 10#4 ∧
    (0x7000000000#40).extractLsb' 36 4 = 7#4 ∧ (0x9000000000#40).extractLsb' 36 4 = 9#4 ∧
    Instr.hasByte.isFacade = false ∧ (∃ t, exec .hasByte ready = .next t) ∧
    exec .hasByte State.reset = .refused (.lifecycle .uninit) ∧ (∃ s t : State, step s = .next t) :=
  ⟨by decide, by decide, by decide, by decide, rfl, ⟨_, rfl⟩, rfl, ⟨{ ready with sched := [.env .drain] }, _, rfl⟩⟩

/-- Full FIFOs at power-on, the boundary of the two length clauses. -/
theorem witness_ResetLeavesEngineIdle : ∃ p : PowerOn, p.rxq.length = small.rxDepth ∧ p.txq.length = small.txDepth :=
  ⟨{ PowerOn.chosen with rxq := [1], txq := [2] }, rfl, rfl⟩

theorem witness_ResetMeetsInvariant : small.legal = true ∧
    ({ PowerOn.chosen with mem := [(7, 1), (0x3F215004, 6)] } : PowerOn).mem.wf = true := by decide

theorem witness_NothingHappensBeforeInit : (∃ t, step { offered 0 State.reset with sched := [.engine 0] } = .next t ∧ t.phase = .i0) ∧
    (∃ t, step { State.reset with sched := [.env (.rx 1)] } = .next t ∧ t.phase = .idle) ∧
    (∃ e, { State.reset with sched := [.engine 0] }.engineTurn = some e) ∧ State.reset.cmds = [] :=
  ⟨⟨_, rfl, rfl⟩, ⟨_, rfl, rfl⟩, ⟨_, rfl⟩, rfl⟩

theorem witness_StepRunsTheDecodedInstruction :
    (∃ s e : State, ∃ c : Command, s.cfg.legal = true ∧ s.engineTurn = some e ∧ s.phase = .idle ∧ s.cmds = [c] ∧
      decode s.cfg.hostBuild c.word = .instr .readByte) ∧
    (∃ s e : State, s.cfg.legal = true ∧ s.engineTurn = some e ∧ s.inProgress = some (.writeByte 7)) :=
  ⟨⟨offered 0x5000000000 ready, _, _, by decide, rfl, rfl, rfl, by decide⟩,
    ⟨{ here .b1 with arg := 7, sched := [.engine 3] }, _, by decide, rfl, by decide⟩⟩

theorem witness_ScheduledAgentMoves : ∃ s : State, s.cfg.legal = true ∧ s.sched = [.env .intrude] :=
  ⟨{ ready with sched := [.env .intrude] }, by decide, rfl⟩

theorem witness_PlacedWordIsAccepted : State.reset.cfg.legal = true ∧ (Instr.flush).wellFormed State.reset.cfg.hostBuild = true ∧
    Instr.init.wellFormed State.reset.cfg.hostBuild = true := by decide

/-- The first address that is misaligned, the first that is too high, and a step with a 4-byte access. -/
theorem witness_LaunchAndAlignment :
    ({ Config.launch with ioBase := 1 } : Config).ioBase.toNat % 4 ≠ 0 ∧
    2 ^ 32 - 1 < ({ Config.launch with ioBase := 0xFFDEAF98 } : Config).ioBase.toNat + 0x21506B ∧
    ({ Config.launch with ioBase := 0xFFDEAF94 } : Config).legal = true ∧
    (∃ s t : State, ∃ a v : Word, step s = .next t ∧ t.trace = .memRead a 4 v :: s.trace) ∧
    (∃ s t : State, ∃ a v : Word, step s = .next t ∧ t.trace = .memWrite a 4 v :: s.trace) :=
  ⟨by decide, by decide, by decide, ⟨{ here .h0 with sched := [.engine 0] }, _, _, _, rfl, rfl⟩,
    ⟨{ here .i2 with sched := [.engine 0] }, _, _, _, rfl, rfl⟩⟩

theorem witness_LifecycleGate : State.reset.phase = .idle ∧ State.reset.life = .uninit ∧ ready.phase = .idle ∧
    ready.life = .ready ∧ Instr.flush ≠ .init ∧ Instr.flush.wellFormed ready.cfg.hostBuild = true := by decide

theorem witness_AcceptanceLatchesTheWord : ∃ (s : State) (c : Command), s.phase = .idle ∧ s.cmds = [c] ∧
    s.life = lifeFor (.setTimeoutMs 100) ∧ decode s.cfg.hostBuild c.word = .instr (.setTimeoutMs 100) :=
  ⟨offered 0x1100000064 ready, _, rfl, rfl, rfl, by decide⟩

theorem witness_OtherAgentsLeaveEngineAlone : ready.mem.wf = true ∧ (∃ t, envMove (.enbWrite 3) ready = .next t) ∧
    (∃ t, envMove (.offer { word := 0, src := [], dst := [] }) ready = .next t) ∧ (∃ t, envMove (.srcSet 0 1) ready = .next t) ∧
    (∃ t, envMove (.tick 5) ready = .next t) ∧ (∃ t, envMove .enbRead ready = .next t) :=
  ⟨by decide, ⟨_, rfl⟩, ⟨_, rfl⟩, ⟨_, rfl⟩, ⟨_, rfl⟩, ⟨_, rfl⟩⟩

theorem witness_InitLines : ∃ s0 s1 s2 s3 s4 s5 s6 s7 : State, s0.phase = .i0 ∧ s1.phase = .i1 ∧ s2.phase = .i2 ∧ s3.phase = .i3 ∧
    s4.phase = .i4 ∧ s5.phase = .i5 ∧ s6.phase = .i6 ∧ s7.phase = .i7 :=
  ⟨here .i0, here .i1, here .i2, here .i3, here .i4, here .i5, here .i6, here .i7, rfl, rfl, rfl, rfl, rfl, rfl, rfl, rfl⟩

theorem witness_InitBringsUpThePeripheral : State.reset.cfg.legal = true ∧ State.reset.mem.wf = true ∧
    State.reset.life = .uninit ∧ (List.replicate 9 (0 : Word)).length = 9 ∧ ready.life = .ready ∧
    (0 ≠ (State.reset.cfg.ioBase + 0x215004#32).toNat ∧ 0 < (State.reset.cfg.ioBase + 0x21504C#32).toNat ∧
      0 < (State.reset.cfg.ioBase + 0x215068#32).toNat ∧ 0 < (State.reset.cfg.ioBase + 0x215060#32).toNat) := by decide

theorem witness_EnableSwitchRace : ∃ s : State, s.cfg.legal = true ∧ s.mem.wf = true ∧ s.phase = .i0 :=
  ⟨here .i0, by decide, by decide, rfl⟩

theorem witness_SetTimeoutLine : (here .s0).phase = .s0 := rfl

theorem witness_SetTimeoutReplacesTheTimeout : ready.cfg.legal = true ∧ ready.life = .ready ∧
    ([0, 0] : List Word).length = 2 ∧ State.reset.life = .uninit := by decide

/-- The boundary is a transmit FIFO with one free slot. -/
theorem witness_WriteByteLines : ∃ s s' s'' : State, s.phase = .b0 .t0 ∧ s.life = .ready ∧ s'.phase = .b0 .t1 ∧ s'.life = .ready ∧
    s'.txq.length + 1 = s'.cfg.txDepth ∧ s''.phase = .b1 :=
  ⟨here (.b0 .t0), { here (.b0 .t1) with cfg := small }, here .b1, rfl, rfl, rfl, rfl, rfl, rfl⟩

theorem witness_WriteByteSendsTheByte : ready.cfg.legal = true ∧ ready.life = .ready ∧ ready.txq.length < ready.cfg.txDepth ∧
    ([0, 0, 0, 0] : List Word).length = 4 ∧ State.reset.life = .uninit := by decide

theorem witness_TransmitSpinsWhileFull : ∃ s : State, s.cfg.legal = true ∧ s.life = .ready ∧ s.phase.atTxPoll = true ∧
    s.cfg.txDepth ≤ s.txq.length :=
  ⟨{ here (.x3tx .t0) with cfg := small, txq := [1] }, by decide, rfl, rfl, by decide⟩

theorem witness_ByteFollowsFirstOpenPoll : ∃ s : State, s.cfg.legal = true ∧ s.life = .ready ∧ s.phase = .b0 .t0 ∧
    s.arg = (0x55#8).setWidth 32 ∧ s.txq.length = s.cfg.txDepth :=
  ⟨{ here (.b0 .t0) with cfg := small, txq := [1], arg := 0x55 }, by decide, rfl, rfl, by decide, rfl⟩

theorem witness_HasByteLines : (here .h0).phase = .h0 ∧ (here .h0).life = .ready ∧ (here .h1).phase = .h1 := by decide

theorem witness_HasByteAnswersTheFlag : ready.cfg.legal = true ∧ ready.life = .ready ∧ ([0, 0, 0] : List Word).length = 3 ∧
    State.reset.life = .uninit := by decide

theorem witness_DataReadyIsExactAndStable :
    (∃ s t : State, s.life = .ready ∧ s.rxq ≠ [] ∧ s.phase.atIoRead = false ∧ step s = .next t) ∧
    (∃ s t : State, s.life = .ready ∧ s.rxq ≠ [] ∧ s.phase = .d0 .rx1 ∧ s.engineTurn = none ∧ step s = .next t) :=
  ⟨⟨{ here .h0 with rxq := [1], sched := [.engine 0] }, _, rfl, by decide, rfl, rfl⟩,
    ⟨{ here (.d0 .rx1) with rxq := [1], sched := [.env (.rx 2)] }, _, rfl, by decide, rfl, rfl, rfl⟩⟩

theorem witness_TxSpaceIsExactAndStable :
    (∃ s t : State, s.life = .ready ∧ s.txq.length < s.cfg.txDepth ∧ s.phase.atIoWrite = false ∧ step s = .next t) ∧
    (∃ s t : State, s.life = .ready ∧ s.txq.length < s.cfg.txDepth ∧ s.phase = .b0 .t1 ∧ s.engineTurn = none ∧
      step s = .next t) ∧ ((1 : Nat) ≠ 0 ∧ (1 : Nat) ≠ 5) :=
  ⟨⟨{ here .h0 with sched := [.engine 0] }, _, rfl, by decide, rfl, rfl⟩,
    ⟨{ here (.b0 .t1) with txq := [1], sched := [.env .drain] }, _, rfl, by decide, rfl, rfl, rfl⟩, by decide⟩

/-- The largest duration, from a start as late as its deadline allows. -/
theorem witness_DeadlineTest : ((2 ^ 64 - 1 - 4294967295000 : Nat)) + (0xFFFFFFFF#32).toNat * 1000 < 2 ^ 64 ∧
    (0#64).toNat ≤ (0#64).toNat := by decide

theorem witness_WaitForByteLines : (here (.a0 .w0)).phase = .a0 .w0 ∧ (here (.a0 .w1)).phase = .a0 .w1 ∧
    (here (.a0 .w1)).life = .ready ∧ (here (.a0 .w2)).phase = .a0 .w2 ∧ (here (.a1 .ok)).phase = .a1 .ok ∧
    (here (.a1 .timedOut)).phase = .a1 .timedOut := by decide

theorem witness_ReadyByteBeatsAnyDeadline : ∃ s : State, s.cfg.legal = true ∧ s.life = .ready ∧ s.rxq ≠ [] :=
  ⟨{ ready with rxq := [1] }, by decide, rfl, by decide⟩

/-- Both clauses, at elapsed time exactly the duration and one more. -/
theorem witness_WaitTimesOutPastTheDeadline : ∃ s : State, s.cfg.legal = true ∧ s.life = .ready ∧ s.rxq = [] ∧ s.toValid = true ∧
    s.toMs.toNat * 1000 < (100001#64).toNat ∧ (100000#64).toNat ≤ s.toMs.toNat * 1000 :=
  ⟨{ ready with toValid := true, toMs := 100 }, by decide, rfl, rfl, rfl, by decide, by decide⟩

theorem witness_UnboundedWaitOnlyPolls : ∃ s : State, s.cfg.legal = true ∧ s.life = .ready ∧
    s.phase ∈ [Phase.a0 .w1, .q0 .w1] ∧ s.toValid = false ∧ s.rxq = [] :=
  ⟨here (.q0 .w1), by decide, rfl, by decide, rfl, rfl⟩

theorem witness_OnlyTwoOperationsTimeOut : (∃ s t : State, step s = .next t ∧ t.trace = .respond 0x100000000#34 :: s.trace) ∧
    (∃ s t : State, step s = .next t ∧ t.trace = .respond 0x000000000#34 :: s.trace) :=
  ⟨⟨{ here .q0timeout with sched := [.engine 0] }, _, rfl, rfl⟩, ⟨{ here .f0 with sched := [.engine 0] }, _, rfl, rfl⟩⟩

/-- WAIT_FOR_BYTE between a deadline test and its answer. -/
def late : State :=
  { here (.a1 .timedOut) with opc := 4, toValid := true, toMs := 0, t0 := 0, now := 1, sched := [.engine 0] }

theorem late_inv : late.Inv where
  launch := by decide
  memory := by decide
  txBound := by decide
  rxBound := by decide
  lifecycle := by intro l h; cases h; rfl
  latched := by intro i h; cases h; decide
  configured := ⟨fun _ => by decide, fun _ => by decide, fun _ => by decide, fun _ => rfl, fun _ => rfl, fun _ => by decide⟩
  room := by decide
  waiting := by decide
  firstByte := by decide
  notNone := by decide
  atHead := by decide
  inBody := by decide
  deadline := by decide
  late := by decide

/-- The same one step earlier, at the time sample. -/
def sampling : State :=
  { here (.a0 .w2) with opc := 4, toValid := true, toMs := 0, t0 := 0, time := 1, sched := [.engine 0] }

theorem sampling_inv : sampling.Inv where
  launch := by decide
  memory := by decide
  txBound := by decide
  rxBound := by decide
  lifecycle := by intro l h; cases h; rfl
  latched := by intro i h; cases h; decide
  configured := ⟨fun _ => by decide, fun _ => by decide, fun _ => by decide, fun _ => rfl, fun _ => rfl, fun _ => by decide⟩
  room := by decide
  waiting := by decide
  firstByte := by decide
  notNone := by decide
  atHead := by decide
  inBody := by decide
  deadline := by decide
  late := by decide

theorem witness_TimeoutOnlyWhenExpired :
    (∃ t, late.Inv ∧ step late = .next t ∧ t.trace = .respond 0x100000000#34 :: late.trace ∧
      (0x100000000#34).extractLsb' 32 2 ≠ 0#2) ∧
    (∃ t, sampling.Inv ∧ step sampling = .next t ∧ sampling.phase.isTimeout = false ∧ t.phase.isTimeout = true) ∧
    (∃ s t : State, step s = .next t ∧ s.phase.atDeadline = false ∧ t.phase.atDeadline = true) ∧
    (∃ s e : State, s.cfg.legal = true ∧ s.engineTurn = some e ∧ s.phase ∈ [Phase.a0 .w1, .q0 .w1] ∧ s.life = .ready ∧
      s.toValid = true ∧ s.rxq = []) ∧
    (∃ e : State, sampling.cfg.legal = true ∧ sampling.engineTurn = some e ∧ sampling.phase.atDeadline = true ∧
      sampling.toMs.toNat * 1000 < (sampling.time - sampling.t0).toNat) ∧
    (∃ e : State, late.cfg.legal = true ∧ late.engineTurn = some e ∧ late.phase.isTimeout = true) :=
  ⟨⟨_, late_inv, rfl, rfl, by decide⟩, ⟨_, sampling_inv, rfl, rfl, rfl⟩,
    ⟨{ here (.a0 .w1) with toValid := true, sched := [.engine 0] }, _, rfl, rfl, rfl⟩,
    ⟨{ here (.q0 .w1) with toValid := true, sched := [.engine 0] }, _, by decide, rfl, by decide, rfl, rfl, rfl⟩,
    ⟨_, by decide, rfl, rfl, by decide⟩, ⟨_, by decide, rfl, rfl⟩⟩

theorem witness_ReadByteLines : ∃ s s' : State, s.phase = .d0 .rx0 ∧ s.life = .ready ∧ s'.phase = .d0 .rx1 ∧ s'.life = .ready ∧
    s'.rxq = [1] ∧ (here .d1).phase = .d1 :=
  ⟨here (.d0 .rx0), { here (.d0 .rx1) with rxq := [1] }, rfl, rfl, rfl, rfl, rfl, rfl⟩

theorem witness_ReadByteTakesTheOldest : ∃ s : State, s.cfg.legal = true ∧ s.life = .ready ∧ s.rxq = [0x31, 0x32] ∧
    ([0, 0, 0, 0] : List Word).length = 4 ∧ State.reset.life = .uninit :=
  ⟨{ ready with rxq := [0x31, 0x32] }, by decide, rfl, rfl, rfl, rfl⟩

theorem witness_ReceiveSpinsWhileEmpty : ∃ s : State, s.cfg.legal = true ∧ s.life = .ready ∧ s.phase = .d0 .rx0 ∧ s.rxq = [] :=
  ⟨here (.d0 .rx0), by decide, rfl, rfl, rfl⟩

/-- The loop head is met with the index at the length and below it; the source byte exists and does not. -/
theorem witness_WriteStrLines : ∃ s : State, s.phase = .x1 ∧ s.idx = s.arg ∧ { s with arg := 1 }.idx ≠ { s with arg := 1 }.arg ∧
    { s with src := [7] }.src[s.idx.toNat]? = some 7 ∧ (here .x0).phase = .x0 ∧ (here .x2).phase = .x2 ∧ (here .x3).phase = .x3 ∧
    (here (.x3tx .t0)).phase = .x3tx .t0 ∧ (here (.x3tx .t1)).txq.length < (here (.x3tx .t1)).cfg.txDepth ∧
    (here (.x4 .t0)).life = .ready ∧ (here (.x4 .t1)).txq.length < (here (.x4 .t1)).cfg.txDepth ∧ (here .x5).phase = .x5 :=
  ⟨here .x1, rfl, rfl, by decide, rfl, rfl, rfl, rfl, rfl, by decide, rfl, by decide, rfl⟩

/-- A line feed sent by WRITE_STR, up to its answer. -/
def oneLineFeed : State := { here .x0 with arg := 1, src := [0x0A], sched := List.replicate 10 (.engine 0) }

theorem witness_WriteStrSendsNormalizedText : ∃ t r w, oneLineFeed.life = .ready ∧ oneLineFeed.phase = .x0 ∧
    oneLineFeed.arg.toNat = oneLineFeed.src.length ∧ (∀ m ∈ oneLineFeed.sched, keepsSource m = true) ∧
    Host.Core.run Sys2Proof.core 10 oneLineFeed = .next t ∧ t.trace = .respond w :: (r ++ oneLineFeed.trace) ∧
    (∀ x ∈ r, x.isResponse = false) := by
  refine ⟨_, [_, _, _, _, _], _, rfl, rfl, rfl, by decide, rfl, rfl, ?_⟩
  intro x hx
  simp only [List.mem_cons, List.not_mem_nil, or_false] at hx
  rcases hx with rfl | rfl | rfl | rfl | rfl <;> rfl

theorem witness_WriteStrCompletes : ∃ s : State, s.cfg.legal = true ∧ s.life = .ready ∧ s.phase = .x0 ∧
    s.arg.toNat = s.src.length ∧ s.txq.length + (normalize s.src).length ≤ s.cfg.txDepth ∧
    (List.replicate 10 (0 : Word)).length = 2 + 4 * s.src.length + 2 * (normalize s.src).length :=
  ⟨oneLineFeed, by decide, rfl, rfl, rfl, by decide, by decide⟩

theorem witness_BufReadLines : ∃ s : State, s.phase = .q2 ∧ s.idx = s.arg ∧ { s with arg := 1 }.idx ≠ { s with arg := 1 }.arg ∧
    (here (.q0 .w0)).phase = .q0 .w0 ∧ (here (.q0 .w1)).life = .ready ∧ (here (.q0 .w2)).phase = .q0 .w2 ∧
    (here .q0timeout).phase = .q0timeout ∧ (here .q1).phase = .q1 ∧ (here .q3).life = .ready ∧ (here .q3done).phase = .q3done ∧
    (here (.q4 .rx0)).life = .ready ∧ { here (.q4 .rx1) with rxq := [1] }.rxq = [1] ∧ (here .q5).phase = .q5 ∧
    (here .q6).phase = .q6 :=
  ⟨here .q2, rfl, rfl, by decide, rfl, rfl, rfl, rfl, rfl, rfl, rfl, rfl, rfl, rfl, rfl⟩

/-- A buffer that fills, and a buffer that does not (S-D has capacity 10 and 3 bytes). -/
theorem witness_BufReadDrainsReadyBytes : ∃ s s' : State, s.cfg.legal = true ∧ s.life = .ready ∧ s.phase = .q0 .w0 ∧ s.rxq ≠ [] ∧
    s.arg.toNat = s.dst.length ∧ 2 = min s.arg.toNat s.rxq.length ∧ 2 = s.arg.toNat ∧
    s'.cfg.legal = true ∧ s'.life = .ready ∧ s'.phase = .q0 .w0 ∧ s'.rxq ≠ [] ∧
    s'.arg.toNat = s'.dst.length ∧ 3 = min s'.arg.toNat s'.rxq.length ∧ 3 < s'.arg.toNat :=
  ⟨{ here (.q0 .w0) with rxq := [1, 2, 3], dst := [0xEE, 0xEE], arg := 2 },
    { here (.q0 .w0) with rxq := [1, 2, 3], dst := List.replicate 10 0xEE, arg := 10 },
    by decide, rfl, rfl, by decide, rfl, by decide, rfl, by decide, rfl, rfl, by decide, rfl, by decide, by decide⟩

theorem witness_BufReadTimeoutTouchesNothing : ∃ s : State, s.cfg.legal = true ∧ s.life = .ready ∧ s.phase = .q0 .w0 ∧ s.rxq = [] ∧
    s.toValid = true ∧ s.toMs.toNat * 1000 < (100001#64).toNat :=
  ⟨{ here (.q0 .w0) with toValid := true, toMs := 100 }, by decide, rfl, rfl, rfl, rfl, by decide⟩

theorem witness_BufWriteLines : ∃ s : State, s.phase = .y1 ∧ s.idx = s.arg ∧ { s with arg := 1 }.idx ≠ { s with arg := 1 }.arg ∧
    { s with src := [7] }.src[s.idx.toNat]? = some 7 ∧ (here .y0).phase = .y0 ∧ (here .y2).phase = .y2 ∧
    (here (.y3 .t0)).life = .ready ∧ (here (.y3 .t1)).txq.length < (here (.y3 .t1)).cfg.txDepth ∧ (here .y4).phase = .y4 :=
  ⟨here .y1, rfl, rfl, by decide, rfl, rfl, rfl, rfl, by decide, rfl⟩

/-- One byte sent by BUF_WRITE, up to its answer. -/
def oneByte : State := { here .y0 with arg := 1, src := [0x0A], sched := List.replicate 7 (.engine 0) }

theorem witness_BufWriteSendsEveryByte : ∃ t r w, oneByte.life = .ready ∧ oneByte.phase = .y0 ∧
    oneByte.arg.toNat = oneByte.src.length ∧ (∀ m ∈ oneByte.sched, keepsSource m = true) ∧
    Host.Core.run Sys2Proof.core 7 oneByte = .next t ∧ t.trace = .respond w :: (r ++ oneByte.trace) ∧
    (∀ x ∈ r, x.isResponse = false) := by
  refine ⟨_, [_, _, _], _, rfl, rfl, rfl, by decide, rfl, rfl, ?_⟩
  intro x hx
  simp only [List.mem_cons, List.not_mem_nil, or_false] at hx
  rcases hx with rfl | rfl | rfl <;> rfl

theorem witness_BufWriteCompletes : ∃ s : State, s.cfg.legal = true ∧ s.life = .ready ∧ s.phase = .y0 ∧
    s.arg.toNat = s.src.length ∧ s.txq.length + s.src.length ≤ s.cfg.txDepth ∧
    (List.replicate 7 (0 : Word)).length = 2 + 5 * s.src.length :=
  ⟨oneByte, by decide, rfl, rfl, rfl, by decide, by decide⟩

theorem witness_FlushDoesNothing : (here .f0).phase = .f0 ∧ ready.cfg.legal = true ∧ ready.cfg.hostBuild = true ∧
    ready.life = .ready ∧ ([0, 0] : List Word).length = 2 ∧ small.hostBuild = false ∧ State.reset.cfg.hostBuild = true ∧
    State.reset.life = .uninit := by decide

/-- The boundaries: one free slot, none. -/
theorem witness_LineReceive : (ready.rxq.length < small.rxDepth) ∧ small.rxDepth ≤ ([1] : List Byte).length ∧
    (∃ s : State, s.life = .ready ∧ s.rxq = [1] ∧ s.phase = .d0 .rx1) :=
  ⟨by decide, by decide, ⟨{ here (.d0 .rx1) with rxq := [1] }, rfl, rfl, rfl⟩⟩

theorem witness_LineTransmit : (∃ s : State, s.txq = [1]) ∧ ready.txq = [] := ⟨⟨{ ready with txq := [1] }, rfl⟩, rfl⟩

theorem witness_MemoryFrame : (∃ t, exec .init (here .i1) = .next t) ∧ (∃ t, exec .init (here .i2) = .next t) ∧
    (∃ t, exec .init (here .i3) = .next t) ∧ (∃ t, exec .init (here .i6) = .next t) ∧
    (∃ t, exec (.writeByte 1) (here (.b0 .t1)) = .next t) ∧
    (0 ≠ (Config.launch.ioBase + 0x215004#32).toNat ∧
      (Config.launch.ioBase + 0x21504C#32).toNat - 1 < (Config.launch.ioBase + 0x21504C#32).toNat ∧
      (Config.launch.ioBase + 0x215068#32).toNat + 3 < (Config.launch.ioBase + 0x215068#32).toNat + 4) :=
  ⟨⟨_, rfl⟩, ⟨_, rfl⟩, ⟨_, rfl⟩, ⟨_, rfl⟩, ⟨_, rfl⟩, by decide⟩

/-- For each clause a line that changes what the clause is about. -/
theorem witness_EachRegisterHasItsWriters :
    next (fun t => t.life == .ready) (exec .init { State.reset with phase := .i7 }) = true ∧
    next (fun t => t.toValid && t.toMs == 5) (exec (.setTimeoutMs 5) { here .s0 with flags := 1, arg := 5 }) = true ∧
    next (fun t => t.opc == 2 && t.arg == 7 && t.cmds.isEmpty) (exec (.writeByte 7) (offered 0x2000000007 ready)) = true ∧
    next (fun t => t.dst == [9]) (exec (.bufRead 1) { here .q5 with byte := 9, dst := [0], arg := 1 }) = true ∧
    next (fun t => t.byte == 1 && t.rxq.isEmpty) (exec .readByte { here (.d0 .rx1) with rxq := [1] }) = true ∧
    next (fun t => t.v.getLsbD 5) (exec (.writeByte 7) (here (.b0 .t0))) = true ∧
    next (fun t => t.t0 == 3) (exec .waitForByte { here (.a0 .w0) with time := 3 }) = true ∧
    next (fun t => t.idx == 1) (exec (.writeStr 1) { here .x5 with arg := 1 }) = true ∧
    next (fun t => t.txq == [7]) (exec (.writeByte 7) { here (.b0 .t1) with arg := 7 }) = true ∧
    next (fun t => t.pin14 == .alt 5) (exec .init { State.reset with phase := .i4 }) = true := by decide

/-- SET_TIMEOUT at its line, in a state that meets the invariant. -/
def setting : State := { here .s0 with opc := 1, flags := 1, arg := 5, sched := [.engine 0] }

theorem setting_inv : setting.Inv where
  launch := by decide
  memory := by decide
  txBound := by decide
  rxBound := by decide
  lifecycle := by intro l h; cases h; rfl
  latched := by intro i h; cases h; decide
  configured := ⟨fun _ => by decide, fun _ => by decide, fun _ => by decide, fun _ => rfl, fun _ => rfl, fun _ => by decide⟩
  room := by decide
  waiting := by decide
  firstByte := by decide
  notNone := by decide
  atHead := by decide
  inBody := by decide
  deadline := by decide
  late := by decide

theorem witness_TimeoutAndLifecycleRules :
    (∃ s t : State, step s = .next t ∧ s.life = .ready) ∧
    (∃ t : State, step setting = .next t ∧ setting.Inv ∧ setting.life = .ready ∧ t.toValid ≠ setting.toValid) ∧
    (∃ s t : State, step s = .next t ∧ t.toValid ≠ s.toValid) ∧
    (∃ s t : State, step s = .next t ∧ t.life ≠ s.life) :=
  ⟨⟨{ here .h0 with sched := [.engine 0] }, _, rfl, rfl⟩, ⟨_, rfl, setting_inv, rfl, by decide⟩,
    ⟨{ here .s0 with flags := 1, sched := [.engine 0] }, _, rfl, by decide⟩,
    ⟨{ State.reset with phase := .i7, sched := [.engine 0] }, _, rfl, by decide⟩⟩

theorem witness_StepKeepsInvariant : (∃ t, late.Inv ∧ step late = .next t) ∧ (∃ t, sampling.Inv ∧ step sampling = .next t) :=
  ⟨⟨_, late_inv, rfl⟩, ⟨_, sampling_inv, rfl⟩⟩

/-- INIT alone, from reset: READY after nine steps. -/
theorem witness_ConfiguredStateStands : ∃ t, Config.launch.legal = true ∧ PowerOn.chosen.mem.wf = true ∧
    Host.Core.run Sys2Proof.core 9 { State.resetWith Config.launch PowerOn.chosen with
      cmds := [{ word := 0, src := [], dst := [] }], sched := List.replicate 9 (.engine 0) } = .next t ∧ t.life = .ready :=
  ⟨_, by decide, by decide, rfl, rfl⟩

/-- A poll that saw the flag stands before the IO write and before the IO read. -/
theorem witness_EveryIoAccessIsGated :
    (∃ s t : State, Gated s.cfg s.trace ∧ s.phase.atIoWrite = true ∧ JustPolled s.cfg 5 s.trace ∧ step s = .next t) ∧
    (∃ s t : State, Gated s.cfg s.trace ∧ s.phase.atIoRead = true ∧ JustPolled s.cfg 0 s.trace ∧ step s = .next t) ∧
    (∃ t, Host.Core.run Sys2Proof.core 1 { State.resetWith Config.launch PowerOn.chosen with
      cmds := [], sched := [.env (.rx 1)] } = .next t) :=
  ⟨⟨{ here (.b0 .t1) with trace := [.memRead (Config.launch.addr .lsr) 4 0x20], sched := [.engine 0] }, _,
      ⟨nofun, fun h => absurd (show Config.launch.addr .lsr = Config.launch.addr .io from h) (by decide), trivial⟩, rfl,
      ⟨_, _, rfl, rfl, rfl, by decide⟩, rfl⟩,
    ⟨{ here (.d0 .rx1) with trace := [.memRead (Config.launch.addr .lsr) 4 0x21], rxq := [1], sched := [.engine 0] }, _,
      ⟨nofun, fun h => absurd (show Config.launch.addr .lsr = Config.launch.addr .io from h) (by decide), trivial⟩, rfl,
      ⟨_, _, rfl, rfl, rfl, by decide⟩, rfl⟩, ⟨_, rfl⟩⟩

theorem witness_UnspecifiedLatchesNeverObserved :
    (∃ s t : State, s.phase = .idle ∧ s.toValid = false ∧ Host.Core.run Sys2Proof.core 2 s = .next t) ∧
    (∃ s : State, s.phase = .idle ∧ s.toValid = false ∧
      Host.Core.run Sys2Proof.core 1 s = .refused (.reservedWord .opcode)) :=
  ⟨⟨{ offered 0x3000000000 ready with sched := [.engine 0, .engine 0] }, _, rfl, rfl, rfl⟩,
    ⟨{ offered 0xA000000000 ready with sched := [.engine 0] }, rfl, rfl, rfl⟩⟩

theorem witness_OnlyListedTransactions : (∃ t, step { here (.b0 .t1) with sched := [.engine 0] } = .next t) ∧
    (∃ s t : State, ∃ i : Word, ∃ b : Byte, step s = .next t ∧ t.trace = .srcByte i b :: s.trace) ∧
    (∃ s t : State, ∃ i : Word, ∃ b : Byte, step s = .next t ∧ t.trace = .dstWrite i b :: s.trace) :=
  ⟨⟨_, rfl⟩, ⟨{ here .y2 with src := [7], arg := 1, sched := [.engine 0] }, _, _, _, rfl, rfl⟩,
    ⟨{ here .q5 with dst := [7], arg := 1, sched := [.engine 0] }, _, _, _, rfl, rfl⟩⟩

theorem witness_EngineIsNeverStuck : (here .q5).inProgress = some (.bufRead 0) ∧
    (∃ s : State, step s = .refused .illFormedLaunch) ∧ (∃ s : State, step s = .refused .ownershipViolated) ∧
    (∃ s : State, step s = .refused (.reservedWord .opcode)) ∧ (∃ s : State, step s = .refused (.lifecycle .uninit)) :=
  ⟨by decide, ⟨{ ready with cfg := { Config.launch with ioBase := 2 } }, rfl⟩, ⟨{ ready with sched := [.env .intrude] }, rfl⟩,
    ⟨{ offered 0xA000000000 ready with sched := [.engine 0] }, rfl⟩,
    ⟨{ offered 0x5000000000 State.reset with sched := [.engine 0] }, rfl⟩⟩

end Sys2Proof.Tests
end

/-! SUPPORT. What one line of the engine does to the state, said once as a relation (`State.Effect`): every line is one such
effect and a move to the next control point. Frames and the list of transactions are read off the relation, with no second
split on the control points. -/

namespace Sys2Proof.Machine

/-- The effect of one line on everything but the control point, with the control points it is limited to where a rule limits
it. -/
inductive State.Effect (s : State) : State → Prop
  | none : Effect s s
  | index (i : Word) : Effect s (s.setIdx i)
  | poll : Effect s s.readLsr
  | sendIo (b : Byte) (h : s.phase.atIoWrite = true) : Effect s (s.writeIo b)
  | takeIo (h : s.phase.atIoRead = true) : Effect s s.readIo
  | startTime : Effect s s.sampleStart
  | sampleTime : Effect s s.sampleNow
  | fetch : Effect s s.fetchByte
  | store : Effect s s.storeByte
  | answer (st : Status) (value : Word) : Effect s (s.record (.respond (responseWord st value)))
  | readEnable (h : s.phase = .i0) : Effect s s.readEnb
  | writeEnable (h : s.phase = .i1) : Effect s (s.writeEnb (lowByte s.v ||| Config.enbMask))
  | writeLcr (h : s.phase = .i2) : Effect s (s.writeConfig .lcr Config.lcrValue)
  | writeBaud (h : s.phase = .i3) : Effect s (s.writeConfig .baud Config.baudValue)
  | setPin14 (h : s.phase = .i4) : Effect s (s.gpioSetAlt Config.firstPin Config.altFunction)
  | setPin15 (h : s.phase = .i5) : Effect s (s.gpioSetAlt Config.secondPin Config.altFunction)
  | writeCntl (h : s.phase = .i6) : Effect s (s.writeConfig .cntl Config.cntlValue)
  | finishInit (h : s.phase = .i7) :
      Effect s (State.record (.respond (responseWord .ok 0#32)) { s with toValid := false, life := .ready })
  | setTimeout (h : s.phase = .s0) :
      Effect s (State.record (.respond (responseWord .ok 0#32)) { s with toValid := s.flags.getLsbD 0, toMs := s.arg })

theorem txStep_effect {s : State} (b : Byte) (here : TxPoint → Phase) (ret : Phase) {p : TxPoint}
    (h : p = .t1 → s.phase.atIoWrite = true) : ∃ e q, s.Effect e ∧ s.txStep b here ret p = e.goto q := by
  cases p with
  | t0 => exact ⟨_, _, .poll, rfl⟩
  | t1 => exact ⟨_, _, .sendIo b (h rfl), rfl⟩

theorem rxStep_effect {s : State} (here : RxPoint → Phase) (ret : Phase) {p : RxPoint}
    (h : p = .rx1 → s.phase.atIoRead = true) : ∃ e q, s.Effect e ∧ s.rxStep here ret p = e.goto q := by
  cases p with
  | rx0 => exact ⟨_, _, .poll, rfl⟩
  | rx1 => exact ⟨_, _, .takeIo (h rfl), rfl⟩

theorem waitStep_effect (s : State) (here : WaitPoint → Phase) (ok late : Phase) (p : WaitPoint) :
    ∃ e q, s.Effect e ∧ s.waitStep here ok late p = e.goto q := by
  cases p with
  | w0 => exact ⟨_, _, .startTime, rfl⟩
  | w1 => exact ⟨_, _, .poll, rfl⟩
  | w2 => exact ⟨_, _, .sampleTime, rfl⟩

theorem loopStep_effect (s : State) (value : Word) (body : Phase) :
    ∃ e q, s.Effect e ∧ s.loopStep value body = e.goto q := by
  unfold State.loopStep
  split
  · exact ⟨_, _, .answer .ok value, rfl⟩
  · exact ⟨_, _, .none, rfl⟩

/-- Every line of the engine is one effect and a move of the control point. -/
theorem line_effect (s : State) : ∃ e q, s.Effect e ∧ s.line = e.goto q := by
  cases hp : s.phase with
  | idle => exact ⟨s, .idle, .none, by simp only [State.line, State.goto, hp]; rw [← hp]⟩
  | i0 => exact ⟨_, _, .readEnable hp, line_i0 hp⟩
  | i1 => exact ⟨_, _, .writeEnable hp, line_i1 hp⟩
  | i2 => exact ⟨_, _, .writeLcr hp, line_i2 hp⟩
  | i3 => exact ⟨_, _, .writeBaud hp, line_i3 hp⟩
  | i4 => exact ⟨_, _, .setPin14 hp, line_i4 hp⟩
  | i5 => exact ⟨_, _, .setPin15 hp, line_i5 hp⟩
  | i6 => exact ⟨_, _, .writeCntl hp, line_i6 hp⟩
  | i7 => exact ⟨_, _, .finishInit hp, line_i7 hp⟩
  | s0 => exact ⟨_, _, .setTimeout hp, line_s0 hp⟩
  | b0 p => rw [line_b0 hp]; exact txStep_effect _ _ _ (by rintro rfl; rw [hp]; rfl)
  | b1 => exact ⟨_, _, .answer _ _, line_b1 hp⟩
  | h0 => exact ⟨_, _, .poll, line_h0 hp⟩
  | h1 => exact ⟨_, _, .answer _ _, line_h1 hp⟩
  | a0 p => rw [line_a0 hp]; exact waitStep_effect s _ _ _ p
  | a1 r =>
    cases r with
    | ok => exact ⟨_, _, .answer _ _, line_a1_ok hp⟩
    | timedOut => exact ⟨_, _, .answer _ _, line_a1_timedOut hp⟩
  | d0 p => rw [line_d0 hp]; exact rxStep_effect _ _ (by rintro rfl; rw [hp]; rfl)
  | d1 => exact ⟨_, _, .answer _ _, line_d1 hp⟩
  | x0 => exact ⟨_, _, .index _, line_x0 hp⟩
  | x1 => rw [line_x1 hp]; exact loopStep_effect s _ _
  | x2 => exact ⟨_, _, .fetch, line_x2 hp⟩
  | x3 => exact ⟨_, _, .none, line_x3 hp⟩
  | x3tx p => rw [line_x3tx hp]; exact txStep_effect _ _ _ (by rintro rfl; rw [hp]; rfl)
  | x4 p => rw [line_x4 hp]; exact txStep_effect _ _ _ (by rintro rfl; rw [hp]; rfl)
  | x5 => exact ⟨_, _, .index _, line_x5 hp⟩
  | q0 p => rw [line_q0 hp]; exact waitStep_effect s _ _ _ p
  | q0timeout => exact ⟨_, _, .answer _ _, line_q0timeout hp⟩
  | q1 => exact ⟨_, _, .index _, line_q1 hp⟩
  | q2 => rw [line_q2 hp]; exact loopStep_effect s _ _
  | q3 => exact ⟨_, _, .poll, line_q3 hp⟩
  | q3done => exact ⟨_, _, .answer _ _, line_q3done hp⟩
  | q4 p => rw [line_q4 hp]; exact rxStep_effect _ _ (by rintro rfl; rw [hp]; rfl)
  | q5 => exact ⟨_, _, .store, line_q5 hp⟩
  | q6 => exact ⟨_, _, .index _, line_q6 hp⟩
  | y0 => exact ⟨_, _, .index _, line_y0 hp⟩
  | y1 => rw [line_y1 hp]; exact loopStep_effect s _ _
  | y2 => exact ⟨_, _, .fetch, line_y2 hp⟩
  | y3 p => rw [line_y3 hp]; exact txStep_effect _ _ _ (by rintro rfl; rw [hp]; rfl)
  | y4 => exact ⟨_, _, .index _, line_y4 hp⟩
  | f0 => exact ⟨_, _, .answer _ _, line_f0 hp⟩

/-! ## Frames of a line -/

theorem line_cfg (s : State) : s.line.cfg = s.cfg := by
  obtain ⟨e, q, he, hl⟩ := line_effect s
  rw [hl]; cases he <;> rfl

theorem line_rxq {s : State} (h : s.phase.atIoRead = false) : s.line.rxq = s.rxq := by
  obtain ⟨e, q, he, hl⟩ := line_effect s
  rw [hl]; cases he with
  | takeIo hr => rw [h] at hr; cases hr
  | _ => rfl

theorem line_txq {s : State} (h : s.phase.atIoWrite = false) : s.line.txq = s.txq := by
  obtain ⟨e, q, he, hl⟩ := line_effect s
  rw [hl]; cases he with
  | sendIo b hw => rw [h] at hw; cases hw
  | _ => rfl

/-! ## The steps, without their guards -/

/-- What a step leaves, where the guards of `step_next` do not matter: the engine, with its turn supplied, waited, latched a
command or took a line; or another agent moved. -/
theorem step_shape {s t : State} (h : step s = .next t) :
    (∃ u rest, s.engineTurn ≠ none ∧
      (t = s.supply u rest ∨ (∃ i, t = (s.supply u rest).latch i (firstLabel i)) ∨ t = (s.supply u rest).line)) ∨
    ∃ m rest, s.engineTurn = none ∧ envMove m { s with sched := rest } = .next t := by
  obtain ⟨_, ⟨e, he, _, _, rfl⟩ | ⟨e, c, cs, i, he, _, _, _, _, _, rfl⟩ | ⟨e, he, _, rfl⟩ | ⟨m, rest, he, _, hm⟩⟩ :=
    step_next h
  · obtain ⟨u, rest, rfl⟩ := engineTurn_supply he
    exact .inl ⟨u, rest, by simp [he], .inl rfl⟩
  · obtain ⟨u, rest, rfl⟩ := engineTurn_supply he
    exact .inl ⟨u, rest, by simp [he], .inr (.inl ⟨i, rfl⟩)⟩
  · obtain ⟨u, rest, rfl⟩ := engineTurn_supply he
    exact .inl ⟨u, rest, by simp [he], .inr (.inr rfl)⟩
  · exact .inr ⟨m, rest, he, hm⟩

theorem step_legal {s t : State} (h : step s = .next t) : s.cfg.legal = true := (step_next h).1

theorem envMove_cfg {m : EnvMove} {s t : State} (h : envMove m s = .next t) : t.cfg = s.cfg := by
  rcases envMove_next h with ⟨b, _, rfl⟩ | ⟨_, rfl⟩ | ⟨d, _, rfl⟩ | ⟨v, _, rfl⟩ | ⟨_, rfl⟩ | ⟨c, _, rfl⟩ | ⟨i, b, _, rfl⟩ <;>
    rfl

theorem step_cfg {s t : State} (h : step s = .next t) : t.cfg = s.cfg := by
  rcases step_shape h with ⟨u, rest, _, rfl | ⟨i, rfl⟩ | rfl⟩ | ⟨m, rest, _, hm⟩
  · rfl
  · rfl
  · exact line_cfg (s.supply u rest)
  · have hcfg := envMove_cfg hm
    exact hcfg

end Sys2Proof.Machine

/-! SUPPORT. What a step does to the trace: at most one transaction, of the listed kind. -/

namespace Sys2Proof.Machine

/-- A client-buffer access is made at index `i` (R66); the other transactions have no index. -/
def Transaction.atIndex (i : Word) : Transaction → Prop
  | .srcByte j _ | .dstWrite j _ => j = i
  | .memRead _ _ _ | .memWrite _ _ _ | .timeNow _ | .gpioSetAlt _ _ | .respond _ => True

/-- From `s` to `t` at most one transaction is made, a listed one, and at `E.IDX` where it has an index. -/
def State.PerformsListed (s t : State) : Prop :=
  t.trace = s.trace ∨ ∃ x, t.trace = x :: s.trace ∧ x.listed s.cfg ∧ x.atIndex s.idx

/-! ## Each transaction of the engine is listed -/

theorem widen_toNat_lt (b : Byte) : (widen b).toNat < 256 :=
  (BitVec.toNat_setWidth_of_le (by decide)).trans_lt b.isLt

theorem lsrRead_listed (c : Config) (v : Word) : (Transaction.memRead (c.addr .lsr) 4 v).listed c :=
  .inr (.inl ⟨addr_lsr c, rfl⟩)

theorem ioRead_listed (c : Config) (v : Word) : (Transaction.memRead (c.addr .io) 4 v).listed c :=
  .inr (.inr ⟨addr_io c, rfl⟩)

theorem enbRead_listed (c : Config) (v : Word) : (Transaction.memRead c.enbAddr 1 v).listed c :=
  .inl ⟨rfl, rfl⟩

theorem ioWrite_listed (c : Config) (b : Byte) : (Transaction.memWrite (c.addr .io) 4 (widen b)).listed c :=
  .inr (.inl ⟨addr_io c, rfl, widen_toNat_lt b⟩)

theorem enbWrite_listed (c : Config) (b : Byte) :
    (Transaction.memWrite c.enbAddr 1 (widen (b ||| Config.enbMask))).listed c := by
  have hbit : (widen (b ||| Config.enbMask)).getLsbD 0 = true := by
    simp [widen, Config.enbMask]
  exact .inl ⟨rfl, rfl, hbit, widen_toNat_lt _⟩

theorem lcrWrite_listed (c : Config) : (Transaction.memWrite (c.addr .lcr) 4 Config.lcrValue).listed c :=
  .inr (.inr (.inl ⟨addr_lcr c, rfl, rfl⟩))

theorem baudWrite_listed (c : Config) : (Transaction.memWrite (c.addr .baud) 4 Config.baudValue).listed c :=
  .inr (.inr (.inr (.inl ⟨addr_baud c, rfl, rfl⟩)))

theorem cntlWrite_listed (c : Config) : (Transaction.memWrite (c.addr .cntl) 4 Config.cntlValue).listed c :=
  .inr (.inr (.inr (.inr ⟨addr_cntl c, rfl, rfl⟩)))

theorem respond_listed (c : Config) (st : Status) (value : Word) :
    (Transaction.respond (responseWord st value)).listed c := by
  have hcode : st.code.toNat <<< 32 < 2 ^ 33 := by cases st <;> decide
  show (st.code ++ value).toNat < 2 ^ 33
  rw [BitVec.toNat_append]
  exact Nat.or_lt_two_pow hcode (by omega)

/-! ## At most one transaction a step -/

theorem effect_performsListed {s e : State} (h : s.Effect e) : s.PerformsListed e := by
  cases h with
  | none => exact .inl rfl
  | index i => exact .inl rfl
  | poll => exact .inr ⟨_, rfl, lsrRead_listed _ _, trivial⟩
  | sendIo b _ => exact .inr ⟨_, rfl, ioWrite_listed _ b, trivial⟩
  | takeIo _ => exact .inr ⟨_, rfl, ioRead_listed _ _, trivial⟩
  | startTime => exact .inr ⟨_, rfl, trivial, trivial⟩
  | sampleTime => exact .inr ⟨_, rfl, trivial, trivial⟩
  | fetch => exact .inr ⟨_, rfl, trivial, rfl⟩
  | store => exact .inr ⟨_, rfl, trivial, rfl⟩
  | answer st value => exact .inr ⟨_, rfl, respond_listed _ st value, trivial⟩
  | readEnable _ => exact .inr ⟨_, rfl, enbRead_listed _ _, trivial⟩
  | writeEnable _ => exact .inr ⟨_, rfl, enbWrite_listed _ _, trivial⟩
  | writeLcr _ => exact .inr ⟨_, rfl, lcrWrite_listed _, trivial⟩
  | writeBaud _ => exact .inr ⟨_, rfl, baudWrite_listed _, trivial⟩
  | setPin14 _ => exact .inr ⟨_, rfl, ⟨.inl rfl, rfl⟩, trivial⟩
  | setPin15 _ => exact .inr ⟨_, rfl, ⟨.inr rfl, rfl⟩, trivial⟩
  | writeCntl _ => exact .inr ⟨_, rfl, cntlWrite_listed _, trivial⟩
  | finishInit _ => exact .inr ⟨_, rfl, respond_listed _ .ok 0#32, trivial⟩
  | setTimeout _ => exact .inr ⟨_, rfl, respond_listed _ .ok 0#32, trivial⟩

theorem line_performsListed (s : State) : s.PerformsListed s.line := by
  obtain ⟨e, q, he, hl⟩ := line_effect s
  have h := effect_performsListed he
  rw [hl]; exact h

theorem envMove_trace {m : EnvMove} {s t : State} (h : envMove m s = .next t) : t.trace = s.trace := by
  rcases envMove_next h with ⟨b, _, rfl⟩ | ⟨_, rfl⟩ | ⟨d, _, rfl⟩ | ⟨v, _, rfl⟩ | ⟨_, rfl⟩ | ⟨c, _, rfl⟩ | ⟨i, b, _, rfl⟩ <;>
    rfl

theorem step_performsListed {s t : State} (h : step s = .next t) : s.PerformsListed t := by
  rcases step_shape h with ⟨u, rest, _, rfl | ⟨i, rfl⟩ | rfl⟩ | ⟨m, rest, _, hm⟩
  · exact .inl rfl
  · exact .inl rfl
  · exact line_performsListed (s.supply u rest)
  · have htrace := envMove_trace hm
    exact .inl htrace

/-- The transaction a step adds is a listed one. -/
theorem step_transaction {s t : State} {x : Transaction} (h : step s = .next t) (ht : t.trace = x :: s.trace) :
    x.listed s.cfg ∧ x.atIndex s.idx := by
  rcases step_performsListed h with hsame | ⟨y, hy, hlisted, hindex⟩
  · exact absurd (ht.symm.trans hsame) (List.cons_ne_self x s.trace)
  · obtain rfl : y = x := (List.cons.inj (hy.symm.trans ht)).1
    exact ⟨hlisted, hindex⟩

/-! ## Alignment and ill-formed launches (R63) -/

theorem add_toNat_mod_four {a k : Word} (ha : a.toNat % 4 = 0) (hk : k.toNat % 4 = 0) : (a + k).toNat % 4 = 0 := by
  rw [BitVec.toNat_add]; omega

theorem listed_memRead_aligned {c : Config} {a v : Word} (hc : c.ioBase.toNat % 4 = 0)
    (h : (Transaction.memRead a 4 v).listed c) : a.toNat % 4 = 0 := by
  rcases h with ⟨_, hn⟩ | ⟨rfl, _⟩ | ⟨rfl, _⟩
  · cases hn
  all_goals exact add_toNat_mod_four hc (by decide)

theorem listed_memWrite_aligned {c : Config} {a v : Word} (hc : c.ioBase.toNat % 4 = 0)
    (h : (Transaction.memWrite a 4 v).listed c) : a.toNat % 4 = 0 := by
  rcases h with ⟨_, hn, _⟩ | ⟨rfl, _⟩ | ⟨rfl, _⟩ | ⟨rfl, _⟩ | ⟨rfl, _⟩
  · cases hn
  all_goals exact add_toNat_mod_four hc (by decide)

theorem step_illFormedLaunch {s : State} (h : s.cfg.legal = false) : step s = .refused .illFormedLaunch := by
  rcases step_cases s with ⟨_, hs⟩ | ⟨hl, _⟩ | ⟨_, _, hl, _⟩ | ⟨_, _, hl, _⟩
  · exact hs
  all_goals exact absurd (h.symm.trans hl) (by decide)

/-- Settles O11: a legal launch has an aligned IO_BASE, and every 4-byte access is at IO_BASE plus a multiple of 4. -/
theorem launchAndAlignment : Obligations.LaunchAndAlignment := by
  unfold Obligations.LaunchAndAlignment
  refine ⟨fun s hbad => step_illFormedLaunch ?_, fun s t a v h ht => ?_⟩
  · refine Bool.eq_false_iff.mpr fun hl => ?_
    obtain ⟨halign, hfits, _⟩ := legal_bounds hl
    omega
  · have halign := (legal_bounds (step_legal h)).1
    rcases ht with ht | ht
    · exact listed_memRead_aligned halign (step_transaction h ht).1
    · exact listed_memWrite_aligned halign (step_transaction h ht).1

/-- Settles O57: every line is one effect, and each effect makes at most one transaction, a listed one. -/
theorem onlyListedTransactions : Obligations.OnlyListedTransactions := by
  unfold Obligations.OnlyListedTransactions
  intro s t h
  have hl := step_legal h
  refine ⟨?_, addr_toNat hl, enbAddr_toNat hl, fun i b ht => ?_⟩
  · exact (step_performsListed h).imp_right fun ⟨x, hx, hlisted, _⟩ => ⟨x, hx, hlisted⟩
  · rcases ht with ht | ht
    · exact (step_transaction h ht).2
    · exact (step_transaction h ht).2

end Sys2Proof.Machine

/-! SUPPORT. What a step does to the FIFOs: until the engine reads IO the receive FIFO only grows at its tail, and until it
writes IO the transmit FIFO only loses bytes at its head. -/

namespace Sys2Proof.Machine

theorem envMove_rxq {m : EnvMove} {s t : State} (h : envMove m s = .next t) : s.rxq <+: t.rxq := by
  rcases envMove_next h with ⟨b, _, rfl⟩ | ⟨_, rfl⟩ | ⟨d, _, rfl⟩ | ⟨v, _, rfl⟩ | ⟨_, rfl⟩ | ⟨c, _, rfl⟩ | ⟨i, b, _, rfl⟩
  · rw [State.lineReceive_rxq]
    split
    · exact List.prefix_append s.rxq [b]
    · exact List.prefix_rfl
  all_goals exact List.prefix_rfl

theorem envMove_txq {m : EnvMove} {s t : State} (h : envMove m s = .next t) : t.txq <:+ s.txq := by
  rcases envMove_next h with ⟨b, _, rfl⟩ | ⟨_, rfl⟩ | ⟨d, _, rfl⟩ | ⟨v, _, rfl⟩ | ⟨_, rfl⟩ | ⟨c, _, rfl⟩ | ⟨i, b, _, rfl⟩
  case inr.inl => exact List.tail_suffix s.txq
  all_goals exact List.suffix_rfl

theorem step_rxq {s t : State} (h : step s = .next t) (hio : s.phase.atIoRead = false ∨ s.engineTurn = none) :
    s.rxq <+: t.rxq := by
  rcases step_shape h with ⟨u, rest, he, rfl | ⟨i, rfl⟩ | rfl⟩ | ⟨m, rest, _, hm⟩
  · exact List.prefix_rfl
  · exact List.prefix_rfl
  · have hphase : (s.supply u rest).phase.atIoRead = false := hio.resolve_right he
    rw [line_rxq hphase]
    exact List.prefix_rfl
  · have hrxq := envMove_rxq hm
    exact hrxq

theorem step_txq {s t : State} (h : step s = .next t) (hio : s.phase.atIoWrite = false ∨ s.engineTurn = none) :
    t.txq <:+ s.txq := by
  rcases step_shape h with ⟨u, rest, he, rfl | ⟨i, rfl⟩ | rfl⟩ | ⟨m, rest, _, hm⟩
  · exact List.suffix_rfl
  · exact List.suffix_rfl
  · have hphase : (s.supply u rest).phase.atIoWrite = false := hio.resolve_right he
    rw [line_txq hphase]
    exact List.suffix_rfl
  · have htxq := envMove_txq hm
    exact htxq

/-- Settles O26: a READY machine's LSR word shows the receive FIFO, which only grows at its tail until the IO read. -/
theorem dataReadyIsExactAndStable : Obligations.DataReadyIsExactAndStable := by
  unfold Obligations.DataReadyIsExactAndStable
  refine ⟨fun s hr => ?_, fun s t _ hne hio h => ?_⟩
  · rw [lsrWord_bit0, dataReady_ready hr]
    simp
  · obtain ⟨received, heq⟩ := step_rxq h hio
    rw [← heq]
    exact ⟨List.append_ne_nil_of_left_ne_nil hne received, List.head?_append_of_ne_nil s.rxq hne⟩

/-- Settles O27: a READY machine's LSR word shows the transmit FIFO's room, and until the IO write the FIFO only shrinks. -/
theorem txSpaceIsExactAndStable : Obligations.TxSpaceIsExactAndStable := by
  unfold Obligations.TxSpaceIsExactAndStable
  refine ⟨fun s hr => ?_, fun s t _ hroom hio h => ?_, fun s u => lsrWord_other { s with undef := u }⟩
  · rw [lsrWord_bit5, txSpace_ready hr, decide_eq_true_iff]
  · rw [step_cfg h]
    exact (step_txq h hio).length_le.trans_lt hroom

end Sys2Proof.Machine

/-! SUPPORT. How far INIT has configured the peripheral: `State.Configured` holds at reset and every step of every agent keeps
it. -/

namespace Sys2Proof.Machine

/-! ## The enable switch and the storage fields after a write -/

theorem offset_bounds (f : Field) : 0x215040 ≤ f.offset.toNat ∧ f.offset.toNat ≤ 0x215068 := by
  cases f <;> decide

theorem offsets_apart {f g : Field} (h : f ≠ g) :
    f.offset.toNat + 3 < g.offset.toNat ∨ g.offset.toNat + 3 < f.offset.toNat := by
  revert h; cases f <;> cases g <;> decide

theorem writeEnb_enb {s : State} (hw : s.mem.wf = true) (b : Byte) : (s.writeEnb b).enb = b :=
  Memory.read_write_same _ _ b hw

theorem writeEnb_stored {s : State} (hl : s.cfg.legal = true) (b : Byte) (f : Field) :
    (s.writeEnb b).stored f = s.stored f := by
  have hf := offset_bounds f
  refine Memory.read32_write_other s.mem s.cfg.enbAddr.toNat (s.cfg.addr f).toNat b (.inl ?_)
  rw [enbAddr_toNat hl, addr_toNat hl]; omega

theorem writeConfig_enb {s : State} (hl : s.cfg.legal = true) (f : ConfigField) (w : Word) :
    (s.writeConfig f w).enb = s.enb := by
  have hf := offset_bounds f.toField
  refine Memory.read_write32_other s.mem (s.cfg.addr f.toField).toNat s.cfg.enbAddr.toNat w (.inl ?_)
  rw [enbAddr_toNat hl, addr_toNat hl]; omega

theorem writeConfig_stored_same {s : State} (hw : s.mem.wf = true) (f : ConfigField) (w : Word) :
    (s.writeConfig f w).stored f.toField = w :=
  Memory.read32_write32_same _ _ w hw

theorem writeConfig_stored_other {s : State} (hl : s.cfg.legal = true) {f : ConfigField} {g : Field} (w : Word)
    (h : f.toField ≠ g) : (s.writeConfig f w).stored g = s.stored g := by
  have hfg := offsets_apart h
  refine Memory.read32_write32_other s.mem (s.cfg.addr f.toField).toNat (s.cfg.addr g).toNat w ?_
  rw [addr_toNat hl, addr_toNat hl]; omega

theorem foreignEnbWrite_stored {s : State} (hl : s.cfg.legal = true) (v : BitVec 7) (f : Field) :
    (s.foreignEnbWrite v).stored f = s.stored f :=
  writeEnb_stored hl (v ++ s.enb.extractLsb' 0 1) f

/-- Another bus master cannot change the engine's bit of the enable switch. -/
theorem foreignEnbWrite_enb_bit0 {s : State} (hw : s.mem.wf = true) (v : BitVec 7) :
    (s.foreignEnbWrite v).enb.getLsbD 0 = s.enb.getLsbD 0 := by
  have henb : (s.foreignEnbWrite v).enb = v ++ s.enb.extractLsb' 0 1 := writeEnb_enb hw _
  rw [henb, BitVec.getLsbD_append]
  simp

/-! ## What a line leaves of the peripheral -/

theorem line_life {s : State} (h : s.phase ≠ .i7) : s.line.life = s.life := by
  obtain ⟨e, q, he, hl⟩ := line_effect s
  rw [hl]; cases he with
  | finishInit hp => exact absurd hp h
  | _ => rfl

theorem line_pin14 {s : State} (h : s.phase ≠ .i4) : s.line.pin14 = s.pin14 := by
  obtain ⟨e, q, he, hl⟩ := line_effect s
  rw [hl]; cases he with
  | setPin14 hp => exact absurd hp h
  | _ => rfl

theorem line_pin15 {s : State} (h : s.phase ≠ .i5) : s.line.pin15 = s.pin15 := by
  obtain ⟨e, q, he, hl⟩ := line_effect s
  rw [hl]; cases he with
  | setPin15 hp => exact absurd hp h
  | _ => rfl

theorem line_enb {s : State} (hl : s.cfg.legal = true) (h : s.phase ≠ .i1) : s.line.enb = s.enb := by
  obtain ⟨e, q, he, heq⟩ := line_effect s
  rw [heq, State.goto_enb]; cases he with
  | writeEnable hp => exact absurd hp h
  | writeLcr _ | writeBaud _ | writeCntl _ => exact writeConfig_enb hl _ _
  | _ => rfl

/-- The line of INIT that writes a configuration field (R130). -/
def initWriter : ConfigField → Phase
  | .lcr => .i2
  | .baud => .i3
  | .cntl => .i6

theorem toField_injective : Function.Injective ConfigField.toField := by
  intro f g; cases f <;> cases g <;> decide

theorem line_stored {s : State} (hl : s.cfg.legal = true) {f : ConfigField} (h : s.phase ≠ initWriter f) :
    s.line.stored f.toField = s.stored f.toField := by
  obtain ⟨e, q, he, heq⟩ := line_effect s
  rw [heq, State.goto_stored]; cases he with
  | writeEnable _ => exact writeEnb_stored hl _ _
  | writeLcr hp | writeBaud hp | writeCntl hp =>
    exact writeConfig_stored_other hl _ fun hf => h (hp.trans (congrArg initWriter (toField_injective hf)))
  | _ => rfl

theorem line_mem_wf {s : State} (hw : s.mem.wf = true) : s.line.mem.wf = true := by
  obtain ⟨e, q, he, heq⟩ := line_effect s
  rw [heq, State.goto_mem]; cases he with
  | writeEnable _ => exact Memory.wf_write _ _ _ hw
  | writeLcr _ | writeBaud _ | writeCntl _ => exact Memory.wf_write32 _ _ _ hw
  | _ => exact hw

/-! ## The order of INIT's lines -/

/-- Each line of INIT with the one after it (R130, R251). -/
def initOrder : List (Phase × Phase) :=
  [(.i0, .i1), (.i1, .i2), (.i2, .i3), (.i3, .i4), (.i4, .i5), (.i5, .i6), (.i6, .i7)]

/-- The control points of INIT's lines. -/
def Phase.inInit : Phase → Bool
  | .i0 | .i1 | .i2 | .i3 | .i4 | .i5 | .i6 | .i7 => true
  | _ => false

section
variable {α : Type} (f : Phase → α) (v : α) {ret ok late body : Phase} {s : State}

/-! Where the shared procedures go: what a function says of all their targets it says of the next control point. -/

theorem txStep_phase {here : TxPoint → Phase} (hhere : ∀ q, f (here q) = v) (hret : f ret = v) {b : Byte} {p : TxPoint} :
    f (s.txStep b here ret p).phase = v := by
  cases p with
  | t0 => simp only [State.txStep, State.goto_phase]; split <;> exact hhere _
  | t1 => exact hret

theorem rxStep_phase {here : RxPoint → Phase} (hhere : ∀ q, f (here q) = v) (hret : f ret = v) {p : RxPoint} :
    f (s.rxStep here ret p).phase = v := by
  cases p with
  | rx0 => simp only [State.rxStep, State.goto_phase]; split <;> exact hhere _
  | rx1 => exact hret

theorem waitStep_phase {here : WaitPoint → Phase} (hhere : ∀ q, f (here q) = v) (hok : f ok = v) (hlate : f late = v)
    {p : WaitPoint} : f (s.waitStep here ok late p).phase = v := by
  cases p with
  | w0 => exact hhere _
  | w1 =>
    simp only [State.waitStep, State.goto_phase]
    split
    · exact hok
    · split <;> exact hhere _
  | w2 =>
    simp only [State.waitStep, State.goto_phase]
    split
    · exact hlate
    · exact hhere _

theorem loopStep_phase (hidle : f .idle = v) (hbody : f body = v) {value : Word} :
    f (s.loopStep value body).phase = v := by
  unfold State.loopStep
  split
  · exact hidle
  · exact hbody

end

/-- A line leads to a line of INIT only from the line of INIT before it. -/
theorem line_phase_order (s : State) : (s.phase, s.line.phase) ∈ initOrder ∨ s.line.phase.inInit = false := by
  cases hp : s.phase with
  | idle => exact .inr (by simp only [State.line, hp]; rfl)
  | i0 | i1 | i2 | i3 | i4 | i5 | i6 => exact .inl (by simp [State.line, hp, initOrder])
  | b0 p => rw [line_b0 hp]; exact .inr (txStep_phase Phase.inInit false (fun _ => rfl) rfl)
  | x3tx p => rw [line_x3tx hp]; exact .inr (txStep_phase Phase.inInit false (fun _ => rfl) rfl)
  | x4 p => rw [line_x4 hp]; exact .inr (txStep_phase Phase.inInit false (fun _ => rfl) rfl)
  | y3 p => rw [line_y3 hp]; exact .inr (txStep_phase Phase.inInit false (fun _ => rfl) rfl)
  | d0 p => rw [line_d0 hp]; exact .inr (rxStep_phase Phase.inInit false (fun _ => rfl) rfl)
  | q4 p => rw [line_q4 hp]; exact .inr (rxStep_phase Phase.inInit false (fun _ => rfl) rfl)
  | a0 p => rw [line_a0 hp]; exact .inr (waitStep_phase Phase.inInit false (fun _ => rfl) rfl rfl)
  | q0 p => rw [line_q0 hp]; exact .inr (waitStep_phase Phase.inInit false (fun _ => rfl) rfl rfl)
  | x1 => rw [line_x1 hp]; exact .inr (loopStep_phase Phase.inInit false rfl rfl)
  | q2 => rw [line_q2 hp]; exact .inr (loopStep_phase Phase.inInit false rfl rfl)
  | y1 => rw [line_y1 hp]; exact .inr (loopStep_phase Phase.inInit false rfl rfl)
  | x3 => rw [line_x3 hp]; refine .inr ?_; rw [State.goto_phase]; split <;> rfl
  | q3 => rw [line_q3 hp]; refine .inr ?_; rw [State.goto_phase]; split <;> rfl
  | a1 r => cases r <;> exact .inr (by simp only [State.line, hp]; rfl)
  | _ => exact .inr (by simp only [State.line, hp]; rfl)

/-- `L` holds the lines of INIT after its line `w`. -/
structure LinesAfter (w : Phase) (L : List Phase) : Prop where
  last : .i7 ∈ L
  inside : ∀ p ∈ L, p.inInit = true
  next : ∀ e ∈ initOrder, e.2 ∈ L → e.1 = w ∨ e.1 ∈ L

/-- After a line other than `w` INIT is past `w` only if it was before. -/
theorem due_of_line_due {s : State} {w : Phase} {L : List Phase} (hL : LinesAfter w L) (hw : s.phase ≠ w)
    (hd : s.line.phase ∈ L ∨ s.line.life = .ready) : s.phase ∈ L ∨ s.life = .ready := by
  rcases hd with hd | hd
  · rcases line_phase_order s with h | h
    · exact .inl ((hL.next _ h hd).resolve_left hw)
    · exact absurd (h.symm.trans (hL.inside _ hd)) (by decide)
  · by_cases hp : s.phase = .i7
    · exact .inl (hp ▸ hL.last)
    · exact .inr ((line_life hp).symm.trans hd)

/-! ## `State.Configured` is kept -/

/-- A state that agrees on the peripheral, and is at a line of INIT only where the other is too, is configured as far. -/
theorem configured_of_same {s t : State} (h : s.Configured) (henb : t.enb.getLsbD 0 = s.enb.getLsbD 0)
    (hstored : ∀ f, t.stored f = s.stored f) (h14 : t.pin14 = s.pin14) (h15 : t.pin15 = s.pin15)
    (hphase : t.phase = s.phase ∨ t.phase ∉ [Phase.i2, .i3, .i4, .i5, .i6, .i7]) (hlife : t.life = s.life) :
    t.Configured := by
  have due : ∀ L ⊆ [Phase.i2, .i3, .i4, .i5, .i6, .i7],
      t.phase ∈ L ∨ t.life = .ready → s.phase ∈ L ∨ s.life = .ready := by
    intro L hL hd
    rw [← hlife]
    exact hd.imp_left fun hm => (hphase.resolve_right fun hn => hn (hL hm)) ▸ hm
  constructor
  · rw [henb]; exact fun hd => h.enb (due _ (by decide) hd)
  · rw [hstored]; exact fun hd => h.lcr (due _ (by decide) hd)
  · rw [hstored]; exact fun hd => h.baud (due _ (by decide) hd)
  · rw [h14]; exact fun hd => h.pin14 (due _ (by decide) hd)
  · rw [h15]; exact fun hd => h.pin15 (due _ (by decide) hd)
  · rw [hstored, ← List.mem_singleton (a := t.phase)]
    exact fun hd => h.cntl ((due [.i7] (by decide) hd).imp_left List.mem_singleton.mp)

/-- Each configuration item is written by its own line of INIT and left alone by every other line. -/
theorem line_configured {s : State} (hl : s.cfg.legal = true) (hw : s.mem.wf = true) (h : s.Configured) :
    s.line.Configured where
  enb hd := by
    by_cases hp : s.phase = .i1
    · rw [line_i1 hp, State.goto_enb, writeEnb_enb hw]
      simp [Config.enbMask]
    · rw [line_enb hl hp]
      exact h.enb (due_of_line_due ⟨by decide, by decide, by decide⟩ hp hd)
  lcr hd := by
    by_cases hp : s.phase = .i2
    · rw [line_i2 hp]; exact writeConfig_stored_same hw .lcr _
    · exact (line_stored (f := .lcr) hl hp).trans (h.lcr (due_of_line_due ⟨by decide, by decide, by decide⟩ hp hd))
  baud hd := by
    by_cases hp : s.phase = .i3
    · rw [line_i3 hp]; exact writeConfig_stored_same hw .baud _
    · exact (line_stored (f := .baud) hl hp).trans (h.baud (due_of_line_due ⟨by decide, by decide, by decide⟩ hp hd))
  pin14 hd := by
    by_cases hp : s.phase = .i4
    · rw [line_i4 hp]; rfl
    · rw [line_pin14 hp]
      exact h.pin14 (due_of_line_due ⟨by decide, by decide, by decide⟩ hp hd)
  pin15 hd := by
    by_cases hp : s.phase = .i5
    · rw [line_i5 hp]; rfl
    · rw [line_pin15 hp]
      exact h.pin15 (due_of_line_due ⟨by decide, by decide, by decide⟩ hp hd)
  cntl hd := by
    by_cases hp : s.phase = .i6
    · rw [line_i6 hp]; exact writeConfig_stored_same hw .cntl _
    · rw [← List.mem_singleton (a := s.line.phase)] at hd
      have hdue := due_of_line_due ⟨by decide, by decide, by decide⟩ hp hd
      rw [List.mem_singleton] at hdue
      exact (line_stored (f := .cntl) hl hp).trans (h.cntl hdue)

theorem envMove_configured {m : EnvMove} {s t : State} (hl : s.cfg.legal = true) (hw : s.mem.wf = true) (h : s.Configured)
    (hm : envMove m s = .next t) : t.Configured := by
  rcases envMove_next hm with ⟨b, _, rfl⟩ | ⟨_, rfl⟩ | ⟨d, _, rfl⟩ | ⟨v, _, rfl⟩ | ⟨_, rfl⟩ | ⟨c, _, rfl⟩ | ⟨i, b, _, rfl⟩
  case inr.inr.inr.inl =>
    exact configured_of_same h (foreignEnbWrite_enb_bit0 hw v) (foreignEnbWrite_stored hl v) rfl rfl (.inl rfl) rfl
  all_goals exact configured_of_same h rfl (fun _ => rfl) rfl rfl (.inl rfl) rfl

theorem envMove_mem_wf {m : EnvMove} {s t : State} (hw : s.mem.wf = true) (hm : envMove m s = .next t) :
    t.mem.wf = true := by
  rcases envMove_next hm with ⟨b, _, rfl⟩ | ⟨_, rfl⟩ | ⟨d, _, rfl⟩ | ⟨v, _, rfl⟩ | ⟨_, rfl⟩ | ⟨c, _, rfl⟩ | ⟨i, b, _, rfl⟩
  case inr.inr.inr.inl => exact Memory.wf_write _ _ _ hw
  all_goals exact hw

theorem firstLabel_notMem_configuring (i : Instr) : firstLabel i ∉ [Phase.i2, .i3, .i4, .i5, .i6, .i7] := by
  cases i <;> simp [firstLabel]

theorem step_mem_wf {s t : State} (hw : s.mem.wf = true) (h : step s = .next t) : t.mem.wf = true := by
  rcases step_shape h with ⟨u, rest, _, rfl | ⟨i, rfl⟩ | rfl⟩ | ⟨m, rest, _, hm⟩
  · exact hw
  · exact hw
  · exact line_mem_wf (s := s.supply u rest) hw
  · exact envMove_mem_wf (s := { s with sched := rest }) hw hm

theorem step_configured {s t : State} (hw : s.mem.wf = true) (h : s.Configured) (hs : step s = .next t) :
    t.Configured := by
  have hl := step_legal hs
  rcases step_shape hs with ⟨u, rest, _, rfl | ⟨i, rfl⟩ | rfl⟩ | ⟨m, rest, _, hm⟩
  · exact configured_of_same h rfl (fun _ => rfl) rfl rfl (.inl rfl) rfl
  · exact configured_of_same h rfl (fun _ => rfl) rfl rfl (.inr (firstLabel_notMem_configuring i)) rfl
  · have hsupply : (s.supply u rest).Configured := configured_of_same h rfl (fun _ => rfl) rfl rfl (.inl rfl) rfl
    exact line_configured (s := s.supply u rest) hl hw hsupply
  · have hsched : { s with sched := rest }.Configured := configured_of_same h rfl (fun _ => rfl) rfl rfl (.inl rfl) rfl
    exact envMove_configured (s := { s with sched := rest }) hl hw hsched hm

/-- Nothing is due before INIT has begun. -/
theorem configured_of_idle_uninit {s : State} (hp : s.phase = .idle) (hl : s.life = .uninit) : s.Configured := by
  constructor <;> simp [hp, hl]

/-- Settles O54: the canonical memory and `State.Configured` hold at reset and are kept by every step. -/
theorem configuredStateStands : Obligations.ConfiguredStateStands := by
  unfold Obligations.ConfiguredStateStands
  intro c p cmds moves k t _ hw hrun hr
  have hstep : ∀ s s' : State, s.mem.wf = true ∧ s.Configured → step s = .next s' → s'.mem.wf = true ∧ s'.Configured :=
    fun s s' ⟨hwf, hconf⟩ hs => ⟨step_mem_wf hwf hs, step_configured hwf hconf hs⟩
  obtain ⟨_, h⟩ := run_keeps hstep k _ t ⟨hw, configured_of_idle_uninit rfl rfl⟩ hrun
  exact ⟨h.enb (.inr hr), h.lcr (.inr hr), h.baud (.inr hr), h.cntl (.inr hr)⟩

end Sys2Proof.Machine

/-! SUPPORT. The rows of the opcode table field by field, and what decodes to what: the decoder inverts the encoder, and a
word is reserved exactly when it is no instruction's. -/

namespace Sys2Proof

/-! ## The rows (R103) -/

theorem opcField_tableMatch (i : Instr) : opcField i.tableMatch = i.opc := by
  cases i <;> simp only [Instr.tableMatch, Instr.opc] <;> decide

theorem flagsField_tableMatch (i : Instr) : flagsField i.tableMatch = i.flags := by
  cases i <;> simp only [Instr.tableMatch, Instr.flags] <;> decide

theorem argField_tableMatch (i : Instr) : argField i.tableMatch = 0#32 := by
  cases i <;> simp only [Instr.tableMatch] <;> decide

theorem opcField_tableMask (i : Instr) : opcField i.tableMask = BitVec.allOnes 4 := by
  cases i <;> simp only [Instr.tableMask] <;> decide

theorem flagsField_tableMask (i : Instr) : flagsField i.tableMask = BitVec.allOnes 4 := by
  cases i <;> simp only [Instr.tableMask] <;> decide

theorem argField_writeByteMask (b : Byte) : argField (Instr.writeByte b).tableMask = 0xFFFFFF00#32 := by
  simp only [Instr.tableMask]; decide

/-- Bit 32 of the `match` column is P (R102). -/
theorem tableMatch_bit32 (i : Instr) : i.tableMatch.getLsbD 32 = i.flags.getLsbD 0 := by
  cases i <;> simp only [Instr.tableMatch, Instr.flags] <;> decide

theorem tableMatch_eq {i j : Instr} (ho : i.opc = j.opc) (hf : i.flags = j.flags) : i.tableMatch = j.tableMatch :=
  commandWord_ext (by rw [opcField_tableMatch, opcField_tableMatch, ho])
    (by rw [flagsField_tableMatch, flagsField_tableMatch, hf]) (by rw [argField_tableMatch, argField_tableMatch])

/-- FLAGS is 0 but in the row of SET_TIMEOUT with P = 1 (R102). -/
theorem flags_cases (i : Instr) : i.flags = 0#4 ∨ (i.flags = 1#4 ∧ i.opc = 0x1#4) := by
  cases i with
  | setTimeoutMs ms => exact .inr ⟨rfl, rfl⟩
  | _ => exact .inl rfl

/-- Rows with the same OPC and different FLAGS are the two of SET_TIMEOUT. -/
theorem setTimeout_of_flags_ne {i j : Instr} (ho : i.opc = j.opc) (hf : i.flags ≠ j.flags) :
    i.opc = 0x1#4 ∧ i.flags.getLsbD 0 ≠ j.flags.getLsbD 0 := by
  rcases flags_cases i with hi | ⟨hi, hio⟩ <;> rcases flags_cases j with hj | ⟨hj, hjo⟩
  · exact absurd (hi.trans hj.symm) hf
  · exact ⟨ho.trans hjo, by rw [hi, hj]; decide⟩
  · exact ⟨hio, by rw [hi, hj]; decide⟩
  · exact absurd (hi.trans hj.symm) hf

theorem tableRow (i : Instr) : encode i &&& i.tableMask = i.tableMatch := by
  cases i with
  | init => exact Laws.TableRow.init
  | setTimeoutMs ms => exact Laws.TableRow.setTimeoutMs ms
  | setTimeoutNone => exact Laws.TableRow.setTimeoutNone
  | writeByte b => exact Laws.TableRow.writeByte b
  | hasByte => exact Laws.TableRow.hasByte
  | waitForByte => exact Laws.TableRow.waitForByte
  | readByte => exact Laws.TableRow.readByte
  | writeStr len => exact Laws.TableRow.writeStr len
  | bufRead cap => exact Laws.TableRow.bufRead cap
  | bufWrite len => exact Laws.TableRow.bufWrite len
  | flush => exact Laws.TableRow.flush

/-- A word that spells a row has the row's OPC and FLAGS, and its ARG is zero where the row's mask says so. -/
theorem spelledRow_fields {w : CommandWord} {i : Instr} (h : w &&& i.tableMask = i.tableMatch) :
    opcField w = i.opc ∧ flagsField w = i.flags ∧ argField w &&& argField i.tableMask = 0#32 := by
  refine ⟨?_, ?_, ?_⟩
  · rw [← opcField_tableMatch, ← h, opcField, opcField, BitVec.extractLsb'_and]
    rw [← opcField, ← opcField, opcField_tableMask, BitVec.and_allOnes]
  · rw [← flagsField_tableMatch, ← h, flagsField, flagsField, BitVec.extractLsb'_and]
    rw [← flagsField, ← flagsField, flagsField_tableMask, BitVec.and_allOnes]
  · rw [← argField_tableMatch i, ← h]
    exact BitVec.extractLsb'_and.symm

/-! ## Words and instructions -/

theorem encode_eq_iff {w : CommandWord} {i : Instr} :
    encode i = w ↔ opcField w = i.opc ∧ flagsField w = i.flags ∧ argField w = i.arg := by
  constructor
  · rintro rfl
    exact ⟨opcField_encode i, flagsField_encode i, argField_encode i⟩
  · rintro ⟨ho, hf, ha⟩
    exact commandWord_ext ((opcField_encode i).trans ho.symm) ((flagsField_encode i).trans hf.symm)
      ((argField_encode i).trans ha.symm)

theorem high_zero_of_masked {a : Word} (h : a &&& 0xFFFFFF00#32 = 0#32) : a.extractLsb' 8 24 = 0#24 := by
  have hx := congrArg (BitVec.extractLsb' 8 24) h
  rw [BitVec.extractLsb'_and, show (0xFFFFFF00#32).extractLsb' 8 24 = BitVec.allOnes 24 by decide, BitVec.and_allOnes] at hx
  exact hx

/-- A word that spells a row is the word of an instruction: the row's, with the word's own operand. -/
theorem exists_encode_of_spelledRow {w : CommandWord} {i : Instr} (h : w &&& i.tableMask = i.tableMatch) :
    ∃ j, encode j = w := by
  obtain ⟨ho, hf, ha⟩ := spelledRow_fields h
  cases i with
  | setTimeoutMs _ => exact ⟨.setTimeoutMs (argField w), encode_eq_iff.mpr ⟨ho, hf, rfl⟩⟩
  | writeStr _ => exact ⟨.writeStr (argField w), encode_eq_iff.mpr ⟨ho, hf, rfl⟩⟩
  | bufRead _ => exact ⟨.bufRead (argField w), encode_eq_iff.mpr ⟨ho, hf, rfl⟩⟩
  | bufWrite _ => exact ⟨.bufWrite (argField w), encode_eq_iff.mpr ⟨ho, hf, rfl⟩⟩
  | writeByte b =>
    rw [argField_writeByteMask] at ha
    have hlow := setWidth_of_high_zero _ (high_zero_of_masked ha)
    exact ⟨.writeByte ((argField w).setWidth 8), encode_eq_iff.mpr ⟨ho, hf, hlow.symm⟩⟩
  | init | setTimeoutNone | hasByte | waitForByte | readByte | flush =>
    have hzero : argField w = 0#32 := BitVec.and_allOnes.symm.trans ha
    exact ⟨_, encode_eq_iff.mpr ⟨ho, hf, hzero⟩⟩

theorem widened_byte_high (b : Byte) : (b.setWidth 32).extractLsb' 8 24 = 0#24 := by
  revert b; decide

theorem decode_encode {hb : Bool} {i : Instr} (h : i.wellFormed hb = true) : decode hb (encode i) = .instr i := by
  unfold decode
  rw [opcField_encode, flagsField_encode, argField_encode]
  cases i with
  | writeByte b =>
    have hlow : (b.setWidth 32).setWidth 8 = b := Machine.lowByte_widen b
    simp [Instr.opc, Instr.flags, Instr.arg, decodeWriteByte, widened_byte_high, hlow]
  | bufRead cap | bufWrite len | flush =>
    obtain rfl : hb = true := h
    rfl
  | _ => rfl

theorem encode_of_decode {hb : Bool} {w : CommandWord} {i : Instr} (h : decode hb w = .instr i) : encode i = w := by
  obtain ⟨ho, hf, ha, _⟩ := decode_fields h
  exact encode_eq_iff.mpr ⟨ho, hf, ha⟩

/-- A word is reserved in a build exactly when it is no instruction of the build (R101, R115). -/
theorem decode_reserved_iff (hb : Bool) (w : CommandWord) :
    (∃ why, decode hb w = .reserved why) ↔ ∀ i : Instr, i.wellFormed hb = true → encode i ≠ w := by
  constructor
  · rintro ⟨why, hr⟩ i hi rfl
    cases hr.symm.trans (decode_encode hi)
  · intro hnone
    cases hd : decode hb w with
    | reserved why => exact ⟨why, rfl⟩
    | instr i => exact absurd (encode_of_decode hd) (hnone i (decode_fields hd).2.2.2)

theorem wellFormed_host (i : Instr) : i.wellFormed true = true := Bool.or_true _

/-- Settles O2: two rows differ in OPC or FLAGS, and the words that spell rows are the encoded instructions. -/
theorem rowsDisjointAndRoundTrip : Obligations.RowsDisjointAndRoundTrip := by
  unfold Obligations.RowsDisjointAndRoundTrip
  refine ⟨fun i j hne => ?_, fun w i j hi hj => ?_, fun w => ?_, fun hb i => decode_encode, fun hb w i h => ?_⟩
  · rw [opcField_tableMatch, opcField_tableMatch, tableMatch_bit32, tableMatch_bit32]
    by_cases ho : i.opc = j.opc
    · obtain ⟨hone, hbit⟩ := setTimeout_of_flags_ne ho fun hf => hne (tableMatch_eq ho hf)
      exact .inr ⟨hone, ho.symm.trans hone, hbit⟩
    · exact .inl ho
  · obtain ⟨hoi, hfi, _⟩ := spelledRow_fields hi
    obtain ⟨hoj, hfj, _⟩ := spelledRow_fields hj
    exact tableMatch_eq (hoi.symm.trans hoj) (hfi.symm.trans hfj)
  · rw [decode_reserved_iff]
    constructor
    · intro hnone i hi
      obtain ⟨j, hj⟩ := exists_encode_of_spelledRow hi
      exact hnone j (wellFormed_host j) hj
    · rintro hnone i _ rfl
      exact hnone i (tableRow i)
  · exact ⟨encode_of_decode h, (decode_fields h).2.2.2⟩

end Sys2Proof

/-! SUPPORT. The reserved words (R115), decoder by decoder, and how they depend on the build (R116). -/

namespace Sys2Proof

open Sys2Proof.Machine

/-- Some reason stands against the word (R115). -/
def Decoded.IsReserved (d : Decoded) : Prop := ∃ why, d = .reserved why

@[simp] theorem isReserved_instr (i : Instr) : ¬ (Decoded.instr i).IsReserved := by rintro ⟨why, ⟨⟩⟩
@[simp] theorem isReserved_reserved (why : Reserved) : (Decoded.reserved why).IsReserved := ⟨why, rfl⟩

section
variable {f : BitVec 4} {a : Word}

theorem decodePlain_isReserved {i : Instr} : (decodePlain i f a).IsReserved ↔ f ≠ 0#4 ∨ a ≠ 0#32 := by
  unfold decodePlain; split
  · split <;> simp [*]
  · simp [*]

theorem decodeSized_isReserved {mk : Word → Instr} : (decodeSized mk f a).IsReserved ↔ f ≠ 0#4 := by
  unfold decodeSized; split <;> simp [*]

theorem decodeSetTimeout_isReserved :
    (decodeSetTimeout f a).IsReserved ↔ f ≠ 1#4 ∧ (f ≠ 0#4 ∨ a ≠ 0#32) := by
  unfold decodeSetTimeout; split
  · simp [*]
  · rw [decodePlain_isReserved]; simp [*]

theorem decodeWriteByte_isReserved : (decodeWriteByte f a).IsReserved ↔ f ≠ 0#4 ∨ a.extractLsb' 8 24 ≠ 0#24 := by
  unfold decodeWriteByte; split
  · split <;> simp [*]
  · simp [*]

theorem decodeFacade_isReserved {hb : Bool} {d : Decoded} :
    (decodeFacade hb d).IsReserved ↔ d.IsReserved ∨ hb = false := by
  cases hb <;> simp [decodeFacade]

end

/-! ## FLAGS by its two parts, bits 35 to 33 and P (R102), and the high bits of ARG -/

theorem flagsField_high (w : CommandWord) : (flagsField w).extractLsb' 1 3 = w.extractLsb' 33 3 := by
  apply BitVec.eq_of_getLsbD_eq
  intro k hk
  simp only [flagsField, BitVec.getLsbD_extractLsb', hk, show 1 + k < 4 by omega, show 32 + (1 + k) = 33 + k by omega,
    decide_true, Bool.true_and]

theorem flagsField_bit0 (w : CommandWord) : (flagsField w).getLsbD 0 = w.getLsbD 32 := by
  rw [flagsField, BitVec.getLsbD_extractLsb']; rfl

theorem flagsField_eq_zero_iff {w : CommandWord} :
    flagsField w = 0#4 ↔ w.extractLsb' 33 3 = 0#3 ∧ w.getLsbD 32 = false := by
  have hparts : ∀ f : BitVec 4, f = 0#4 ↔ f.extractLsb' 1 3 = 0#3 ∧ f.getLsbD 0 = false := by decide
  rw [hparts, flagsField_high, flagsField_bit0]

theorem flagsField_eq_one_iff {w : CommandWord} :
    flagsField w = 1#4 ↔ w.extractLsb' 33 3 = 0#3 ∧ w.getLsbD 32 = true := by
  have hparts : ∀ f : BitVec 4, f = 1#4 ↔ f.extractLsb' 1 3 = 0#3 ∧ f.getLsbD 0 = true := by decide
  rw [hparts, flagsField_high, flagsField_bit0]

theorem argField_high (w : CommandWord) : (argField w).extractLsb' 8 24 = w.extractLsb' 8 24 := by
  rw [argField, BitVec.extractLsb'_extractLsb'_of_le (by decide)]

/-- R115's list, for the word `w` in the build `hb`. -/
theorem decode_isReserved_iff (hb : Bool) (w : CommandWord) : (decode hb w).IsReserved ↔
    (10 ≤ (opcField w).toNat ∨
      w.extractLsb' 33 3 ≠ 0#3 ∨
      (opcField w ≠ 0x1#4 ∧ w.getLsbD 32 = true) ∨
      ((opcField w).toNat ∈ [0, 3, 4, 5, 9] ∧ argField w ≠ 0#32) ∨
      (opcField w = 0x1#4 ∧ w.getLsbD 32 = false ∧ argField w ≠ 0#32) ∨
      (opcField w = 0x2#4 ∧ w.extractLsb' 8 24 ≠ 0#24) ∨
      (hb = false ∧ (opcField w).toNat ∈ [7, 8, 9])) := by
  have hone : opcField w = 0x1#4 ↔ (opcField w).toNat = 1 := BitVec.toNat_inj.symm
  have htwo : opcField w = 0x2#4 ↔ (opcField w).toNat = 2 := BitVec.toNat_inj.symm
  rw [ne_eq (opcField w), hone, htwo]
  unfold decode
  dsimp only
  split
  -- The SET_TIMEOUT rows, which P tells apart.
  case h_2 hopc =>
    rw [decodeSetTimeout_isReserved, hopc]
    simp only [ne_eq, flagsField_eq_zero_iff, flagsField_eq_one_iff]
    cases w.getLsbD 32 <;> simp
  -- OPC 0xA to 0xF
  case h_11 =>
    simp only [imp_false] at *
    have hlarge : 10 ≤ (opcField w).toNat := by omega
    simp only [isReserved_reserved, hlarge, true_or]
  -- In every other row FLAGS must be 0, and the row may ask more of ARG or of the build.
  case h_1 hopc | h_3 hopc | h_4 hopc | h_5 hopc | h_6 hopc | h_7 hopc | h_8 hopc | h_9 hopc | h_10 hopc =>
    simp only [decodePlain_isReserved, decodeSized_isReserved, decodeWriteByte_isReserved, decodeFacade_isReserved,
      argField_high, ne_eq, flagsField_eq_zero_iff, hopc]
    cases w.getLsbD 32 <;> simp [or_assoc]

/-- The builds decode differently only the words with OPC 7 to 9 (R116). -/
theorem decode_build (w : CommandWord) :
    decode false w =
      if 7 ≤ (opcField w).toNat ∧ (opcField w).toNat ≤ 9 then .reserved .facade else decode true w := by
  unfold decode
  dsimp only
  split
  -- OPC 0xA to 0xF
  case h_11 =>
    simp only [imp_false] at *
    exact (if_neg (by omega)).symm
  all_goals
    rename_i hopc
    rw [hopc]
    rfl

/-- Settles O3: R115's list decoder by decoder, and at IDLE the engine decodes the oldest offered word. -/
theorem reservedWordsAreRefused : Obligations.ReservedWordsAreRefused := by
  unfold Obligations.ReservedWordsAreRefused
  refine ⟨decode_isReserved_iff, fun s e c rest why hl he hp hc hd => ?_⟩
  obtain ⟨u, moves, rfl⟩ := engineTurn_supply he
  rw [step_engineTurn hl he, engineStep_idle (s := s.supply u moves) hp]
  simp only [acceptNext, State.supply_cmds, State.supply_cfg, hc, hd]

end Sys2Proof

/-! SUPPORT. The lifecycle gate (R114), what the build reaches beyond the decoder (R116), and the responses (R112). -/

namespace Sys2Proof.Machine

/-! ## Acceptance (R114) -/

theorem lifeFor_of_ne_init {i : Instr} (h : i ≠ .init) : lifeFor i = .ready := by
  cases i with
  | init => exact absurd rfl h
  | _ => rfl

theorem exec_idle_accepts {i : Instr} {s : State} (hp : s.phase = .idle) (hl : s.life = lifeFor i)
    (hw : i.wellFormed s.cfg.hostBuild = true) : exec i s = .next (s.latch i (firstLabel i)) := by
  rcases exec_idle (i := i) hp with ⟨_, _, he⟩ | ⟨_, hne, _⟩ | ⟨hnw, _⟩
  · exact he
  · exact absurd hl hne
  · exact absurd (hw.symm.trans hnw) (by decide)

theorem exec_idle_refused {i : Instr} {s : State} (hp : s.phase = .idle) (hl : s.life ≠ lifeFor i) :
    ∃ r, exec i s = .refused r := by
  rcases exec_idle (i := i) hp with ⟨_, hlife, _⟩ | ⟨_, _, he⟩ | ⟨_, he⟩
  · exact absurd hlife hl
  · exact ⟨_, he⟩
  · exact ⟨_, he⟩

theorem exec_idle_refuses {i : Instr} {s : State} (hp : s.phase = .idle) (hl : s.life ≠ lifeFor i)
    (hw : i.wellFormed s.cfg.hostBuild = true) : exec i s = .refused (.lifecycle s.life) := by
  rcases exec_idle (i := i) hp with ⟨_, hlife, _⟩ | ⟨_, _, he⟩ | ⟨hnw, _⟩
  · exact absurd hlife hl
  · exact he
  · exact absurd (hw.symm.trans hnw) (by decide)

/-- Settles O12: at IDLE `exec` accepts exactly in the instruction's lifecycle state, by latching the word. -/
theorem lifecycleGate : Obligations.LifecycleGate := by
  unfold Obligations.LifecycleGate
  refine ⟨fun i s hp hl hi => exec_idle_refused hp (by rw [hl, lifeFor_of_ne_init hi]; decide), fun s hp hl => ?_,
    fun s hp hl => ?_, fun i s hp hl hi hw => ?_⟩
  · rw [← hl]
    exact exec_idle_refuses hp (by rw [hl]; decide) rfl
  · exact ⟨_, exec_idle_accepts hp hl rfl, rfl⟩
  · exact ⟨_, exec_idle_accepts hp (hl.trans (lifeFor_of_ne_init hi).symm) hw, rfl⟩

/-! ## Responses (R112) -/

/-- What a step taken in `s` may answer: OK with any value, or TIMED_OUT at a point that raises Timeout. -/
def State.Answers (s : State) (w : ResponseWord) : Prop :=
  (∃ value, w = responseWord .ok value) ∨ (s.phase.isTimeout = true ∧ w = responseWord .timedOut 0#32)

theorem answered_status {s : State} {st : Status} {value : Word} {w : ResponseWord}
    (h : (s.answered st value).trace = .respond w :: s.trace) : w = responseWord st value := by
  obtain ⟨hw, _⟩ := List.cons.inj h
  exact (Transaction.respond.inj hw).symm

theorem loopStep_answers {s : State} {value : Word} {body : Phase} {w : ResponseWord}
    (h : (s.loopStep value body).trace = .respond w :: s.trace) : w = responseWord .ok value := by
  unfold State.loopStep at h
  split at h
  · exact answered_status h
  · exact absurd h.symm (List.cons_ne_self _ _)

theorem line_answers {s : State} {w : ResponseWord} (h : s.line.trace = .respond w :: s.trace) : s.Answers w := by
  cases hp : s.phase with
  | i7 | s0 | b1 | h1 | d1 | q3done | f0 =>
    simp only [State.line, hp] at h
    exact .inl ⟨_, answered_status h⟩
  | x1 | q2 | y1 =>
    simp only [State.line, hp] at h
    exact .inl ⟨_, loopStep_answers h⟩
  | a1 r =>
    cases r with
    | ok => exact .inl ⟨_, answered_status (line_a1_ok hp ▸ h)⟩
    | timedOut => exact .inr ⟨by rw [hp]; rfl, answered_status (line_a1_timedOut hp ▸ h)⟩
  | q0timeout => exact .inr ⟨by rw [hp]; rfl, answered_status (line_q0timeout hp ▸ h)⟩
  | b0 p | x3tx p | x4 p | y3 p => cases p <;> simp [State.line, hp, State.txStep] at h
  | d0 p | q4 p => cases p <;> simp [State.line, hp, State.rxStep] at h
  | a0 p | q0 p => cases p <;> simp [State.line, hp, State.waitStep] at h
  | _ => simp [State.line, hp] at h

theorem step_answers {s t : State} {w : ResponseWord} (h : step s = .next t) (ht : t.trace = .respond w :: s.trace) :
    s.Answers w := by
  rcases step_shape h with ⟨u, rest, _, rfl | ⟨i, rfl⟩ | rfl⟩ | ⟨m, rest, _, hm⟩
  · exact absurd ht.symm (List.cons_ne_self _ _)
  · exact absurd ht.symm (List.cons_ne_self _ _)
  · exact line_answers (s := s.supply u rest) ht
  · exact absurd (ht.symm.trans (envMove_trace hm)) (List.cons_ne_self _ _)

theorem isTimeout_operation {s : State} (h : s.phase.isTimeout = true) :
    s.inProgress = some .waitForByte ∨ ∃ cap, s.inProgress = some (.bufRead cap) := by
  cases hp : s.phase with
  | a1 r => exact .inl (by simp only [State.inProgress, hp])
  | q0timeout => exact .inr ⟨s.arg, by simp only [State.inProgress, hp]⟩
  | _ => rw [hp] at h; cases h

/-- Settles O33: a line answers OK, or TIMED_OUT at one of the two timeout points. -/
theorem onlyTwoOperationsTimeOut : Obligations.OnlyTwoOperationsTimeOut := by
  unfold Obligations.OnlyTwoOperationsTimeOut
  intro s t w h ht
  rcases step_answers h ht with ⟨value, rfl⟩ | ⟨hp, rfl⟩
  · exact .inl (responseWord_status_ok value)
  · exact .inr ⟨by decide, isTimeout_operation hp⟩

/-! ## The build (R116) -/

/-- The same answer, in the build `hostBuild`. -/
def inBuildResult (hostBuild : Bool) : Result → Result
  | .next t => .next (t.inBuild hostBuild)
  | .fault r => .fault r
  | .refused r => .refused r

section
variable {s : State} {hb : Bool}

@[simp] theorem State.inBuild_phase : (s.inBuild hb).phase = s.phase := rfl

theorem accept_inBuild {gate : Life} {i : Instr} {first : Phase} :
    accept gate i first (s.inBuild hb) = inBuildResult hb (accept gate i first s) := by
  by_cases hl : s.life = gate <;> simp [accept, State.inBuild, hl, inBuildResult, State.latch]

theorem txLine_inBuild {b : Byte} {here : TxPoint → Phase} {ret : Phase} {p : TxPoint} :
    txLine b here ret p (s.inBuild hb) = inBuildResult hb (txLine b here ret p s) := by
  cases p <;> rfl

theorem rxLine_inBuild {here : RxPoint → Phase} {ret : Phase} {p : RxPoint} :
    rxLine here ret p (s.inBuild hb) = inBuildResult hb (rxLine here ret p s) := by
  cases p <;> rfl

theorem waitLine_inBuild {here : WaitPoint → Phase} {ok late : Phase} {p : WaitPoint} :
    waitLine here ok late p (s.inBuild hb) = inBuildResult hb (waitLine here ok late p s) := by
  cases p <;> rfl

theorem loopLine_inBuild {value : Word} {body : Phase} :
    loopLine value body (s.inBuild hb) = inBuildResult hb (loopLine value body s) := by
  by_cases h : s.idx = s.arg <;> simp [loopLine, State.inBuild, h, inBuildResult, respond, State.goto, State.record]

/-- Only the gate of the facade reads HOST_BUILD. -/
theorem exec_inBuild {i : Instr} (hi : i.isFacade = false) :
    exec i (s.inBuild hb) = inBuildResult hb (exec i s) := by
  cases i with
  | init | setTimeoutMs ms | setTimeoutNone | hasByte =>
    simp only [exec, execInit, execSetTimeoutMs, execSetTimeoutNone, execHasByte, State.inBuild_phase]
    cases s.phase with
    | idle => exact accept_inBuild
    | _ => rfl
  | writeByte b =>
    simp only [exec, execWriteByte, State.inBuild_phase]
    cases s.phase with
    | idle => exact accept_inBuild
    | b0 p => exact txLine_inBuild
    | _ => rfl
  | waitForByte =>
    simp only [exec, execWaitForByte, State.inBuild_phase]
    cases s.phase with
    | idle => exact accept_inBuild
    | a0 p => exact waitLine_inBuild
    | a1 r => cases r <;> rfl
    | _ => rfl
  | readByte =>
    simp only [exec, execReadByte, State.inBuild_phase]
    cases s.phase with
    | idle => exact accept_inBuild
    | d0 p => exact rxLine_inBuild
    | _ => rfl
  | writeStr len =>
    simp only [exec, execWriteStr, State.inBuild_phase]
    cases s.phase with
    | idle => exact accept_inBuild
    | x1 => exact loopLine_inBuild
    | x3tx p => exact txLine_inBuild
    | x4 p => exact txLine_inBuild
    | _ => rfl
  | bufRead cap | bufWrite len | flush => cases hi

end

/-- Settles O4: the decoders differ in the facade's words, `exec` of any other instruction does not read HOST_BUILD. -/
theorem buildChangesOnlyFacade : Obligations.BuildChangesOnlyFacade := by
  unfold Obligations.BuildChangesOnlyFacade
  refine ⟨fun w hw => ?_, fun w h7 h9 => ?_, fun i s t hb hi h => ?_, fun i s r hb hi h => ?_, fun s t => step_cfg⟩
  · rw [decode_build, if_neg]
    rintro ⟨h7, h9⟩
    exact hw.elim h7.not_gt h9.not_gt
  · rw [decode_build, if_pos ⟨h7, h9⟩]
  · rw [exec_inBuild hi, h]; rfl
  · rw [exec_inBuild hi, h]; rfl

end Sys2Proof.Machine

/-! SUPPORT. WRITE_STR under any interleaving (R183, R184 b): at each of its control points the bus writes made so far are the
ones of a text that the control point, `E.IDX` and the source buffer determine, and every step keeps that. -/

namespace Sys2Proof.Machine

/-! ## Bus writes of a text -/

/-- One IO write for each byte of `text`, in order (R64, R70). -/
def ioWrites (c : Config) (text : List Byte) : List (Word × Nat × Word) :=
  text.map fun b => (c.ioBase + 0x215040#32, 4, b.setWidth 32)

theorem ioWrites_append (c : Config) (text rest : List Byte) :
    ioWrites c (text ++ rest) = ioWrites c text ++ ioWrites c rest := List.map_append

theorem busWrites_cons (x : Transaction) (r : List Transaction) :
    busWrites (x :: r) = busWrites r ++ x.written.toList := by
  cases h : x.written <;> simp [busWrites, h]

/-- Since the trace `base` there has been no answer, and the bus writes are the IO writes of `text`. -/
def State.Sent (base : List Transaction) (text : List Byte) (s : State) : Prop :=
  ∃ r, s.trace = r ++ base ∧ (∀ x ∈ r, x.isResponse = false) ∧ busWrites r = ioWrites s.cfg text

theorem sent_nil (s : State) : s.Sent s.trace [] := ⟨[], rfl, by simp, rfl⟩

section
variable {base : List Transaction} {text : List Byte} {s t : State}

theorem State.Sent.of_same (h : s.Sent base text) (htrace : t.trace = s.trace) (hcfg : t.cfg = s.cfg) :
    t.Sent base text := by
  unfold State.Sent; rw [htrace, hcfg]; exact h

/-- A transaction that is neither an answer nor a write leaves the text as it is. -/
theorem State.Sent.of_quiet (h : s.Sent base text) {x : Transaction} (htrace : t.trace = x :: s.trace) (hcfg : t.cfg = s.cfg)
    (hx : x.isResponse = false) (hw : x.written = none) : t.Sent base text := by
  obtain ⟨r, hr, hquiet, hwrites⟩ := h
  refine ⟨x :: r, by rw [htrace, hr]; rfl, List.forall_mem_cons.mpr ⟨hx, hquiet⟩, ?_⟩
  rw [busWrites_cons, hw, hcfg, hwrites]
  exact List.append_nil _

theorem State.Sent.writeIo (h : s.Sent base text) (b : Byte) : (s.writeIo b).Sent base (text ++ [b]) := by
  obtain ⟨r, hr, hquiet, hwrites⟩ := h
  refine ⟨_ :: r, by rw [State.writeIo_trace, hr]; rfl, List.forall_mem_cons.mpr ⟨rfl, hquiet⟩, ?_⟩
  rw [busWrites_cons, hwrites, State.writeIo_cfg, ioWrites_append]
  rfl

theorem State.Sent.readLsr (h : s.Sent base text) : s.readLsr.Sent base text := h.of_quiet rfl rfl rfl rfl

/-- The poll of `tx` stays in `tx`. -/
theorem txStep_poll (s : State) (b : Byte) (here : TxPoint → Phase) (ret : Phase) :
    ∃ q, s.txStep b here ret .t0 = s.readLsr.goto (here q) := by
  cases h : s.txSpace with
  | true => exact ⟨.t1, by simp [State.txStep, h]⟩
  | false => exact ⟨.t0, by simp [State.txStep, h]⟩

end

/-! ## The text at each control point -/

theorem normalize_take_succ {src : List Byte} {n : Nat} {b : Byte} (h : src[n]? = some b) :
    normalize (src.take (n + 1)) = normalize (src.take n) ++ normalizeByte b := by
  simp [normalize, List.take_add_one, h]

theorem sourceByte_getElem? {src : List Byte} {i : Word} (h : i.toNat < src.length) (undef : Word) :
    src[i.toNat]? = some (sourceByte src i undef) := by
  simp [sourceByte, h]

/-- What the completed turns of the loop have sent. -/
def State.turns (s : State) : List Byte := normalize (s.src.take s.idx.toNat)

/-- `s` is at a control point of WRITE_STR that has sent `text` (R183). -/
inductive State.StrPoint (s : State) : List Byte → Prop
  | start (hp : s.phase = .x0) : StrPoint s []
  | head (hp : s.phase = .x1) (hi : s.idx.toNat ≤ s.src.length) : StrPoint s s.turns
  | fetch (hp : s.phase = .x2) (hi : s.idx.toNat < s.src.length) : StrPoint s s.turns
  | test (hp : s.phase = .x3) (hb : s.src[s.idx.toNat]? = some s.byte) : StrPoint s s.turns
  | carriageReturn {p : TxPoint} (hp : s.phase = .x3tx p) (hb : s.src[s.idx.toNat]? = some s.byte)
      (hlf : s.byte = Config.lineFeed) : StrPoint s s.turns
  | byte {p : TxPoint} {before : List Byte} (hp : s.phase = .x4 p) (hb : s.src[s.idx.toNat]? = some s.byte)
      (hbefore : before ++ [s.byte] = normalizeByte s.byte) : StrPoint s (s.turns ++ before)
  | next (hp : s.phase = .x5) (hb : s.src[s.idx.toNat]? = some s.byte) : StrPoint s (s.turns ++ normalizeByte s.byte)

theorem State.StrPoint.busy {s : State} {text : List Byte} (h : s.StrPoint text) : s.phase ≠ .idle := by
  cases h <;> simp [*]

/-- The control point's text depends on nothing but the control point and the operands. -/
theorem State.StrPoint.of_same {s t : State} {text : List Byte} (h : s.StrPoint text) (hp : t.phase = s.phase)
    (hsrc : t.src = s.src) (hidx : t.idx = s.idx) (hbyte : t.byte = s.byte) : t.StrPoint text := by
  have hturns : s.turns = t.turns := by simp only [State.turns, hsrc, hidx]
  cases h with
  | start h => exact .start (hp.trans h)
  | head h hi => rw [hturns]; exact .head (hp.trans h) (by rwa [hidx, hsrc])
  | fetch h hi => rw [hturns]; exact .fetch (hp.trans h) (by rwa [hidx, hsrc])
  | test h hb => rw [hturns]; exact .test (hp.trans h) (by rwa [hidx, hsrc, hbyte])
  | carriageReturn h hb hlf =>
    rw [hturns]; exact .carriageReturn (hp.trans h) (by rwa [hidx, hsrc, hbyte]) (by rwa [hbyte])
  | byte h hb hbefore => rw [hturns]; exact .byte (hp.trans h) (by rwa [hidx, hsrc, hbyte]) (by rwa [hbyte])
  | next h hb => rw [hturns, ← hbyte]; exact .next (hp.trans h) (by rwa [hidx, hsrc, hbyte])

/-- A line of WRITE_STR goes on to a control point whose text is sent, or gives the answer with all of the text sent. -/
theorem line_strPoint {s : State} {base : List Transaction} {text : List Byte} (hlen : s.arg.toNat = s.src.length)
    (h : s.StrPoint text) (hsent : s.Sent base text) :
    (∃ text', s.line.StrPoint text' ∧ s.line.Sent base text') ∨
      (s.line = s.answered .ok 0#32 ∧ text = normalize s.src) := by
  cases h with
  | start hp =>
    rw [line_x0 hp]
    exact .inl ⟨[], .head rfl (Nat.zero_le _), hsent.of_same rfl rfl⟩
  | head hp hi =>
    rw [line_x1 hp, State.loopStep]
    split
    next hdone =>
      refine .inr ⟨rfl, ?_⟩
      rw [State.turns, hdone, hlen, List.take_length]
    next hmore =>
      have hlt : s.idx.toNat < s.src.length := by
        have hne : s.idx.toNat ≠ s.arg.toNat := fun he => hmore (BitVec.eq_of_toNat_eq he)
        omega
      exact .inl ⟨s.turns, .fetch rfl hlt, hsent.of_same rfl rfl⟩
  | fetch hp hi =>
    rw [line_x2 hp]
    exact .inl ⟨s.turns, .test rfl (sourceByte_getElem? hi s.undef), hsent.of_quiet rfl rfl rfl rfl⟩
  | test hp hb =>
    rw [line_x3 hp]
    split
    next hlf => exact .inl ⟨s.turns, .carriageReturn rfl hb hlf, hsent.of_same rfl rfl⟩
    next hother =>
      have hbefore : [] ++ [s.byte] = normalizeByte s.byte := by rw [normalizeByte, if_neg hother]; rfl
      refine .inl ⟨s.turns ++ [], .byte rfl hb hbefore, ?_⟩
      rw [List.append_nil]
      exact hsent.of_same rfl rfl
  | @carriageReturn p hp hb hlf =>
    rw [line_x3tx hp]
    cases p with
    | t0 =>
      obtain ⟨q, hq⟩ := txStep_poll s Config.carriageReturn .x3tx (.x4 .t0)
      rw [hq]
      exact .inl ⟨s.turns, .carriageReturn rfl hb hlf, hsent.readLsr.of_same rfl rfl⟩
    | t1 =>
      have hbefore : [Config.carriageReturn] ++ [s.byte] = normalizeByte s.byte := by rw [normalizeByte, if_pos hlf]; rfl
      exact .inl ⟨s.turns ++ [Config.carriageReturn], .byte rfl hb hbefore, (hsent.writeIo _).of_same rfl rfl⟩
  | @byte p before hp hb hbefore =>
    rw [line_x4 hp]
    cases p with
    | t0 =>
      obtain ⟨q, hq⟩ := txStep_poll s s.byte .x4 .x5
      rw [hq]
      exact .inl ⟨s.turns ++ before, .byte rfl hb hbefore, hsent.readLsr.of_same rfl rfl⟩
    | t1 =>
      have hwritten := hsent.writeIo s.byte
      rw [List.append_assoc, hbefore] at hwritten
      exact .inl ⟨s.turns ++ normalizeByte s.byte, .next rfl hb, hwritten.of_same rfl rfl⟩
  | next hp hb =>
    rw [line_x5 hp]
    have hlt : s.idx.toNat < s.src.length := (List.getElem?_eq_some_iff.mp hb).1
    have hidx : (s.idx + 1#32).toNat = s.idx.toNat + 1 := add_const_toNat s.idx 1 (by omega)
    have hturns : ((s.setIdx (s.idx + 1#32)).goto .x1).turns = s.turns ++ normalizeByte s.byte := by
      rw [State.turns, State.goto_idx, State.setIdx_idx, hidx]
      exact normalize_take_succ hb
    have hle : (s.idx + 1#32).toNat ≤ s.src.length := hidx ▸ hlt
    rw [← hturns] at hsent
    exact .inl ⟨_, .head rfl hle, hsent.of_same rfl rfl⟩

/-! ## Every step of every agent -/

theorem line_src (s : State) : s.line.src = s.src := by
  obtain ⟨e, q, he, hl⟩ := line_effect s
  rw [hl]; cases he <;> rfl

theorem line_arg (s : State) : s.line.arg = s.arg := by
  obtain ⟨e, q, he, hl⟩ := line_effect s
  rw [hl]; cases he <;> rfl

theorem line_sched (s : State) : s.line.sched = s.sched := by
  obtain ⟨e, q, he, hl⟩ := line_effect s
  rw [hl]; cases he <;> rfl

theorem engineTurn_supply_tail {s e : State} (h : s.engineTurn = some e) : ∃ u, e = s.supply u s.sched.tail := by
  unfold State.engineTurn at h
  rcases hs : s.sched with _ | ⟨_ | _, rest⟩ <;> simp only [hs] at h <;> cases h <;> exact ⟨_, rfl⟩

/-- A move of another agent that keeps the source buffer keeps all that the engine's line reads of the command. -/
theorem envMove_operands {m : EnvMove} {s t : State} (h : envMove m s = .next t) (hm : keepsSource (.env m) = true) :
    t.phase = s.phase ∧ t.src = s.src ∧ t.arg = s.arg ∧ t.idx = s.idx ∧ t.byte = s.byte ∧ t.sched = s.sched := by
  rcases envMove_next h with ⟨b, _, rfl⟩ | ⟨_, rfl⟩ | ⟨d, _, rfl⟩ | ⟨v, _, rfl⟩ | ⟨_, rfl⟩ | ⟨c, _, rfl⟩ | ⟨i, b, rfl, _⟩
  case inr.inr.inr.inr.inr.inr => cases hm
  all_goals exact ⟨rfl, rfl, rfl, rfl, rfl, rfl⟩

theorem step_trace_suffix {s t : State} (h : step s = .next t) : s.trace <:+ t.trace := by
  rcases step_performsListed h with hsame | ⟨x, hx, _⟩
  · rw [hsame]
  · rw [hx]; exact List.suffix_cons x s.trace

/-- WRITE_STR of `src` is running, from the trace `base` on. -/
structure State.SendsStr (c : Config) (src : List Byte) (base : List Transaction) (s : State) : Prop where
  cfg : s.cfg = c
  source : s.src = src
  length : s.arg.toNat = src.length
  sched : ∀ m ∈ s.sched, keepsSource m = true
  progress : ∃ text, s.StrPoint text ∧ s.Sent base text

/-- WRITE_STR of `src` has answered: before the answer stand the IO writes of the normalized text. -/
def State.SentStr (c : Config) (src : List Byte) (base : List Transaction) (s : State) : Prop :=
  ∃ r, .respond (responseWord .ok 0#32) :: (r ++ base) <:+ s.trace ∧ (∀ x ∈ r, x.isResponse = false) ∧
    busWrites r = ioWrites c (normalize src)

section
variable {c : Config} {src : List Byte} {base : List Transaction} {s t : State}

theorem line_sendsStr (h : s.SendsStr c src base) : s.line.SendsStr c src base ∨ s.line.SentStr c src base := by
  obtain ⟨rfl, rfl, hlen, hsched, text, hpoint, hsent⟩ := h
  rcases line_strPoint hlen hpoint hsent with hprogress | ⟨hline, rfl⟩
  · exact .inl ⟨line_cfg s, line_src s, by rwa [line_arg], by rwa [line_sched], hprogress⟩
  · obtain ⟨r, hr, hquiet, hwrites⟩ := hsent
    refine .inr ⟨r, ?_, hquiet, hwrites⟩
    rw [hline, ← hr]
    exact List.suffix_rfl

theorem step_sendsStr (h : s.SendsStr c src base) (hs : step s = .next t) :
    t.SendsStr c src base ∨ t.SentStr c src base := by
  obtain ⟨hcfg, hsrc, hlen, hsched, text, hpoint, hsent⟩ := h
  obtain ⟨_, ⟨_, _, hp, _⟩ | ⟨_, _, _, _, _, hp, _⟩ | ⟨e, he, _, rfl⟩ | ⟨m, rest, _, hrest, hm⟩⟩ := step_next hs
  · exact absurd hp hpoint.busy
  · exact absurd hp hpoint.busy
  · obtain ⟨u, rfl⟩ := engineTurn_supply_tail he
    have hkeep : ∀ m ∈ s.sched.tail, keepsSource m = true := fun m hm => hsched m (List.mem_of_mem_tail hm)
    exact line_sendsStr ⟨hcfg, hsrc, hlen, hkeep, text, hpoint.of_same rfl rfl rfl rfl, hsent.of_same rfl rfl⟩
  · rw [hrest, List.forall_mem_cons] at hsched
    obtain ⟨hphase, hsrc', harg, hidx, hbyte, hsched'⟩ := envMove_operands hm hsched.1
    have hcfg' := envMove_cfg hm
    have htrace := envMove_trace hm
    exact .inl ⟨hcfg'.trans hcfg, hsrc'.trans hsrc, by rwa [harg], by rw [hsched']; exact hsched.2, text,
      hpoint.of_same hphase hsrc' hidx hbyte, hsent.of_same htrace hcfg'⟩

theorem step_sentStr (h : s.SentStr c src base) (hs : step s = .next t) : t.SentStr c src base := by
  obtain ⟨r, hr, hquiet, hwrites⟩ := h
  exact ⟨r, hr.trans (step_trace_suffix hs), hquiet, hwrites⟩

/-- As long as the text is being sent, no answer has been given since `base`. -/
theorem State.Sent.not_answered {text : List Byte} {r : List Transaction} {w : ResponseWord} (h : s.Sent base text) :
    s.trace ≠ .respond w :: (r ++ base) := by
  obtain ⟨q, hq, hquiet, _⟩ := h
  rw [hq, ← List.cons_append]
  intro heq
  have hmem := hquiet (.respond w) (List.append_cancel_right heq ▸ List.mem_cons_self)
  cases hmem

/-- The first answer since `base` is WRITE_STR's. -/
theorem State.SentStr.first_answer {r : List Transaction} {w : ResponseWord} (h : s.SentStr c src base)
    (ht : s.trace = .respond w :: (r ++ base)) (hr : ∀ x ∈ r, x.isResponse = false) :
    w = responseWord .ok 0#32 ∧ busWrites r = ioWrites c (normalize src) := by
  obtain ⟨q, ⟨later, hlater⟩, _, hwrites⟩ := h
  rw [ht, ← List.cons_append, ← List.cons_append, ← List.append_assoc] at hlater
  have heq := List.append_cancel_right hlater
  cases later with
  | nil =>
    obtain ⟨hw, rfl⟩ := List.cons.inj heq
    exact ⟨(Transaction.respond.inj hw).symm, hwrites⟩
  | cons x later =>
    obtain ⟨_, rfl⟩ := List.cons.inj heq
    have hmem := hr (.respond (responseWord .ok 0#32)) (by simp)
    cases hmem

end

/-- Settles O39: what `SendsStr` says holds at X0 and is kept until the answer, and `SentStr` from the answer on. -/
theorem writeStrSendsNormalizedText : Obligations.WriteStrSendsNormalizedText := by
  unfold Obligations.WriteStrSendsNormalizedText
  intro s t k r w _ hp hlen hsched hrun ht hr
  have hstart : s.SendsStr s.cfg s.src s.trace := ⟨rfl, rfl, hlen, hsched, [], .start hp, sent_nil s⟩
  have hstep : ∀ a b : State, a.SendsStr s.cfg s.src s.trace ∨ a.SentStr s.cfg s.src s.trace → step a = .next b →
      b.SendsStr s.cfg s.src s.trace ∨ b.SentStr s.cfg s.src s.trace := fun a b h hs =>
    h.elim (fun h => step_sendsStr h hs) (fun h => .inr (step_sentStr h hs))
  rcases run_keeps hstep k s t (.inl hstart) hrun with h | h
  · obtain ⟨text, _, hsent⟩ := h.progress
    exact absurd ht hsent.not_answered
  · exact (h.first_answer ht hr).symm

end Sys2Proof.Machine

/-! SUPPORT. INIT and SET_TIMEOUT as whole commands with only the engine moving (R130, R133): the state each leaves, and what
INIT's writes leave in the bus memory. The baud formula (R135). -/

namespace Sys2Proof.Machine

/-! ## One step of a run in which only the engine moves -/

/-- The command just offered is accepted (R113); the run goes on from the latched state. -/
theorem alone_accepts {u : Word} {us : List Word} {s : State} {i : Instr} {src dst : List Byte} {r : Result}
    (hl : s.cfg.legal = true) (hi : s.life = lifeFor i) (hw : i.wellFormed s.cfg.hostBuild = true)
    (hrest : alone us (((s.offering i src dst).supply u (us.map .engine)).latch i (firstLabel i)) = r) :
    alone (u :: us) (s.offering i src dst) = r := by
  rw [alone_eq_following] at hrest ⊢
  rw [List.map_cons, following_accept u _ (s := s.offering i src dst) hl rfl (State.offering_cmds s i src dst)
    (decode_encode hw) hi]
  exact hrest

/-- At a control point `p` of an operation the engine takes the line to `t`; the run goes on from there. -/
theorem alone_line (p : Phase) {u : Word} {us : List Word} {s t : State} {r : Result} (hl : s.cfg.legal = true)
    (hp : s.phase = p) (hne : p ≠ .idle) (ht : (s.supply u (us.map .engine)).line = t) (hrest : alone us t = r) :
    alone (u :: us) s = r := by
  rw [alone_eq_following] at hrest ⊢
  exact (following_line u _ p hl hp hne ht).trans hrest

theorem alone_nil (s : State) : alone [] s = .next (s.schedule []) := rfl

/-- A command offered in another lifecycle state than its own is refused (R114). -/
theorem exec_offering_refuses {i : Instr} {s : State} {l : Life} {src dst : List Byte} (hs : s.life = l)
    (hl : l ≠ lifeFor i) (hw : i.wellFormed s.cfg.hostBuild = true) :
    exec i (s.offering i src dst) = .refused (.lifecycle l) := by
  subst hs
  exact exec_idle_refuses rfl hl hw

/-- `State.Configured` holds wherever a run from IDLE in UNINIT stops. -/
theorem alone_configured {us : List Word} {s t : State} (hw : s.mem.wf = true) (hp : s.phase = .idle)
    (hu : s.life = .uninit) (hrun : alone us s = .next t) : t.Configured := by
  have hstep : ∀ a b : State, a.mem.wf = true ∧ a.Configured → step a = .next b → b.mem.wf = true ∧ b.Configured :=
    fun a b ⟨hwf, hconf⟩ hab => ⟨step_mem_wf hwf hab, step_configured hwf hconf hab⟩
  have hstart : (s.schedule (us.map .engine)).Configured := configured_of_idle_uninit hp hu
  exact (run_keeps hstep us.length (s.schedule (us.map .engine)) t ⟨hw, hstart⟩ hrun).2

/-! ## The memory INIT leaves -/

/-- INIT's four writes in its order (R130). -/
def State.initWrites (s : State) : State :=
  (((s.writeEnb (s.enb ||| Config.enbMask)).writeConfig .lcr Config.lcrValue).writeConfig .baud
    Config.baudValue).writeConfig .cntl Config.cntlValue

theorem initWrites_enb {s : State} (hl : s.cfg.legal = true) (hw : s.mem.wf = true) :
    s.initWrites.enb = s.enb ||| Config.enbMask := by
  simp only [State.initWrites, writeConfig_enb, writeEnb_enb, State.writeConfig_cfg, State.writeEnb_cfg, hl, hw]

/-- The byte at `a` lies outside the field `f`. -/
def OutsideField (c : Config) (f : Field) (a : Nat) : Prop := a < (c.addr f).toNat ∨ (c.addr f).toNat + 3 < a

theorem initWrites_read_other {s : State} {a : Nat} (henb : a ≠ s.cfg.enbAddr.toNat) (hlcr : OutsideField s.cfg .lcr a)
    (hbaud : OutsideField s.cfg .baud a) (hcntl : OutsideField s.cfg .cntl a) :
    s.initWrites.mem.read a = s.mem.read a := by
  simp only [State.initWrites, State.writeConfig_mem, State.writeEnb_mem, State.writeConfig_cfg, State.writeEnb_cfg,
    ConfigField.toField]
  rw [Memory.read_write32_other _ _ _ _ hcntl, Memory.read_write32_other _ _ _ _ hbaud,
    Memory.read_write32_other _ _ _ _ hlcr, Memory.read_write_other _ _ _ _ henb]

/-! ## INIT as a whole -/

/-- INIT's answer and its seven external transactions, newest first (R130). -/
def State.initTransactions (s : State) : List Transaction :=
  [.respond (responseWord .ok 0#32),
   .memWrite (s.cfg.addr .cntl) 4 Config.cntlValue,
   .gpioSetAlt Config.secondPin Config.altFunction,
   .gpioSetAlt Config.firstPin Config.altFunction,
   .memWrite (s.cfg.addr .baud) 4 Config.baudValue,
   .memWrite (s.cfg.addr .lcr) 4 Config.lcrValue,
   .memWrite s.cfg.enbAddr 1 (widen (s.enb ||| Config.enbMask)),
   .memRead s.cfg.enbAddr 1 (widen s.enb)]

/-- The state in which INIT, offered in `s`, has answered; `u` stands in the undefined bits. -/
def State.afterInit (u : Word) (s : State) : State :=
  { s with
    life := .ready, toValid := false, mem := s.initWrites.mem, pin14 := .alt Config.altFunction, pin15 := .alt Config.altFunction,
    opc := Instr.init.opc, flags := Instr.init.flags, arg := Instr.init.arg, src := [], dst := [], phase := .idle,
    v := widen s.enb, sched := [], undef := u, freeCount := s.freeCount + 9, trace := s.initTransactions ++ s.trace }

theorem afterInit_mem (u : Word) (s : State) : (s.afterInit u).mem = s.initWrites.mem := rfl

theorem afterInit_enb {s : State} (u : Word) (hl : s.cfg.legal = true) (hw : s.mem.wf = true) :
    (s.afterInit u).enb = s.enb ||| Config.enbMask := by
  rw [← initWrites_enb hl hw]
  simp only [State.enb, State.afterInit, State.initWrites, State.writeConfig_cfg, State.writeEnb_cfg]

theorem afterInit_read_other {s : State} (u : Word) {a : Nat} (henb : a ≠ s.cfg.enbAddr.toNat)
    (hlcr : OutsideField s.cfg .lcr a) (hbaud : OutsideField s.cfg .baud a) (hcntl : OutsideField s.cfg .cntl a) :
    (s.afterInit u).mem.read a = s.mem.read a := by
  rw [afterInit_mem, initWrites_read_other henb hlcr hbaud hcntl]

/-- Line I1 writes the byte that `E.V` holds with bit 0 added. -/
theorem line_i1_of_v {s : State} {b : Byte} (hp : s.phase = .i1) (hv : s.v = widen b) :
    s.line = (s.writeEnb (b ||| Config.enbMask)).goto .i2 := by
  rw [line_i1 hp, hv, lowByte_widen]

/-- INIT is accepted and takes its eight lines. -/
theorem alone_init {s : State} {us : List Word} (hl : s.cfg.legal = true) (hu : s.life = .uninit) (hus : us.length = 9) :
    ∃ u, alone us (s.offering .init [] []) = .next (s.afterInit u) := by
  match us, hus with
  | [u, u0, u1, u2, u3, u4, u5, u6, u7], _ =>
    refine ⟨u7, alone_accepts hl hu rfl ?_⟩
    refine alone_line .i0 (by simpa using hl) rfl (by decide) (line_i0 rfl) ?_
    refine alone_line .i1 (by simpa using hl) rfl (by decide) (line_i1_of_v (b := s.enb) rfl rfl) ?_
    refine alone_line .i2 (by simpa using hl) rfl (by decide) (line_i2 rfl) ?_
    refine alone_line .i3 (by simpa using hl) rfl (by decide) (line_i3 rfl) ?_
    refine alone_line .i4 (by simpa using hl) rfl (by decide) (line_i4 rfl) ?_
    refine alone_line .i5 (by simpa using hl) rfl (by decide) (line_i5 rfl) ?_
    refine alone_line .i6 (by simpa using hl) rfl (by decide) (line_i6 rfl) ?_
    refine alone_line .i7 (by simpa using hl) rfl (by decide) (line_i7 rfl) ?_
    rw [alone_nil]
    -- Both states field by field: compared folded, their memories are too costly to check.
    simp only [State.afterInit, State.initWrites, State.initTransactions, State.answered, State.schedule, State.goto,
      State.record, State.writeConfig, State.writeEnb, State.readEnb, State.gpioSetAlt, State.supply, State.latch,
      State.offering]
    rfl

/-- Settles O16: the run ends in `afterInit`, which every run's invariant `Configured` describes where INIT has answered;
ENB and the frame come from the four writes. -/
theorem initBringsUpThePeripheral : Obligations.InitBringsUpThePeripheral := by
  unfold Obligations.InitBringsUpThePeripheral
  refine ⟨fun s us hl hw hu hus => ?_, fun s hr => ?_⟩
  · obtain ⟨u, hrun⟩ := alone_init hl hu hus
    have hconf : (s.afterInit u).Configured := alone_configured (s := s.offering .init [] []) hw rfl hu hrun
    have hready : (s.afterInit u).life = .ready := rfl
    have hframe : ∀ a : Nat, a ≠ s.cfg.enbAddr.toNat → OutsideField s.cfg .lcr a → OutsideField s.cfg .baud a →
        OutsideField s.cfg .cntl a → (s.afterInit u).mem.read a = s.mem.read a :=
      fun a => afterInit_read_other u
    exact ⟨s.afterInit u, hrun, hready, rfl, rfl, rfl, rfl, rfl, afterInit_enb u hl hw, hconf.lcr (.inr hready),
      hconf.baud (.inr hready), hconf.cntl (.inr hready), rfl, rfl, rfl, rfl, rfl, hframe⟩
  · exact exec_offering_refuses hr (by decide) rfl

/-! ## SET_TIMEOUT as a whole -/

/-- The state in which the form `i` of SET_TIMEOUT, offered in `s`, has answered; `u` stands in the undefined bits. -/
def State.afterSetTimeout (i : Instr) (u : Word) (s : State) : State :=
  { s with
    toValid := i.flags.getLsbD 0, toMs := i.arg, opc := i.opc, flags := i.flags, arg := i.arg, src := [], dst := [],
    phase := .idle, sched := [], undef := u, freeCount := s.freeCount + 2,
    trace := .respond (responseWord .ok 0#32) :: s.trace }

/-- Either form of SET_TIMEOUT is accepted and takes its one line. -/
theorem alone_setTimeout {i : Instr} {s : State} {us : List Word} (hi : firstLabel i = .s0) (hl : s.cfg.legal = true)
    (hr : s.life = lifeFor i) (hw : i.wellFormed s.cfg.hostBuild = true) (hus : us.length = 2) :
    ∃ u, alone us (s.offering i [] []) = .next (s.afterSetTimeout i u) := by
  match us, hus with
  | [u, u0], _ =>
    exact ⟨u0, alone_accepts hl hr hw (alone_line .s0 hl hi (by decide) (line_s0 hi) (alone_nil _))⟩

/-- Settles O19: both forms end in `afterSetTimeout`, with the P bit and the ARG of their own word. -/
theorem setTimeoutReplacesTheTimeout : Obligations.SetTimeoutReplacesTheTimeout := by
  unfold Obligations.SetTimeoutReplacesTheTimeout
  refine ⟨fun s ms us hl hr hus => ?_, fun s us hl hr hus => ?_, fun s ms hu => ⟨?_, ?_⟩⟩
  · obtain ⟨u, hrun⟩ := alone_setTimeout (i := .setTimeoutMs ms) rfl hl hr rfl hus
    exact ⟨_, hrun, by simp [State.afterSetTimeout, Instr.flags], rfl, rfl, rfl, hr, rfl, rfl, rfl, rfl⟩
  · obtain ⟨u, hrun⟩ := alone_setTimeout (i := .setTimeoutNone) rfl hl hr rfl hus
    exact ⟨_, hrun, by simp [State.afterSetTimeout, Instr.flags], rfl, rfl, rfl, hr, rfl, rfl, rfl, rfl⟩
  · exact exec_offering_refuses hu nofun rfl
  · exact exec_offering_refuses hu nofun rfl

/-! ## The baud formula -/

/-- Settles O59: the formula gives 270 exactly when the quotient by 8 * 115200 = 921600 is 271 (R135). -/
theorem baudDivisorFormula : Obligations.BaudDivisorFormula := by
  unfold Obligations.BaudDivisorFormula
  intro clock
  have hvalue : Config.baudValue.toNat = 270 := by decide
  have hquotient : Config.baudDivisor clock 115200 = 270 ↔ clock / 921600 = 271 := by
    unfold Config.baudDivisor; omega
  rw [hvalue, hquotient]
  omega

end Sys2Proof.Machine

/-! SUPPORT. HAS_BYTE as a whole command with only the engine moving (R154), and the deadline test as arithmetic on the time
counts (R160). -/

namespace Sys2Proof.Machine

/-! ## HAS_BYTE as a whole -/

/-- The response to HAS_BYTE: VALUE 1 when the receive FIFO holds a byte, else 0 (R154). -/
def State.hasByteResponse (s : State) : ResponseWord := if s.rxq = [] then 0x000000000#34 else 0x000000001#34

/-- Line H1 answers bit 0 of the LSR word that H0 read. -/
theorem responseWord_lsrWord_bit0 {s : State} (hr : s.life = .ready) :
    responseWord .ok (flagValue (s.lsrWord.getLsbD 0)) = s.hasByteResponse := by
  rw [lsrWord_bit0, dataReady_ready hr, responseWord_ok, State.hasByteResponse]
  cases s.rxq with
  | nil => rfl
  | cons b rest => rfl

/-- The state in which HAS_BYTE, offered in `s`, has answered; `u1` stood in the undefined bits of its poll, `u2` stands
there now. -/
def State.afterHasByte (u1 u2 : Word) (s : State) : State :=
  { s with
    v := { s with undef := u1 }.lsrWord, opc := Instr.hasByte.opc, flags := Instr.hasByte.flags, arg := Instr.hasByte.arg,
    src := [], dst := [], phase := .idle, sched := [], undef := u2, freeCount := s.freeCount + 3,
    trace := .respond s.hasByteResponse :: .memRead (s.cfg.addr .lsr) 4 { s with undef := u1 }.lsrWord :: s.trace }

/-- HAS_BYTE is accepted and takes its two lines. -/
theorem alone_hasByte {s : State} {us : List Word} (hl : s.cfg.legal = true) (hr : s.life = .ready) (hus : us.length = 3) :
    ∃ u1 u2, alone us (s.offering .hasByte [] []) = .next (s.afterHasByte u1 u2) := by
  match us, hus with
  | [_, u1, u2], _ =>
    refine ⟨u1, u2, alone_accepts hl hr rfl ?_⟩
    refine alone_line .h0 (by simpa using hl) rfl (by decide) (line_h0 rfl) ?_
    refine alone_line .h1 (by simpa using hl) rfl (by decide) (line_h1 rfl) ?_
    have hresponse : responseWord .ok (flagValue ({ s with undef := u1 }.lsrWord.getLsbD 0)) = s.hasByteResponse :=
      responseWord_lsrWord_bit0 hr
    rw [alone_nil, State.afterHasByte, ← hresponse]
    -- Both states field by field: compared folded, their LSR words are too costly to check.
    simp only [State.answered, State.schedule, State.goto, State.record, State.readLsr, State.supply, State.latch,
      State.offering]
    rfl

/-- Settles O25: the run ends in `afterHasByte`, and its one poll reads the flag of the receive FIFO. -/
theorem hasByteAnswersTheFlag : Obligations.HasByteAnswersTheFlag := by
  unfold Obligations.HasByteAnswersTheFlag
  refine ⟨fun s us hl hr hus => ?_, fun s hu => exec_offering_refuses hu nofun rfl⟩
  obtain ⟨u1, u2, hrun⟩ := alone_hasByte hl hr hus
  have hflag : { s with undef := u1 }.lsrWord.getLsbD 0 = true ↔ s.rxq ≠ [] := dataReadyIsExactAndStable.1 _ hr
  exact ⟨s.afterHasByte u1 u2, _, hrun, rfl, hflag, rfl, rfl, rfl, rfl, rfl, hr, rfl, rfl, rfl, rfl, rfl, rfl, rfl, rfl⟩

/-! ## The deadline test -/

/-- The product of the deadline test is exact in 42 bits (R160). -/
theorem duration_lt (ms : Word) : ms.toNat * 1000 < 2 ^ 42 := by
  have hms : ms.toNat < 2 ^ 32 := ms.isLt
  omega

/-- The deadline test compares the elapsed time with the duration, strictly (R160). -/
theorem expired_iff (t0 now : Micros) (ms : Word) : expired t0 now ms = true ↔ ms.toNat * 1000 < (now - t0).toNat :=
  decide_eq_true_iff

/-- The deadline test depends on the two samples through their difference only. -/
theorem expired_congr_elapsed {t0 now t0' now' : Micros} (h : now - t0 = now' - t0') (ms : Word) :
    expired t0 now ms = expired t0' now' ms := by
  unfold expired; rw [h]

/-- At its deadline exactly, a wait has not expired: the comparison is strict (R160). -/
theorem expired_at_deadline (t0 : Micros) (ms : Word) :
    expired t0 (t0 + BitVec.ofNat 64 (ms.toNat * 1000)) ms = false := by
  have helapsed : (t0 + BitVec.ofNat 64 (ms.toNat * 1000) - t0).toNat = ms.toNat * 1000 := by
    have hlt : ms.toNat * 1000 < 2 ^ 64 := (duration_lt ms).trans (by decide)
    rw [add_sub_cancel_left, BitVec.toNat_ofNat, Nat.mod_eq_of_lt hlt]
  rw [← Bool.not_eq_true, expired_iff, helapsed]
  exact lt_irrefl _

/-- Settles O28: the test is a comparison with the elapsed time, which is a difference modulo 2^64. -/
theorem deadlineTest : Obligations.DeadlineTest := by
  unfold Obligations.DeadlineTest
  refine ⟨fun t0 now ms => ?_, fun t0 now ms _ hle => ?_, fun t0 now d ms => ?_, expired_at_deadline, duration_lt⟩
  · rw [expired_iff, BitVec.toNat_sub']
  · rw [expired_iff, BitVec.toNat_sub_of_le hle]
    omega
  · exact expired_congr_elapsed (add_sub_add_right_eq_sub now t0 d) ms

end Sys2Proof.Machine

/-! SUPPORT. FLUSH as a whole command with only the engine moving (R190), and the refusal of an operation that the build does
not have (R115). -/

namespace Sys2Proof.Machine

/-- At IDLE an operation that the build does not have is refused, in either lifecycle state (R115, R116). -/
theorem exec_idle_lacksFacade {i : Instr} {s : State} (hp : s.phase = .idle)
    (hw : i.wellFormed s.cfg.hostBuild = false) : exec i s = .refused (.reservedWord .facade) := by
  rcases exec_idle (i := i) hp with ⟨hyes, _⟩ | ⟨hyes, _⟩ | ⟨_, he⟩
  · exact absurd (hyes.symm.trans hw) (by decide)
  · exact absurd (hyes.symm.trans hw) (by decide)
  · exact he

/-- FLUSH exists exactly in a host build (R116). -/
theorem flush_wellFormed (hostBuild : Bool) : Instr.flush.wellFormed hostBuild = hostBuild := by
  cases hostBuild <;> rfl

/-- The state in which FLUSH, offered in `s`, has answered; `u` stands in the undefined bits. -/
def State.afterFlush (u : Word) (s : State) : State :=
  { s with
    opc := Instr.flush.opc, flags := Instr.flush.flags, arg := Instr.flush.arg, src := [], dst := [], phase := .idle,
    sched := [], undef := u, freeCount := s.freeCount + 2, trace := .respond (responseWord .ok 0#32) :: s.trace }

/-- FLUSH is accepted and takes its one line. -/
theorem alone_flush {s : State} {us : List Word} (hl : s.cfg.legal = true) (hb : s.cfg.hostBuild = true)
    (hr : s.life = .ready) (hus : us.length = 2) :
    ∃ u, alone us (s.offering .flush [] []) = .next (s.afterFlush u) := by
  match us, hus with
  | [_, u], _ =>
    have hw : Instr.flush.wellFormed s.cfg.hostBuild = true := (flush_wellFormed _).trans hb
    refine ⟨u, alone_accepts hl hr hw ?_⟩
    refine alone_line .f0 (by simpa using hl) rfl (by decide) (line_f0 rfl) ?_
    rw [alone_nil, State.afterFlush]
    -- Both states field by field: compared folded, they are too costly to check.
    simp only [State.answered, State.schedule, State.goto, State.record, State.supply, State.latch, State.offering]
    rfl

/-- Settles O47: line F0 is the answer alone, and the whole command ends in `afterFlush`, which differs from the state before
it in the latched command with its buffers, the answer, and the model's schedule and free values only. -/
theorem flushDoesNothing : Obligations.FlushDoesNothing := by
  unfold Obligations.FlushDoesNothing
  refine ⟨fun s hp => ?_, fun s us hl hb hr hus => ?_, fun s hb => ?_, fun s hb hu => ?_⟩
  · have hline : exec .flush s = .next s.line := exec_inProgress (by simp only [State.inProgress, hp])
    rw [hline, line_f0 hp]
    rfl
  · obtain ⟨u, hrun⟩ := alone_flush hl hb hr hus
    exact ⟨s.afterFlush u, hrun, rfl, rfl, rfl, rfl, rfl, rfl, rfl, rfl, hr⟩
  · exact exec_idle_lacksFacade rfl ((flush_wellFormed _).trans hb)
  · exact exec_offering_refuses hu nofun ((flush_wellFormed _).trans hb)

end Sys2Proof.Machine

/-! SUPPORT. The moves of the other agents, as the schedule gives them (R40, R82), and the way to Timeout (R201): the poll that
sees no byte, the deadline test whose sample is expired, the timeout point and the answer, said once for the two operations
that wait. -/

namespace Sys2Proof.Machine

/-! ## Other agents -/

theorem step_scheduledMove {s : State} {m : EnvMove} {rest : List Move} (hl : s.cfg.legal = true)
    (hs : s.sched = .env m :: rest) : step s = envMove m { s with sched := rest } := by
  simp only [step, stepAgents, hl, hs, if_true]

/-- Settles O9: `step` takes the move at the head of the schedule, and `envMove` refuses the move `intrude`. -/
theorem scheduledAgentMoves : Obligations.ScheduledAgentMoves := by
  unfold Obligations.ScheduledAgentMoves
  intro s m rest hl hs
  have hstep := step_scheduledMove hl hs
  refine ⟨hstep, ?_⟩
  rintro rfl
  exact hstep

theorem envMove_phase {m : EnvMove} {s t : State} (h : envMove m s = .next t) : t.phase = s.phase := by
  rcases envMove_next h with ⟨b, _, rfl⟩ | ⟨_, rfl⟩ | ⟨d, _, rfl⟩ | ⟨v, _, rfl⟩ | ⟨_, rfl⟩ | ⟨c, _, rfl⟩ | ⟨i, b, _, rfl⟩ <;>
    rfl

/-! ## The control points of the way to Timeout -/

/-- The control point is a deadline test or a timeout point. -/
def Phase.nearTimeout (p : Phase) : Bool := p.atDeadline || p.isTimeout

theorem nearTimeout_of_atDeadline {p : Phase} (h : p.atDeadline = true) : p.nearTimeout = true := by
  rw [Phase.nearTimeout, h, Bool.true_or]

theorem nearTimeout_of_isTimeout {p : Phase} (h : p.isTimeout = true) : p.nearTimeout = true := by
  rw [Phase.nearTimeout, h, Bool.or_true]

theorem not_nearTimeout_firstLabel (i : Instr) : (firstLabel i).nearTimeout = false := by
  cases i <;> rfl

/-- The calls of procedure `wait`, by WAIT_FOR_BYTE (R159) and by BUF_READ (R185): its control points and its two returns. -/
inductive WaitCall : (here : WaitPoint → Phase) → (ok late : Phase) → Prop
  | waitForByte : WaitCall .a0 (.a1 .ok) (.a1 .timedOut)
  | bufRead : WaitCall .q0 .q1 .q0timeout

/-- The lines that lead to Timeout (R158, R201): a poll sees no byte with a timeout present and goes to the deadline test; a
deadline test finds its sample expired and goes to the timeout point. -/
inductive State.TimeoutLine (s : State) : State → Prop
  | failedPoll {here : WaitPoint → Phase} {ok late : Phase} (hc : WaitCall here ok late) (hp : s.phase = here .w1)
      (hd : s.dataReady = false) (hv : s.toValid = true) : TimeoutLine s (s.readLsr.goto (here .w2))
  | expiredSample {here : WaitPoint → Phase} {ok late : Phase} (hc : WaitCall here ok late) (hp : s.phase = here .w2)
      (he : expired s.t0 s.time s.toMs = true) : TimeoutLine s (s.sampleNow.goto late)

theorem atDeadline_waitCall {p : Phase} (h : p.atDeadline = true) :
    ∃ here ok late, WaitCall here ok late ∧ p = here .w2 := by
  unfold Phase.atDeadline at h
  split at h
  · exact ⟨_, _, _, .waitForByte, rfl⟩
  · exact ⟨_, _, _, .bufRead, rfl⟩
  · cases h

theorem waitPoll_waitCall {p : Phase} (h : p ∈ [Phase.a0 .w1, .q0 .w1]) :
    ∃ here ok late, WaitCall here ok late ∧ p = here .w1 := by
  rw [List.mem_pair] at h
  rcases h with rfl | rfl
  · exact ⟨_, _, _, .waitForByte, rfl⟩
  · exact ⟨_, _, _, .bufRead, rfl⟩

section
variable {here : WaitPoint → Phase} {ok late : Phase} {s t : State}

theorem WaitCall.line_eq {p : WaitPoint} (hc : WaitCall here ok late) (hp : s.phase = here p) :
    s.line = s.waitStep here ok late p := by
  cases hc with
  | waitForByte => exact line_a0 hp
  | bufRead => exact line_q0 hp

theorem WaitCall.busy (hc : WaitCall here ok late) (p : WaitPoint) : here p ≠ .idle := by
  cases hc <;> nofun

theorem WaitCall.atDeadline_w2 (hc : WaitCall here ok late) : (here .w2).atDeadline = true := by
  cases hc <;> rfl

theorem WaitCall.not_isTimeout_w2 (hc : WaitCall here ok late) : (here .w2).isTimeout = false := by
  cases hc <;> rfl

theorem WaitCall.not_nearTimeout_w1 (hc : WaitCall here ok late) : (here .w1).nearTimeout = false := by
  cases hc <;> rfl

theorem WaitCall.not_nearTimeout_ok (hc : WaitCall here ok late) : ok.nearTimeout = false := by
  cases hc <;> rfl

theorem WaitCall.isTimeout_late (hc : WaitCall here ok late) : late.isTimeout = true := by
  cases hc <;> rfl

theorem WaitCall.not_atDeadline_late (hc : WaitCall here ok late) : late.atDeadline = false := by
  cases hc <;> rfl

/-! ## Lines -/

theorem State.TimeoutLine.line_eq (h : s.TimeoutLine t) : s.line = t := by
  cases h with
  | failedPoll hc hp hd hv => simp [hc.line_eq hp, State.waitStep, hd, hv]
  | expiredSample hc hp he => simp [hc.line_eq hp, State.waitStep, he]

theorem State.TimeoutLine.busy (h : s.TimeoutLine t) : s.phase ≠ .idle := by
  cases h with
  | failedPoll hc hp | expiredSample hc hp => exact hp ▸ hc.busy _

/-- `wait` comes near Timeout only by a failed poll and by an expired sample. -/
theorem WaitCall.timeoutLine {p : WaitPoint} (hc : WaitCall here ok late) (hp : s.phase = here p)
    (h : s.line.phase.nearTimeout = true) : s.TimeoutLine s.line := by
  rw [hc.line_eq hp] at h ⊢
  have hw1 := hc.not_nearTimeout_w1
  cases p with
  | w0 => exact absurd (h.symm.trans hw1) (by decide)
  | w1 =>
    simp only [State.waitStep, State.goto_phase] at h ⊢
    split at h
    · exact absurd (h.symm.trans hc.not_nearTimeout_ok) (by decide)
    · split at h
      · next hd hv => simpa [hd, hv] using State.TimeoutLine.failedPoll hc hp (Bool.eq_false_iff.mpr hd) hv
      · exact absurd (h.symm.trans hw1) (by decide)
  | w2 =>
    simp only [State.waitStep, State.goto_phase] at h ⊢
    split at h
    · next he => simpa [he] using State.TimeoutLine.expiredSample hc hp he
    · exact absurd (h.symm.trans hw1) (by decide)

/-- Only `wait` leads near Timeout. -/
theorem line_timeoutLine (h : s.line.phase.nearTimeout = true) : s.TimeoutLine s.line := by
  cases hp : s.phase with
  | a0 p => exact WaitCall.waitForByte.timeoutLine hp h
  | q0 p => exact WaitCall.bufRead.timeoutLine hp h
  | b0 p => rw [line_b0 hp, txStep_phase Phase.nearTimeout false (fun _ => rfl) rfl] at h; cases h
  | x3tx p => rw [line_x3tx hp, txStep_phase Phase.nearTimeout false (fun _ => rfl) rfl] at h; cases h
  | x4 p => rw [line_x4 hp, txStep_phase Phase.nearTimeout false (fun _ => rfl) rfl] at h; cases h
  | y3 p => rw [line_y3 hp, txStep_phase Phase.nearTimeout false (fun _ => rfl) rfl] at h; cases h
  | d0 p => rw [line_d0 hp, rxStep_phase Phase.nearTimeout false (fun _ => rfl) rfl] at h; cases h
  | q4 p => rw [line_q4 hp, rxStep_phase Phase.nearTimeout false (fun _ => rfl) rfl] at h; cases h
  | x1 => rw [line_x1 hp, loopStep_phase Phase.nearTimeout false rfl rfl] at h; cases h
  | q2 => rw [line_q2 hp, loopStep_phase Phase.nearTimeout false rfl rfl] at h; cases h
  | y1 => rw [line_y1 hp, loopStep_phase Phase.nearTimeout false rfl rfl] at h; cases h
  | x3 => rw [line_x3 hp, State.goto_phase] at h; split at h <;> cases h
  | q3 => rw [line_q3 hp, State.goto_phase] at h; split at h <;> cases h
  | a1 r => cases r <;> simp only [State.line, hp] at h <;> cases h
  | _ => simp only [State.line, hp] at h; cases h

/-- At a timeout point the line raises Timeout (R200). -/
theorem line_isTimeout (h : s.phase.isTimeout = true) : s.line = s.answered .timedOut 0#32 := by
  unfold Phase.isTimeout at h
  split at h
  · exact line_a1_timedOut ‹_›
  · exact line_q0timeout ‹_›
  · cases h

/-! ## Steps -/

/-- Of the agents only the engine's line leads to a control point that is no operation's first. -/
theorem step_enters {f : Phase → Bool} (hfirst : ∀ i, f (firstLabel i) = false) (h : step s = .next t)
    (hs : f s.phase = false) (ht : f t.phase = true) : ∃ u rest, t = (s.supply u rest).line := by
  rcases step_shape h with ⟨u, rest, _, rfl | ⟨i, rfl⟩ | rfl⟩ | ⟨m, rest, _, hm⟩
  · exact absurd (ht.symm.trans hs) (by decide)
  · exact absurd (ht.symm.trans (hfirst i)) (by decide)
  · exact ⟨u, rest, rfl⟩
  · rw [envMove_phase hm] at ht
    exact absurd (ht.symm.trans hs) (by decide)

theorem step_enters_timeoutLine {f : Phase → Bool} (hf : ∀ p, f p = true → p.nearTimeout = true) (h : step s = .next t)
    (hs : f s.phase = false) (ht : f t.phase = true) : ∃ u rest, (s.supply u rest).TimeoutLine t := by
  have hfirst : ∀ i, f (firstLabel i) = false := fun i => by
    rw [← Bool.not_eq_true]
    exact fun hi => absurd ((hf _ hi).symm.trans (not_nearTimeout_firstLabel i)) (by decide)
  obtain ⟨u, rest, rfl⟩ := step_enters hfirst h hs ht
  exact ⟨u, rest, line_timeoutLine (hf _ ht)⟩

theorem step_busy {e : State} (hl : s.cfg.legal = true) (he : s.engineTurn = some e) (hp : s.phase ≠ .idle) :
    step s = .next e.line := by
  obtain ⟨u, rest, rfl⟩ := engineTurn_supply he
  rw [step_engineTurn hl he]
  exact engineStep_busy hp

theorem step_isTimeout_expired (h : step s = .next t) (hs : s.phase.isTimeout = false) (ht : t.phase.isTimeout = true) :
    s.phase.atDeadline = true ∧ t.now = s.time ∧ expired s.t0 s.time s.toMs = true := by
  obtain ⟨u, rest, hline⟩ := step_enters_timeoutLine (fun _ => nearTimeout_of_isTimeout) h hs ht
  cases hline with
  | failedPoll hc _ _ _ => exact absurd (ht.symm.trans hc.not_isTimeout_w2) (by decide)
  | expiredSample hc hp he =>
    have hdeadline : s.phase.atDeadline = true := (congrArg Phase.atDeadline hp).trans hc.atDeadline_w2
    exact ⟨hdeadline, rfl, he⟩

theorem step_atDeadline_failedPoll (h : step s = .next t) (hs : s.phase.atDeadline = false)
    (ht : t.phase.atDeadline = true) :
    ∃ w, t.trace = .memRead (s.cfg.addr .lsr) 4 w :: s.trace ∧ w.getLsbD 0 = false ∧ s.toValid = true := by
  obtain ⟨u, rest, hline⟩ := step_enters_timeoutLine (fun _ => nearTimeout_of_atDeadline) h hs ht
  cases hline with
  | failedPoll _ _ hd hv => exact ⟨_, rfl, (lsrWord_bit0 _).trans hd, hv⟩
  | expiredSample hc _ _ => exact absurd (ht.symm.trans hc.not_atDeadline_late) (by decide)

theorem step_timeoutLine {e : State} (hl : s.cfg.legal = true) (he : s.engineTurn = some e) (hline : e.TimeoutLine t) :
    step s = .next t := by
  obtain ⟨u, rest, rfl⟩ := engineTurn_supply he
  rw [step_busy hl he hline.busy, hline.line_eq]

/-- With a timeout present, the poll of `wait` that sees no byte leads to the deadline test. -/
theorem step_failedPoll {e : State} (hl : s.cfg.legal = true) (he : s.engineTurn = some e)
    (hp : s.phase ∈ [Phase.a0 .w1, .q0 .w1]) (hd : e.dataReady = false) (hv : s.toValid = true) :
    ∃ t, step s = .next t ∧ t.phase.atDeadline = true ∧ t.trace = .memRead (s.cfg.addr .lsr) 4 e.lsrWord :: s.trace := by
  obtain ⟨u, rest, rfl⟩ := engineTurn_supply he
  obtain ⟨_, _, _, hc, hphase⟩ := waitPoll_waitCall hp
  exact ⟨_, step_timeoutLine hl he (.failedPoll hc hphase hd hv), hc.atDeadline_w2, rfl⟩

/-- A deadline test whose sample is expired leads to the timeout point. -/
theorem step_expiredSample {e : State} (hl : s.cfg.legal = true) (he : s.engineTurn = some e)
    (hp : s.phase.atDeadline = true) (hexp : expired s.t0 s.time s.toMs = true) :
    ∃ t, step s = .next t ∧ t.phase.isTimeout = true ∧ t.now = s.time ∧ t.trace = .timeNow s.time :: s.trace := by
  obtain ⟨u, rest, rfl⟩ := engineTurn_supply he
  obtain ⟨_, _, _, hc, hphase⟩ := atDeadline_waitCall hp
  exact ⟨_, step_timeoutLine hl he (.expiredSample hc hphase hexp), hc.isTimeout_late, rfl, rfl⟩

/-- At a timeout point the step answers TIMED_OUT. -/
theorem step_isTimeout {e : State} (hl : s.cfg.legal = true) (he : s.engineTurn = some e)
    (hp : s.phase.isTimeout = true) : step s = .next (e.answered .timedOut 0#32) := by
  have hbusy : s.phase ≠ .idle := fun hidle => absurd (hidle ▸ hp) (by decide)
  obtain ⟨u, rest, rfl⟩ := engineTurn_supply he
  rw [step_busy hl he hbusy, line_isTimeout (s := s.supply u rest) hp]

end

/-- Settles O34: near Timeout only the two lines of `State.TimeoutLine` lead, and at a timeout point the line answers; the
invariant keeps what the two lines found up to the answer. -/
theorem timeoutOnlyWhenExpired : Obligations.TimeoutOnlyWhenExpired := by
  unfold Obligations.TimeoutOnlyWhenExpired
  refine ⟨fun s t w hI h ht hw => ?_, fun s t hI h hs ht => ?_, fun s t => step_atDeadline_failedPoll,
    fun s e hl he hp hr hv hq => ?_, fun s e hl he hp hlt => ?_, fun s e hl he hp => ?_⟩
  · rcases step_answers h ht with ⟨value, rfl⟩ | ⟨hp, rfl⟩
    · exact absurd (responseWord_status_ok value) hw
    · obtain ⟨hv, hexp⟩ := hI.late hp
      exact ⟨isTimeout_operation hp, hp, hv, (expired_iff _ _ _).mp hexp, by decide⟩
  · obtain ⟨hd, hnow, hexp⟩ := step_isTimeout_expired h hs ht
    exact ⟨hd, hI.deadline hd, hnow, (expired_iff _ _ _).mp hexp⟩
  · have hd : e.dataReady = false := by
      obtain ⟨u, rest, rfl⟩ := engineTurn_supply he
      simp [State.dataReady, hr, hq]
    obtain ⟨t, h, hdeadline, htrace⟩ := step_failedPoll hl he hp hd hv
    exact ⟨t, e.lsrWord, h, hdeadline, (lsrWord_bit0 e).trans hd, htrace⟩
  · exact step_expiredSample hl he hp ((expired_iff _ _ _).mpr hlt)
  · obtain ⟨u, rest, rfl⟩ := engineTurn_supply he
    exact ⟨_, step_isTimeout hl he hp, rfl, rfl⟩

end Sys2Proof.Machine

/-! SUPPORT. One poll licenses one access (R242): what stands before the engine's IO accesses in the trace, kept by every step
of every agent. -/

namespace Sys2Proof.Machine

/-! ## The gates -/

/-- The next transaction is an access of the data I/O field. -/
def Phase.atIo (p : Phase) : Bool := p.atIoWrite || p.atIoRead

theorem atIo_of_atIoWrite {p : Phase} (h : p.atIoWrite = true) : p.atIo = true := by
  rw [Phase.atIo, h, Bool.true_or]

theorem atIo_of_atIoRead {p : Phase} (h : p.atIoRead = true) : p.atIo = true := by
  rw [Phase.atIo, h, Bool.or_true]

theorem not_atIo_firstLabel (i : Instr) : (firstLabel i).atIo = false := by
  cases i <;> rfl

/-- Every IO access so far was licensed, and the one at the control point is. -/
structure State.Licensed (s : State) : Prop where
  gated : Gated s.cfg s.trace
  write : s.phase.atIoWrite = true → JustPolled s.cfg 5 s.trace
  read : s.phase.atIoRead = true → JustPolled s.cfg 0 s.trace

/-- The lines that lead to an IO access (R150, R163): a poll that sees room goes on to no IO read, one that sees a byte to no
IO write. -/
inductive State.LicensingPoll (s : State) : State → Prop
  | space {q : Phase} (h : s.txSpace = true) (hq : q.atIoRead = false) : LicensingPoll s (s.readLsr.goto q)
  | byte {q : Phase} (h : s.dataReady = true) (hq : q.atIoWrite = false) : LicensingPoll s (s.readLsr.goto q)

section
variable {c : Config} {r : List Transaction} {s t : State}

theorem Gated.cons_other {x : Transaction} (h : Gated c r) (hw : ¬ x.IsIoWrite c) (hr : ¬ x.IsIoRead c) :
    Gated c (x :: r) :=
  ⟨fun hx => absurd hx hw, fun hx => absurd hx hr, h⟩

theorem Gated.cons_write {a v : Word} {n : Nat} (h : Gated c r) (hpoll : a = c.addr .io → JustPolled c 5 r) :
    Gated c (.memWrite a n v :: r) :=
  ⟨hpoll, False.elim, h⟩

theorem Gated.cons_read {a v : Word} {n : Nat} (h : Gated c r) (hpoll : a = c.addr .io → JustPolled c 0 r) :
    Gated c (.memRead a n v :: r) :=
  ⟨False.elim, hpoll, h⟩

theorem State.Licensed.of_same (h : s.Licensed) (hcfg : t.cfg = s.cfg) (htrace : t.trace = s.trace)
    (hphase : t.phase = s.phase ∨ t.phase.atIo = false) : t.Licensed := by
  have hsame : t.phase.atIo = true → t.phase = s.phase := fun hio =>
    hphase.resolve_right fun hn => absurd (hio.symm.trans hn) (by decide)
  refine ⟨by rw [hcfg, htrace]; exact h.gated, fun hw => ?_, fun hr => ?_⟩
  · rw [hcfg, htrace]
    exact h.write (hsame (atIo_of_atIoWrite hw) ▸ hw)
  · rw [hcfg, htrace]
    exact h.read (hsame (atIo_of_atIoRead hr) ▸ hr)

/-! ## The transaction of a line -/

/-- An IO access is made only where it is licensed; every other bus access has another address. -/
theorem State.Licensed.effect_gated {e : State} (h : s.Licensed) (he : s.Effect e) : Gated e.cfg e.trace := by
  have hfield : ∀ f : Field, f ≠ .io → s.cfg.addr f ≠ s.cfg.addr .io := fun f hf heq => hf (addr_inj heq)
  cases he with
  | none | index _ => exact h.gated
  | poll => exact h.gated.cons_read fun heq => absurd heq (hfield .lsr nofun)
  | sendIo b hp => exact h.gated.cons_write fun _ => h.write hp
  | takeIo hp => exact h.gated.cons_read fun _ => h.read hp
  | readEnable _ => exact h.gated.cons_read fun heq => absurd heq (enbAddr_ne_addr s.cfg .io)
  | writeEnable _ => exact h.gated.cons_write fun heq => absurd heq (enbAddr_ne_addr s.cfg .io)
  | writeLcr _ => exact h.gated.cons_write fun heq => absurd heq (hfield .lcr nofun)
  | writeBaud _ => exact h.gated.cons_write fun heq => absurd heq (hfield .baud nofun)
  | writeCntl _ => exact h.gated.cons_write fun heq => absurd heq (hfield .cntl nofun)
  | startTime | sampleTime | fetch | store | answer _ _ | setPin14 _ | setPin15 _ | finishInit _ | setTimeout _ =>
    exact h.gated.cons_other id id

/-! ## The way to an IO access -/

theorem txStep_licensingPoll {b : Byte} {here : TxPoint → Phase} {ret : Phase} {p : TxPoint}
    (ht0 : (here .t0).atIo = false) (ht1 : (here .t1).atIoRead = false) (hret : ret.atIo = false)
    (h : (s.txStep b here ret p).phase.atIo = true) : s.LicensingPoll (s.txStep b here ret p) := by
  cases p with
  | t0 =>
    simp only [State.txStep, State.goto_phase] at h ⊢
    split at h
    · next hs => simpa [hs] using State.LicensingPoll.space hs ht1
    · exact absurd (h.symm.trans ht0) (by decide)
  | t1 => exact absurd (h.symm.trans hret) (by decide)

theorem rxStep_licensingPoll {here : RxPoint → Phase} {ret : Phase} {p : RxPoint}
    (hrx0 : (here .rx0).atIo = false) (hrx1 : (here .rx1).atIoWrite = false) (hret : ret.atIo = false)
    (h : (s.rxStep here ret p).phase.atIo = true) : s.LicensingPoll (s.rxStep here ret p) := by
  cases p with
  | rx0 =>
    simp only [State.rxStep, State.goto_phase] at h ⊢
    split at h
    · next hd => simpa [hd] using State.LicensingPoll.byte hd hrx1
    · exact absurd (h.symm.trans hrx0) (by decide)
  | rx1 => exact absurd (h.symm.trans hret) (by decide)

/-- Only the polls of `tx` and `rx` lead to an IO access. -/
theorem line_licensingPoll (h : s.line.phase.atIo = true) : s.LicensingPoll s.line := by
  cases hp : s.phase with
  | b0 p => rw [line_b0 hp] at h ⊢; exact txStep_licensingPoll rfl rfl rfl h
  | x3tx p => rw [line_x3tx hp] at h ⊢; exact txStep_licensingPoll rfl rfl rfl h
  | x4 p => rw [line_x4 hp] at h ⊢; exact txStep_licensingPoll rfl rfl rfl h
  | y3 p => rw [line_y3 hp] at h ⊢; exact txStep_licensingPoll rfl rfl rfl h
  | d0 p => rw [line_d0 hp] at h ⊢; exact rxStep_licensingPoll rfl rfl rfl h
  | q4 p => rw [line_q4 hp] at h ⊢; exact rxStep_licensingPoll rfl rfl rfl h
  | a0 p => rw [line_a0 hp, waitStep_phase Phase.atIo false (fun _ => rfl) rfl rfl] at h; cases h
  | q0 p => rw [line_q0 hp, waitStep_phase Phase.atIo false (fun _ => rfl) rfl rfl] at h; cases h
  | x1 => rw [line_x1 hp, loopStep_phase Phase.atIo false rfl rfl] at h; cases h
  | q2 => rw [line_q2 hp, loopStep_phase Phase.atIo false rfl rfl] at h; cases h
  | y1 => rw [line_y1 hp, loopStep_phase Phase.atIo false rfl rfl] at h; cases h
  | x3 => rw [line_x3 hp, State.goto_phase] at h; split at h <;> cases h
  | q3 => rw [line_q3 hp, State.goto_phase] at h; split at h <;> cases h
  | a1 r => cases r <;> simp only [State.line, hp] at h <;> cases h
  | _ => simp only [State.line, hp] at h; cases h

theorem State.LicensingPoll.justPolled_write (h : s.LicensingPoll t) (hw : t.phase.atIoWrite = true) :
    JustPolled t.cfg 5 t.trace := by
  cases h with
  | space hs _ => exact ⟨_, _, rfl, rfl, rfl, (lsrWord_bit5 s).trans hs⟩
  | byte _ hq => exact absurd (hw.symm.trans hq) (by decide)

theorem State.LicensingPoll.justPolled_read (h : s.LicensingPoll t) (hr : t.phase.atIoRead = true) :
    JustPolled t.cfg 0 t.trace := by
  cases h with
  | space _ hq => exact absurd (hr.symm.trans hq) (by decide)
  | byte hd _ => exact ⟨_, _, rfl, rfl, rfl, (lsrWord_bit0 s).trans hd⟩

/-! ## `State.Licensed` is kept -/

theorem line_gated (h : s.Licensed) : Gated s.line.cfg s.line.trace := by
  obtain ⟨e, q, he, hl⟩ := line_effect s
  rw [hl, State.goto_cfg, State.goto_trace]
  exact h.effect_gated he

theorem line_licensed (h : s.Licensed) : s.line.Licensed :=
  ⟨line_gated h, fun hw => (line_licensingPoll (atIo_of_atIoWrite hw)).justPolled_write hw,
    fun hr => (line_licensingPoll (atIo_of_atIoRead hr)).justPolled_read hr⟩

theorem step_licensed (h : s.Licensed) (hs : step s = .next t) : t.Licensed := by
  rcases step_shape hs with ⟨u, rest, _, rfl | ⟨i, rfl⟩ | rfl⟩ | ⟨m, rest, _, hm⟩
  · exact h.of_same rfl rfl (.inl rfl)
  · exact h.of_same rfl rfl (.inr (not_atIo_firstLabel i))
  · exact line_licensed (s := s.supply u rest) (h.of_same rfl rfl (.inl rfl))
  · have hsched : { s with sched := rest }.Licensed := h.of_same rfl rfl (.inl rfl)
    exact hsched.of_same (envMove_cfg hm) (envMove_trace hm) (.inl (envMove_phase hm))

end

/-- Settles O55: `State.Licensed` holds at reset, where there is no transaction and the engine is at IDLE, and every step
keeps it. -/
theorem everyIoAccessIsGated : Obligations.EveryIoAccessIsGated := by
  unfold Obligations.EveryIoAccessIsGated
  refine ⟨fun s t hg hw hr hs => ?_, fun c p cmds moves k t hrun => ?_⟩
  · obtain ⟨hg', hw', hr'⟩ := step_licensed ⟨hg, hw, hr⟩ hs
    exact ⟨hg', hw', hr'⟩
  · have hstep : ∀ a b : State, a.Licensed ∧ a.cfg = c → step a = .next b → b.Licensed ∧ b.cfg = c :=
      fun a b ⟨h, hcfg⟩ hab => ⟨step_licensed h hab, (step_cfg hab).trans hcfg⟩
    have hreset : { State.resetWith c p with cmds := cmds, sched := moves }.Licensed := ⟨trivial, nofun, nofun⟩
    obtain ⟨h, rfl⟩ := run_keeps hstep k _ t ⟨hreset, rfl⟩ hrun
    exact h.gated

end Sys2Proof.Machine

/-! SUPPORT. Before INIT is accepted (R233), and the set-bit on ENB with another bus master between its read and its write
(R243). -/

namespace Sys2Proof.Machine

/-! ## Before INIT -/

theorem envMove_life {m : EnvMove} {s t : State} (h : envMove m s = .next t) : t.life = s.life := by
  rcases envMove_next h with ⟨b, _, rfl⟩ | ⟨_, rfl⟩ | ⟨d, _, rfl⟩ | ⟨v, _, rfl⟩ | ⟨_, rfl⟩ | ⟨c, _, rfl⟩ | ⟨i, b, _, rfl⟩ <;>
    rfl

/-- INIT is the one operation that UNINIT admits (R114). -/
theorem eq_init_of_lifeFor_uninit {i : Instr} (h : lifeFor i = .uninit) : i = .init := by
  by_contra hi
  exact absurd (h.symm.trans (lifeFor_of_ne_init hi)) (by decide)

/-- At IDLE with no command offered the engine's step waits. -/
theorem step_waits {s e : State} (hl : s.cfg.legal = true) (he : s.engineTurn = some e) (hp : s.phase = .idle)
    (hc : s.cmds = []) : step s = .next e := by
  obtain ⟨u, rest, rfl⟩ := engineTurn_supply he
  rw [step_engineTurn hl he, engineStep_idle (s := s.supply u rest) hp]
  simp only [acceptNext, State.supply_cmds, hc]

/-- Settles O7: from IDLE in UNINIT a step waits, accepts a command that UNINIT admits, or is another agent's. -/
theorem nothingHappensBeforeInit : Obligations.NothingHappensBeforeInit := by
  unfold Obligations.NothingHappensBeforeInit
  refine ⟨fun s t hu hp h => ?_, fun s e => step_waits⟩
  obtain ⟨_, ⟨e, he, _, _, rfl⟩ | ⟨e, c, rest, i, he, _, hc, hd, _, hi, rfl⟩ | ⟨_, _, hbusy, _⟩ | ⟨m, rest, _, _, hm⟩⟩ :=
    step_next h
  · obtain ⟨u, rest, rfl⟩ := engineTurn_supply he
    exact ⟨rfl, hu, .inl hp⟩
  · obtain ⟨u, moves, rfl⟩ := engineTurn_supply he
    obtain rfl : i = .init := eq_init_of_lifeFor_uninit (hi.symm.trans hu)
    have hword : c.word = 0x0000000000#40 := (encode_of_decode hd).symm.trans (by decide)
    exact ⟨rfl, hu, .inr ⟨rfl, c, rest, hc, hword⟩⟩
  · exact absurd hp hbusy
  · have htrace := envMove_trace hm
    have hlife := envMove_life hm
    have hphase := envMove_phase hm
    exact ⟨htrace, hlife.trans hu, .inl (hphase.trans hp)⟩

/-! ## The set-bit on ENB -/

/-- Between I0 and I1: ENB has been read, and another bus master has written bits 7 to 1 of it. -/
def State.enbRaced (u : Word) (other : BitVec 7) (rest : List Move) (s : State) : State :=
  ((s.supply u rest).readEnb.goto .i1).foreignEnbWrite other

theorem enbRaced_mem_wf {s : State} (u : Word) (other : BitVec 7) (rest : List Move) (hw : s.mem.wf = true) :
    (s.enbRaced u other rest).mem.wf = true :=
  Memory.wf_write _ _ _ hw

/-- The run ends in the write of the byte that I0 read, with bit 0 added. -/
theorem following_enbRace {s : State} (u u' : Word) (other : BitVec 7) (hl : s.cfg.legal = true) (hp : s.phase = .i0) :
    following [.engine u, .env (.enbWrite other), .engine u'] s =
      .next ((((s.enbRaced u other [.engine u']).supply u' []).writeEnb (s.enb ||| Config.enbMask)).goto .i2) := by
  calc following [.engine u, .env (.enbWrite other), .engine u'] s
      = following [.env (.enbWrite other), .engine u']
          ((s.supply u [.env (.enbWrite other), .engine u']).readEnb.goto .i1) :=
        following_line u _ .i0 hl hp (by decide) (line_i0 hp)
    _ = following [.engine u'] (s.enbRaced u other [.engine u']) := following_env _ _ hl rfl
    _ = following [] ((((s.enbRaced u other [.engine u']).supply u' []).writeEnb (s.enb ||| Config.enbMask)).goto .i2) :=
        following_line u' _ .i1 hl rfl (by decide) (line_i1_of_v rfl rfl)

/-- Settles O17: line I1 writes from `E.V`, which holds the byte of I0, over whatever stands in ENB. -/
theorem enableSwitchRace : Obligations.EnableSwitchRace := by
  unfold Obligations.EnableSwitchRace
  intro s u u' other hl hw hp
  refine ⟨_, following_enbRace u u' other hl hp, ?_, rfl, rfl⟩
  exact writeEnb_enb (enbRaced_mem_wf u other [.engine u'] hw) _

end Sys2Proof.Machine

/-! SUPPORT. The invariant `State.Inv` is kept by every step of every agent: what holds at each control point of the index and
of the waiting byte, the operation that a control point belongs to, and the lines that lead to an IO write and to Timeout. -/

namespace Sys2Proof.Machine
theorem dataReady_iff {s : State} (hl : s.life = .ready) : s.dataReady = true ↔ s.rxq ≠ [] := by
  simp [dataReady_ready hl]

theorem txSpace_iff {s : State} (hl : s.life = .ready) : s.txSpace = true ↔ s.txq.length < s.cfg.txDepth := by
  simp [txSpace_ready hl]

/-- What the invariant says of the index and of the waiting byte, control point by control point. -/
def State.PointFacts (s : State) : Prop :=
  match s.phase with
  | .a1 .ok | .q1 | .d0 .rx1 => s.rxq ≠ []
  | .x1 | .y1 => s.idx.toNat ≤ s.arg.toNat
  | .x2 | .x3 | .x3tx _ | .x4 _ | .x5 | .q5 | .q6 | .y2 | .y3 _ | .y4 => s.idx.toNat < s.arg.toNat
  | .q2 => s.idx.toNat ≤ s.arg.toNat ∧ (s.idx = 0 → s.rxq ≠ [])
  | .q3 => s.idx.toNat < s.arg.toNat ∧ (s.idx = 0 → s.rxq ≠ [])
  | .q3done => s.idx.toNat < s.arg.toNat ∧ s.idx ≠ 0
  | .q4 _ => s.idx.toNat < s.arg.toNat ∧ s.rxq ≠ []
  | _ => True

theorem pointFacts_iff (s : State) : s.PointFacts ↔
    (s.phase.byteWaits = true → s.rxq ≠ []) ∧ (s.phase ∈ [Phase.q2, .q3] → s.idx = 0 → s.rxq ≠ []) ∧
    (s.phase = .q3done → s.idx ≠ 0) ∧ (s.phase.atLoopHead = true → s.idx.toNat ≤ s.arg.toNat) ∧
    (s.phase.inLoopBody = true → s.idx.toNat < s.arg.toNat) := by
  unfold State.PointFacts
  cases hp : s.phase with
  | a1 r => cases r <;> simp [Phase.byteWaits, Phase.atLoopHead, Phase.inLoopBody]
  | d0 p => cases p <;> simp [Phase.byteWaits, Phase.atLoopHead, Phase.inLoopBody]
  | _ => simp [Phase.byteWaits, Phase.atLoopHead, Phase.inLoopBody, and_comm]

theorem State.PointFacts.of_same {s t : State} (h : s.PointFacts) (hp : t.phase = s.phase) (hi : t.idx = s.idx)
    (ha : t.arg = s.arg) (hq : s.rxq ≠ [] → t.rxq ≠ []) : t.PointFacts := by
  rw [pointFacts_iff] at h ⊢
  obtain ⟨hwait, hfirst, hnone, hhead, hbody⟩ := h
  rw [hp, hi, ha]
  exact ⟨fun h => hq (hwait h), fun h h0 => hq (hfirst h h0), hnone, hhead, hbody⟩


theorem toNat_succ_of_lt {i n : Word} (h : i.toNat < n.toNat) : (i + 1#32).toNat = i.toNat + 1 :=
  add_const_toNat i 1 (by omega)

theorem toNat_lt_of_ne {i n : Word} (hle : i.toNat ≤ n.toNat) (hne : i ≠ n) : i.toNat < n.toNat :=
  lt_of_le_of_ne hle fun h => hne (BitVec.eq_of_toNat_eq h)

section
variable {s : State}

/-! The lines of the shared procedures change neither the index nor, but for the IO read, the receive FIFO. -/

theorem txStep_pointFacts {b : Byte} {here : TxPoint → Phase} {ret : Phase} {p : TxPoint}
    (hhere : ∀ q, (s.goto (here q)).PointFacts) (hret : (s.goto ret).PointFacts) :
    (s.txStep b here ret p).PointFacts := by
  cases p with
  | t0 =>
    obtain ⟨q, hq⟩ := txStep_poll s b here ret
    rw [hq]; exact hhere q
  | t1 => exact hret

theorem waitStep_pointFacts {here : WaitPoint → Phase} {ok late : Phase} {p : WaitPoint}
    (hhere : ∀ q, (s.goto (here q)).PointFacts) (hok : s.dataReady = true → (s.goto ok).PointFacts)
    (hlate : (s.goto late).PointFacts) : (s.waitStep here ok late p).PointFacts := by
  cases p with
  | w0 => exact hhere .w1
  | w1 =>
    simp only [State.waitStep]
    split
    next hd => exact hok hd
    · split <;> exact hhere _
  | w2 =>
    simp only [State.waitStep]
    split
    · exact hlate
    · exact hhere .w1

theorem loopStep_pointFacts {value : Word} {body : Phase}
    (h : s.idx ≠ s.arg → (s.goto body).PointFacts) : (s.loopStep value body).PointFacts := by
  unfold State.loopStep
  split
  · exact trivial
  next hne => exact h hne

theorem line_pointFacts (hlife : ∀ l, s.phase.life = some l → s.life = l) (h : s.PointFacts) : s.line.PointFacts := by
  have hready : ∀ p, s.phase = p → p.life = some .ready → s.dataReady = true → s.rxq ≠ [] :=
    fun p hp hr => (dataReady_iff (hlife _ (hp ▸ hr))).mp
  unfold State.PointFacts at h
  cases hp : s.phase <;> simp only [hp] at h
  case idle => simp only [State.line, hp, State.PointFacts]
  case a0 p => rw [line_a0 hp]; exact waitStep_pointFacts (fun _ => trivial) (hready _ hp rfl) trivial
  case q0 p => rw [line_q0 hp]; exact waitStep_pointFacts (fun _ => trivial) (hready _ hp rfl) trivial
  case b0 p => rw [line_b0 hp]; exact txStep_pointFacts (fun _ => trivial) trivial
  case a1 r => cases r <;> simp only [State.line, hp] <;> exact trivial
  case d0 p =>
    rw [line_d0 hp]
    cases p with
    | rx0 =>
      simp only [State.rxStep]
      split
      next hd => exact hready _ hp rfl hd
      · exact trivial
    | rx1 => exact trivial
  case x0 => rw [line_x0 hp]; exact Nat.zero_le _
  case x1 => rw [line_x1 hp]; exact loopStep_pointFacts (toNat_lt_of_ne h)
  case x2 => rw [line_x2 hp]; exact h
  case x3 => rw [line_x3 hp]; split <;> exact h
  case x3tx p => rw [line_x3tx hp]; exact txStep_pointFacts (fun _ => h) h
  case x4 p => rw [line_x4 hp]; exact txStep_pointFacts (fun _ => h) h
  case x5 => rw [line_x5 hp]; exact (toNat_succ_of_lt h).trans_le h
  case q1 => rw [line_q1 hp]; exact ⟨Nat.zero_le _, fun _ => h⟩
  case q2 => rw [line_q2 hp]; exact loopStep_pointFacts fun hne => ⟨toNat_lt_of_ne h.1 hne, h.2⟩
  case q3 =>
    rw [line_q3 hp]
    split
    next hd => exact ⟨h.1, hready _ hp rfl hd⟩
    next hd => exact ⟨h.1, fun h0 => hd ((dataReady_iff (hlife _ (hp ▸ rfl))).mpr (h.2 h0))⟩
  case q4 p =>
    rw [line_q4 hp]
    cases p with
    | rx0 => simp only [State.rxStep]; split <;> exact h
    | rx1 => exact h.1
  case q5 => rw [line_q5 hp]; exact h
  case q6 =>
    rw [line_q6 hp]
    have hsucc := toNat_succ_of_lt h
    refine ⟨hsucc.trans_le h, fun h0 => ?_⟩
    have h0' : (s.idx + 1#32).toNat = 0 := congrArg BitVec.toNat h0
    omega
  case y0 => rw [line_y0 hp]; exact Nat.zero_le _
  case y1 => rw [line_y1 hp]; exact loopStep_pointFacts (toNat_lt_of_ne h)
  case y2 => rw [line_y2 hp]; exact h
  case y3 p => rw [line_y3 hp]; exact txStep_pointFacts (fun _ => h) h
  case y4 => rw [line_y4 hp]; exact (toNat_succ_of_lt h).trans_le h
  all_goals simp only [State.line, hp]; exact trivial

end

/-! ## The operation in progress -/

/-- The operation that a control point belongs to, with the operand latched in `s`. -/
def State.operationAt (s : State) (p : Phase) : Option Instr := (s.goto p).inProgress

theorem operationAt_phase (s : State) : s.operationAt s.phase = s.inProgress := rfl

theorem operationAt_life {s : State} {p : Phase} {i : Instr} (h : s.operationAt p = some i) :
    p.life = some (lifeFor i) := by
  cases p with
  | idle => cases h
  | s0 =>
    obtain rfl := Option.some.inj h
    split <;> rfl
  | _ => cases h; rfl

/-- A line leads to a control point of the same operation, or to IDLE. -/
theorem line_operationAt (s : State) :
    s.line.phase = .idle ∨ s.operationAt s.line.phase = s.operationAt s.phase := by
  cases hp : s.phase with
  | b0 p => rw [line_b0 hp]; exact .inr (txStep_phase s.operationAt _ (by exact fun _ => rfl) (by rfl))
  | x3tx p => rw [line_x3tx hp]; exact .inr (txStep_phase s.operationAt _ (by exact fun _ => rfl) (by rfl))
  | x4 p => rw [line_x4 hp]; exact .inr (txStep_phase s.operationAt _ (by exact fun _ => rfl) (by rfl))
  | y3 p => rw [line_y3 hp]; exact .inr (txStep_phase s.operationAt _ (by exact fun _ => rfl) (by rfl))
  | d0 p => rw [line_d0 hp]; exact .inr (rxStep_phase s.operationAt _ (by exact fun _ => rfl) (by rfl))
  | q4 p => rw [line_q4 hp]; exact .inr (rxStep_phase s.operationAt _ (by exact fun _ => rfl) (by rfl))
  | a0 p => rw [line_a0 hp]; exact .inr (waitStep_phase s.operationAt _ (by exact fun _ => rfl) (by rfl) (by rfl))
  | q0 p => rw [line_q0 hp]; exact .inr (waitStep_phase s.operationAt _ (by exact fun _ => rfl) (by rfl) (by rfl))
  | x1 => rw [line_x1 hp, State.loopStep]; split; exacts [.inl rfl, .inr rfl]
  | q2 => rw [line_q2 hp, State.loopStep]; split; exacts [.inl rfl, .inr rfl]
  | y1 => rw [line_y1 hp, State.loopStep]; split; exacts [.inl rfl, .inr rfl]
  | x3 => rw [line_x3 hp]; split <;> exact .inr rfl
  | q3 => rw [line_q3 hp]; split <;> exact .inr rfl
  | a1 r => cases r <;> exact .inl (by simp only [State.line, hp]; rfl)
  | idle => exact .inl (by simp only [State.line, hp])
  | i0 | i1 | i2 | i3 | i4 | i5 | i6 | h0 | x0 | x2 | x5 | q1 | q5 | q6 | y0 | y2 | y4 =>
    simp only [State.line, hp]; exact .inr rfl
  | _ => simp only [State.line, hp]; exact .inl rfl

/-- The operation in progress depends on the control point and two latched fields only. -/
theorem inProgress_of_same {s t : State} (hp : t.phase = s.phase) (hf : t.flags = s.flags) (ha : t.arg = s.arg) :
    t.inProgress = s.inProgress := by
  unfold State.inProgress
  rw [hp, hf, ha]

/-- A control point reached by acceptance belongs to the accepted instruction. -/
theorem latch_inProgress (s : State) (i : Instr) : (s.latch i (firstLabel i)).inProgress = some i := by
  cases i with
  | writeByte b => exact congrArg (some ∘ Instr.writeByte) (lowByte_widen b)
  | setTimeoutMs ms | setTimeoutNone => simp [State.inProgress, firstLabel, Instr.flags, Instr.arg]
  | _ => rfl

section
variable {s : State}

/-- A line changes no latched field of the command. -/
theorem line_command (s : State) : s.line.opc = s.opc ∧ s.line.flags = s.flags ∧ s.line.arg = s.arg := by
  obtain ⟨e, q, he, hl⟩ := line_effect s
  rw [hl]; cases he <;> exact ⟨rfl, rfl, rfl⟩

theorem line_inProgress (s : State) : s.line.phase = .idle ∨ s.line.inProgress = s.inProgress := by
  obtain ⟨hopc, hflags, harg⟩ := line_command s
  have hsame : s.line.inProgress = s.operationAt s.line.phase := inProgress_of_same rfl hflags harg
  exact (line_operationAt s).imp_right hsame.trans

end

/-! ## What the other agents reach -/

theorem envMove_rxBound {m : EnvMove} {s t : State} (h : envMove m s = .next t) (hb : s.rxq.length ≤ s.cfg.rxDepth) :
    t.rxq.length ≤ s.cfg.rxDepth := by
  rcases envMove_next h with ⟨b, _, rfl⟩ | ⟨_, rfl⟩ | ⟨d, _, rfl⟩ | ⟨v, _, rfl⟩ | ⟨_, rfl⟩ | ⟨c, _, rfl⟩ | ⟨i, b, _, rfl⟩
  case inl =>
    rw [State.lineReceive_rxq]
    split
    next hroom => rw [List.length_append]; exact hroom
    · exact hb
  all_goals exact hb

/-! ## The invariant is kept -/

section
variable {s t : State}

theorem State.Inv.pointFacts (h : s.Inv) : s.PointFacts :=
  (pointFacts_iff s).mpr ⟨h.waiting, h.firstByte, h.notNone, h.atHead, h.inBody⟩

/-- The invariant with the facts of the control point in one piece. -/
theorem inv_of_pointFacts (launch : s.cfg.legal = true) (memory : s.mem.wf = true) (txBound : s.txq.length ≤ s.cfg.txDepth)
    (rxBound : s.rxq.length ≤ s.cfg.rxDepth) (lifecycle : ∀ l, s.phase.life = some l → s.life = l)
    (latched : ∀ i, s.inProgress = some i →
      s.opc = i.opc ∧ s.flags = i.flags ∧ s.arg = i.arg ∧ i.wellFormed s.cfg.hostBuild = true)
    (configured : s.Configured) (room : s.phase.atIoWrite = true → s.txq.length < s.cfg.txDepth) (point : s.PointFacts)
    (deadline : s.phase.atDeadline = true → s.toValid = true)
    (late : s.phase.isTimeout = true → s.toValid = true ∧ expired s.t0 s.now s.toMs = true) : s.Inv := by
  obtain ⟨waiting, firstByte, notNone, atHead, inBody⟩ := (pointFacts_iff s).mp point
  exact { launch, memory, txBound, rxBound, lifecycle, latched, configured, room, waiting, firstByte, notNone, atHead, inBody,
          deadline, late }

theorem State.Inv.supply (h : s.Inv) (u : Word) (rest : List Move) : (s.supply u rest).Inv :=
  { h with configured := configured_of_same h.configured rfl (fun _ => rfl) rfl rfl (.inl rfl) rfl }

theorem State.Inv.latch (h : s.Inv) {i : Instr} (hlife : s.life = lifeFor i)
    (hw : i.wellFormed s.cfg.hostBuild = true) : (s.latch i (firstLabel i)).Inv := by
  have hconf : (s.latch i (firstLabel i)).Configured :=
    configured_of_same h.configured rfl (fun _ => rfl) rfl rfl (.inr (firstLabel_notMem_configuring i)) rfl
  have hop : (s.latch i (firstLabel i)).inProgress = some i := latch_inProgress s i
  refine inv_of_pointFacts h.launch h.memory h.txBound h.rxBound (fun l hl => ?_) (fun j hj => ?_) hconf ?_ ?_ ?_ ?_
  · rw [State.latch_phase, operationAt_life (s := s.latch i (firstLabel i)) hop] at hl
    exact hlife.trans (Option.some.inj hl)
  · obtain rfl : i = j := Option.some.inj (hop.symm.trans hj)
    exact ⟨rfl, rfl, rfl, hw⟩
  -- No first label is at an access, inside a loop, at a deadline test or at a timeout point.
  · cases i <;> nofun
  · cases i <;> exact trivial
  · cases i <;> nofun
  · cases i <;> nofun

theorem line_txBound (h : s.txq.length ≤ s.cfg.txDepth) : s.line.txq.length ≤ s.cfg.txDepth := by
  obtain ⟨e, q, he, hl⟩ := line_effect s
  rw [hl]; cases he with
  | sendIo b _ => exact txqAfterWrite_length s (widen b)
  | _ => exact h

theorem line_rxBound (h : s.rxq.length ≤ s.cfg.rxDepth) : s.line.rxq.length ≤ s.cfg.rxDepth := by
  obtain ⟨e, q, he, hl⟩ := line_effect s
  rw [hl]; cases he with
  | takeIo _ => exact rxqAfterRead_length s h
  | _ => exact h

theorem life_ready_of_atIoWrite {p : Phase} (h : p.atIoWrite = true) : p.life = some .ready := by
  cases p with
  | b0 _ | x3tx _ | x4 _ | y3 _ => rfl
  | _ => cases h

/-- After a line the engine is at IDLE or in the same operation, in its lifecycle state. -/
theorem State.Inv.line_lifecycle (h : s.Inv) (l : Life) (hl : s.line.phase.life = some l) : s.line.life = l := by
  rcases line_operationAt s with hidle | hsame
  · rw [hidle] at hl; cases hl
  · have hbusy : s.line.phase ≠ .idle := fun hidle => by rw [hidle] at hl; cases hl
    have hi7 : s.phase ≠ .i7 := fun hp => hbusy (by rw [line_i7 hp]; rfl)
    obtain ⟨i, hi⟩ := inProgress_of_busy (s := s.goto s.line.phase) hbusy
    have hlife : s.line.phase.life = s.phase.life :=
      (operationAt_life hi).trans (operationAt_life (hsame.symm.trans hi)).symm
    rw [line_life hi7]
    exact h.lifecycle l (hlife.symm.trans hl)

theorem State.Inv.line_latched (h : s.Inv) (i : Instr) (hi : s.line.inProgress = some i) :
    s.line.opc = i.opc ∧ s.line.flags = i.flags ∧ s.line.arg = i.arg ∧ i.wellFormed s.line.cfg.hostBuild = true := by
  obtain ⟨hopc, hflags, harg⟩ := line_command s
  rw [hopc, hflags, harg, line_cfg]
  rcases line_inProgress s with hidle | hsame
  · rw [inProgress_idle hidle] at hi; cases hi
  · exact h.latched i (hsame.symm.trans hi)

/-- Only a poll that saw room leads to the IO write. -/
theorem State.Inv.line_room (h : s.Inv) (hw : s.line.phase.atIoWrite = true) : s.line.txq.length < s.line.cfg.txDepth := by
  have hready := h.line_lifecycle _ (life_ready_of_atIoWrite hw)
  have hpoll := line_licensingPoll (atIo_of_atIoWrite hw)
  generalize s.line = t at hw hready hpoll
  cases hpoll with
  | space hs _ => exact (txSpace_iff hready).mp hs
  | byte _ hq => exact absurd (hw.symm.trans hq) (by decide)

/-- Only a poll with a timeout present leads to the deadline test. -/
theorem line_deadline (hd : s.line.phase.atDeadline = true) : s.line.toValid = true := by
  have hline := line_timeoutLine (nearTimeout_of_atDeadline hd)
  generalize s.line = t at hd hline
  cases hline with
  | failedPoll _ _ _ hv => exact hv
  | expiredSample hc _ _ => exact absurd (hd.symm.trans hc.not_atDeadline_late) (by decide)

/-- Only an expired sample leads to the timeout point. -/
theorem State.Inv.line_late (h : s.Inv) (ht : s.line.phase.isTimeout = true) :
    s.line.toValid = true ∧ expired s.line.t0 s.line.now s.line.toMs = true := by
  have hline := line_timeoutLine (nearTimeout_of_isTimeout ht)
  generalize s.line = t at ht hline
  cases hline with
  | failedPoll hc _ _ _ => exact absurd (ht.symm.trans hc.not_isTimeout_w2) (by decide)
  | expiredSample hc hp he => exact ⟨h.deadline (hp ▸ hc.atDeadline_w2), he⟩

theorem State.Inv.line (h : s.Inv) : s.line.Inv :=
  inv_of_pointFacts (line_cfg s ▸ h.launch) (line_mem_wf h.memory) (line_cfg s ▸ line_txBound h.txBound)
    (line_cfg s ▸ line_rxBound h.rxBound) h.line_lifecycle h.line_latched (line_configured h.launch h.memory h.configured)
    h.line_room (line_pointFacts h.lifecycle h.pointFacts) line_deadline h.line_late

theorem State.Inv.envMove (h : s.Inv) {m : EnvMove} (hm : envMove m s = .next t) : t.Inv := by
  have memory := envMove_mem_wf h.memory hm
  have configured := envMove_configured h.launch h.memory h.configured hm
  have rxBound := envMove_rxBound hm h.rxBound
  have htx : t.txq.length ≤ s.txq.length := (envMove_txq hm).length_le
  have hrx : s.rxq ≠ [] → t.rxq ≠ [] := fun hne hnil => hne (List.prefix_nil.mp (hnil ▸ envMove_rxq hm))
  rcases envMove_next hm with ⟨b, _, rfl⟩ | ⟨_, rfl⟩ | ⟨d, _, rfl⟩ | ⟨v, _, rfl⟩ | ⟨_, rfl⟩ | ⟨c, _, rfl⟩ | ⟨i, b, _, rfl⟩ <;>
    exact { h with memory, configured, rxBound, txBound := htx.trans h.txBound,
                   room := fun hp => htx.trans_lt (h.room hp), waiting := fun hp => hrx (h.waiting hp),
                   firstByte := fun hp h0 => hrx (h.firstByte hp h0) }

end

/-- Settles O53: the engine waits, accepts a command or takes a line, or another agent moves, and each keeps `State.Inv`. -/
theorem stepKeepsInvariant : Obligations.StepKeepsInvariant := by
  unfold Obligations.StepKeepsInvariant
  intro s t h hs
  obtain ⟨_, ⟨e, he, _, _, rfl⟩ | ⟨e, c, cs, i, he, _, _, _, hw, hlife, rfl⟩ | ⟨e, he, _, rfl⟩ | ⟨m, rest, _, _, hm⟩⟩ :=
    step_next hs
  · obtain ⟨u, rest, rfl⟩ := engineTurn_supply he
    exact h.supply u rest
  · obtain ⟨u, rest, rfl⟩ := engineTurn_supply he
    exact (h.supply u rest).latch hlife hw
  · obtain ⟨u, rest, rfl⟩ := engineTurn_supply he
    exact (h.supply u rest).line
  · have hsched : { s with sched := rest }.Inv :=
      { h with configured := configured_of_same h.configured rfl (fun _ => rfl) rfl rfl (.inl rfl) rfl }
    exact hsched.envMove hm

end Sys2Proof.Machine

/-! SUPPORT. `exec` of an instruction at a control point of an operation in progress: the instruction whose operation it is
takes the line, any other waits. From this the refusals of a step (R222), and every line of the operations with its whole
next state. -/

namespace Sys2Proof.Machine

/-! ## `exec` at a control point of an operation in progress -/

section
variable {i j : Instr} {s t : State}

/-- Only at IDLE does a meaning read the operand of the instruction it is given. -/
theorem exec_operation (hp : s.phase ≠ .idle) (ho : j.opc = i.opc) : exec i s = exec j s := by
  cases i <;> cases j <;> cases ho
  case init.init | setTimeoutNone.setTimeoutNone | hasByte.hasByte | waitForByte.waitForByte | readByte.readByte |
    flush.flush => rfl
  all_goals
    simp only [exec, execSetTimeoutMs, execSetTimeoutNone, execWriteByte, execWriteStr, execBufRead, execBufWrite]
    cases h : s.phase with
    | idle => exact absurd h hp
    | _ => rfl

theorem busy_of_inProgress (hj : s.inProgress = some j) : s.phase ≠ .idle := by
  intro hp
  rw [inProgress_idle hp] at hj
  cases hj

/-- The instruction of the operation in progress, with any operand, takes the line. -/
theorem exec_line (hj : s.inProgress = some j) (ho : j.opc = i.opc) : exec i s = .next s.line :=
  (exec_operation (busy_of_inProgress hj) ho).trans (exec_inProgress hj)

theorem opc_setTimeout {p : Prop} [Decidable p] (ms : Word) :
    (if p then Instr.setTimeoutMs ms else .setTimeoutNone).opc = 0x1#4 := by
  split <;> rfl

/-- Any other instruction waits (R113). -/
theorem exec_waits (hj : s.inProgress = some j) (ho : j.opc ≠ i.opc) : exec i s = .next s := by
  unfold State.inProgress at hj
  -- In the last arm of a meaning the instruction waits; its own control points, and IDLE, are not this one.
  cases i <;> simp only [exec, execInit, execSetTimeoutMs, execSetTimeoutNone, execWriteByte, execHasByte, execWaitForByte,
    execReadByte, execWriteStr, execBufRead, execBufWrite, execFlush] <;> split <;> try rfl
  all_goals
    rename_i hp
    simp only [hp] at hj
    cases hj <;> exact absurd (by simp only [↓opc_setTimeout, Instr.opc]) ho

/-- Everything an instruction's step can answer with a next state: it is accepted, takes its line, or waits. -/
theorem exec_next (h : exec i s = .next t) :
    (s.phase = .idle ∧ t = s.latch i (firstLabel i)) ∨
      (∃ j, s.inProgress = some j ∧ j.opc = i.opc ∧ t = s.line) ∨ t = s := by
  by_cases hp : s.phase = .idle
  · rcases exec_idle (i := i) hp with ⟨_, _, he⟩ | ⟨_, _, he⟩ | ⟨_, he⟩ <;> rw [he] at h <;> cases h
    exact .inl ⟨hp, rfl⟩
  · obtain ⟨j, hj⟩ := inProgress_of_busy hp
    by_cases ho : j.opc = i.opc
    · rw [exec_line hj ho] at h
      cases h
      exact .inr (.inl ⟨j, hj, ho, rfl⟩)
    · rw [exec_waits hj ho] at h
      cases h
      exact .inr (.inr rfl)

/-- The engine refuses at IDLE only: a reserved word, or a command outside its lifecycle state. -/
theorem engineStep_refused {r : Refusal} (h : engineStep s = .refused r) :
    ∃ c rest, s.phase = .idle ∧ s.cmds = c :: rest ∧
      ((∃ why, r = .reservedWord why ∧ decode s.cfg.hostBuild c.word = .reserved why) ∨
        ∃ i, r = .lifecycle s.life ∧ decode s.cfg.hostBuild c.word = .instr i ∧ s.life ≠ lifeFor i) := by
  by_cases hp : s.phase = .idle
  · rw [engineStep_idle hp, acceptNext] at h
    split at h
    · cases h
    next c rest hc =>
      refine ⟨c, rest, hp, hc, ?_⟩
      split at h
      next i hd =>
        have hw := (decode_fields hd).2.2.2
        rcases exec_idle (i := i) hp with ⟨_, _, he⟩ | ⟨_, hl, he⟩ | ⟨hnw, _⟩
        · rw [he] at h; cases h
        · rw [he] at h; cases h
          exact .inr ⟨i, rfl, hd, hl⟩
        · exact absurd (hw.symm.trans hnw) (by decide)
      next why hd =>
        cases h
        exact .inl ⟨why, rfl, hd⟩
  · rw [engineStep_busy hp] at h
    cases h

theorem envMove_refused {m : EnvMove} {r : Refusal} (h : envMove m s = .refused r) :
    m = .intrude ∧ r = .ownershipViolated := by
  cases m <;> cases h
  exact ⟨rfl, rfl⟩

/-- Settles O58: an operation in progress takes its line, and only IDLE, `intrude` and an ill-formed launch refuse. -/
theorem engineIsNeverStuck : Obligations.EngineIsNeverStuck := by
  unfold Obligations.EngineIsNeverStuck
  refine ⟨fun s i h => ⟨_, exec_inProgress h⟩, fun s r h => ?_⟩
  rcases step_cases s with ⟨hl, he⟩ | ⟨hl, hs, he⟩ | ⟨u, rest, hl, hs, he⟩ | ⟨m, rest, hl, hs, he⟩ <;> rw [he] at h
  · cases h
    exact .inl ⟨rfl, hl⟩
  · exact .inr (.inr (engineStep_refused (s := s.supply _ _) h))
  · exact .inr (.inr (engineStep_refused (s := s.supply _ _) h))
  · obtain ⟨rfl, rfl⟩ := envMove_refused h
    exact .inr (.inl ⟨rfl, rest, hs⟩)

end

/-! ## The lines of the operations, each with its whole next state -/

section
variable {i j : Instr} {s : State} {p : Phase}

/-- `exec_line` with the control point named. -/
theorem exec_at (hp : s.phase = p) (hj : s.operationAt p = some j) (ho : j.opc = i.opc) : exec i s = .next s.line := by
  subst hp
  exact exec_line hj ho

/-- The two forms of SET_TIMEOUT share line S0 (R133). -/
theorem exec_s0 (hp : s.phase = .s0) (hi : i.opc = 0x1#4) : exec i s = .next s.line :=
  exec_at hp rfl ((opc_setTimeout _).trans hi.symm)

section
variable {b : Byte} {here : TxPoint → Phase} {ret : Phase}

/-- The poll of `tx` in READY (R150). -/
theorem txStep_poll_ready (hr : s.life = .ready) : s.txStep b here ret .t0 = { s with
    v := s.lsrWord, phase := if s.txq.length < s.cfg.txDepth then here .t1 else here .t0,
    trace := .memRead (s.cfg.addr .lsr) 4 s.lsrWord :: s.trace } := by
  simp only [State.txStep, txSpace_iff hr]
  rfl

/-- The IO write of `tx` in READY with room (R73, R150). -/
theorem txStep_write_ready (hr : s.life = .ready) (hroom : s.txq.length < s.cfg.txDepth) :
    s.txStep b here ret .t1 = { s with
      txq := s.txq ++ [b], phase := ret, trace := .memWrite (s.cfg.addr .io) 4 (widen b) :: s.trace } := by
  simp only [State.txStep, State.writeIo, txqAfterWrite_room hr hroom, lowByte_widen]
  rfl

theorem exec_txPoll (hexec : exec i s = .next s.line) (hline : s.line = s.txStep b here ret .t0) (hr : s.life = .ready) :
    ∃ w, s.LsrSample w ∧ exec i s = .next { s with
      v := w, phase := if s.txq.length < s.cfg.txDepth then here .t1 else here .t0,
      trace := .memRead (s.cfg.addr .lsr) 4 w :: s.trace } :=
  ⟨s.lsrWord, lsrWord_sample hr, by rw [hexec, hline, txStep_poll_ready hr]⟩

theorem exec_txWrite (hexec : exec i s = .next s.line) (hline : s.line = s.txStep b here ret .t1) (hr : s.life = .ready)
    (hroom : s.txq.length < s.cfg.txDepth) :
    exec i s = .next { s with
      txq := s.txq ++ [b], phase := ret, trace := .memWrite (s.cfg.addr .io) 4 (widen b) :: s.trace } := by
  rw [hexec, hline, txStep_write_ready hr hroom]

end

section
variable {here : RxPoint → Phase} {ret : Phase}

/-- The poll of `rx` in READY (R163). -/
theorem rxStep_poll_ready (hr : s.life = .ready) : s.rxStep here ret .rx0 = { s with
    v := s.lsrWord, phase := if s.rxq ≠ [] then here .rx1 else here .rx0,
    trace := .memRead (s.cfg.addr .lsr) 4 s.lsrWord :: s.trace } := by
  simp only [State.rxStep, dataReady_iff hr]
  rfl

/-- The IO read of `rx` in READY with a byte waiting (R74, R163). -/
theorem rxStep_read_ready {b : Byte} {rest : List Byte} (hr : s.life = .ready) (hq : s.rxq = b :: rest) :
    s.rxStep here ret .rx1 = { s with
      v := s.ioWord, byte := b, rxq := rest, phase := ret, trace := .memRead (s.cfg.addr .io) 4 s.ioWord :: s.trace } := by
  simp only [State.rxStep, State.readIo, ioByte_cons hr hq, rxqAfterRead_ready hr, hq, List.tail_cons]
  rfl

/-- The low byte of the word an IO read returns is the oldest byte (R74). -/
theorem ioWord_low {b : Byte} {rest : List Byte} (hr : s.life = .ready) (hq : s.rxq = b :: rest) :
    s.ioWord.setWidth 8 = b :=
  (lowByte_ioWord s).trans (ioByte_cons hr hq)

theorem exec_rxPoll (hexec : exec i s = .next s.line) (hline : s.line = s.rxStep here ret .rx0) (hr : s.life = .ready) :
    ∃ w, s.LsrSample w ∧ exec i s = .next { s with
      v := w, phase := if s.rxq ≠ [] then here .rx1 else here .rx0,
      trace := .memRead (s.cfg.addr .lsr) 4 w :: s.trace } :=
  ⟨s.lsrWord, lsrWord_sample hr, by rw [hexec, hline, rxStep_poll_ready hr]⟩

theorem exec_rxRead {b : Byte} {rest : List Byte} (hexec : exec i s = .next s.line) (hline : s.line = s.rxStep here ret .rx1)
    (hr : s.life = .ready) (hq : s.rxq = b :: rest) :
    ∃ w : Word, w.setWidth 8 = b ∧ exec i s = .next { s with
      v := w, byte := b, rxq := rest, phase := ret, trace := .memRead (s.cfg.addr .io) 4 w :: s.trace } :=
  ⟨s.ioWord, ioWord_low hr hq, by rw [hexec, hline, rxStep_read_ready hr hq]⟩

end

section
variable {here : WaitPoint → Phase} {ok late : Phase}

/-- The poll of `wait` in READY (R158). -/
theorem waitStep_poll_ready (hr : s.life = .ready) : s.waitStep here ok late .w1 = { s with
    v := s.lsrWord, phase := if s.rxq ≠ [] then ok else if s.toValid = true then here .w2 else here .w1,
    trace := .memRead (s.cfg.addr .lsr) 4 s.lsrWord :: s.trace } := by
  simp only [State.waitStep, dataReady_iff hr]
  rfl

/-- The deadline test of `wait` (R158, R160). -/
theorem waitStep_test : s.waitStep here ok late .w2 = { s with
    now := s.time, phase := if s.toMs.toNat * 1000 < (s.time - s.t0).toNat then late else here .w1,
    trace := .timeNow s.time :: s.trace } := by
  simp only [State.waitStep, expired_iff]
  rfl

theorem exec_waitPoll (hexec : exec i s = .next s.line) (hline : s.line = s.waitStep here ok late .w1)
    (hr : s.life = .ready) :
    ∃ w, s.LsrSample w ∧ exec i s = .next { s with
      v := w, phase := if s.rxq ≠ [] then ok else if s.toValid = true then here .w2 else here .w1,
      trace := .memRead (s.cfg.addr .lsr) 4 w :: s.trace } :=
  ⟨s.lsrWord, lsrWord_sample hr, by rw [hexec, hline, waitStep_poll_ready hr]⟩

theorem exec_waitTest (hexec : exec i s = .next s.line) (hline : s.line = s.waitStep here ok late .w2) :
    exec i s = .next { s with
      now := s.time, phase := if s.toMs.toNat * 1000 < (s.time - s.t0).toNat then late else here .w1,
      trace := .timeNow s.time :: s.trace } := by
  rw [hexec, hline, waitStep_test]

end

/-- The head of a per-byte loop with every byte done. -/
theorem exec_loopDone {value : Word} {body : Phase} (hexec : exec i s = .next s.line)
    (hline : s.line = s.loopStep value body) (h : s.idx = s.arg) :
    exec i s = .next { s with phase := .idle, trace := .respond (value.setWidth 34) :: s.trace } := by
  rw [hexec, hline, State.loopStep, if_pos h, State.answered, responseWord_ok]
  rfl

theorem exec_loopMore {value : Word} {body : Phase} (hexec : exec i s = .next s.line)
    (hline : s.line = s.loopStep value body) (h : s.idx ≠ s.arg) : exec i s = .next { s with phase := body } := by
  rw [hexec, hline, State.loopStep, if_neg h]
  rfl

/-- The read of a source byte: the byte of the buffer, where there is one (R66). -/
theorem exec_fetch {q : Phase} (hexec : exec i s = .next s.line) (hline : s.line = s.fetchByte.goto q) :
    ∃ b, (∀ b', s.src[s.idx.toNat]? = some b' → b = b') ∧ exec i s = .next { s with
      byte := b, phase := q, trace := .srcByte s.idx b :: s.trace } := by
  refine ⟨sourceByte s.src s.idx s.undef, fun b' hb => ?_, ?_⟩
  · rw [sourceByte, hb, Option.getD_some]
  · rw [hexec, hline]
    rfl

end

/-- Settles O15: each line of INIT writes its constant to its own address, which R64 prints. -/
theorem initLines : Obligations.InitLines := by
  unfold Obligations.InitLines
  refine fun s => ⟨fun hp => ?_, fun hp => ?_, fun hp => ?_, fun hp => ?_, fun hp => ?_, fun hp => ?_, fun hp => ?_,
    fun hp => ?_⟩ <;> rw [exec_at (i := .init) hp rfl rfl]
  · rw [line_i0 hp]; rfl
  · rw [line_i1 hp]; rfl
  · rw [line_i2 hp]; rfl
  · rw [line_i3 hp]; rfl
  · rw [line_i4 hp]; rfl
  · rw [line_i5 hp]; rfl
  · rw [line_i6 hp]; rfl
  · rw [line_i7 hp]; rfl

/-- Settles O20: the lines of `tx` with the byte in ARG, and the answer. -/
theorem writeByteLines : Obligations.WriteByteLines := by
  unfold Obligations.WriteByteLines
  exact fun s b => ⟨fun hp => exec_txPoll (exec_at hp rfl rfl) (line_b0 hp),
    fun hp => exec_txWrite (exec_at hp rfl rfl) (line_b0 hp),
    fun hp => (exec_at (i := .writeByte b) hp rfl rfl).trans (congrArg _ (line_b1 hp))⟩

/-- Settles O24: one poll, and the answer of bit 0 of the word it read. -/
theorem hasByteLines : Obligations.HasByteLines := by
  unfold Obligations.HasByteLines
  refine fun s => ⟨fun hp hr => ⟨s.lsrWord, lsrWord_sample hr, ?_⟩, fun hp => ?_⟩
  · rw [exec_at (i := .hasByte) hp rfl rfl, line_h0 hp]; rfl
  · rw [exec_at (i := .hasByte) hp rfl rfl, line_h1 hp]
    cases s.v.getLsbD 0 <;> rfl

/-- Settles O29: the lines of `wait`, and the two answers. -/
theorem waitForByteLines : Obligations.WaitForByteLines := by
  unfold Obligations.WaitForByteLines
  exact fun s => ⟨fun hp => (exec_at hp rfl rfl).trans (congrArg _ (line_a0 hp)),
    fun hp => exec_waitPoll (exec_at hp rfl rfl) (line_a0 hp), fun hp => exec_waitTest (exec_at hp rfl rfl) (line_a0 hp),
    fun hp => (exec_at hp rfl rfl).trans (congrArg _ (line_a1_ok hp)),
    fun hp => (exec_at hp rfl rfl).trans (congrArg _ (line_a1_timedOut hp))⟩

/-- Settles O35: the lines of `rx`, and the answer of the byte. -/
theorem readByteLines : Obligations.ReadByteLines := by
  unfold Obligations.ReadByteLines
  refine fun s => ⟨fun hp => exec_rxPoll (exec_at hp rfl rfl) (line_d0 hp),
    fun b rest hp => exec_rxRead (exec_at hp rfl rfl) (line_d0 hp), fun hp => ?_⟩
  rw [exec_at (i := .readByte) hp rfl rfl, line_d1 hp, State.answered, responseWord_ok_byte]
  rfl

/-- Settles O38: the lines of WRITE_STR, with those of `tx` for the carriage return and for the byte. -/
theorem writeStrLines : Obligations.WriteStrLines := by
  unfold Obligations.WriteStrLines
  intro s n
  have line {p : Phase} (hp : s.phase = p) (hj : s.operationAt p = some (.writeStr s.arg)) :
      exec (.writeStr n) s = .next s.line := exec_at hp hj rfl
  exact ⟨fun hp => (line hp rfl).trans (congrArg _ (line_x0 hp)), fun hp => exec_loopDone (line hp rfl) (line_x1 hp),
    fun hp => exec_loopMore (line hp rfl) (line_x1 hp), fun hp => exec_fetch (line hp rfl) (line_x2 hp),
    fun hp => (line hp rfl).trans (congrArg _ (line_x3 hp)),
    fun hp => exec_txPoll (line hp rfl) (line_x3tx hp), fun hp => exec_txWrite (line hp rfl) (line_x3tx hp),
    fun hp => exec_txPoll (line hp rfl) (line_x4 hp), fun hp => exec_txWrite (line hp rfl) (line_x4 hp),
    fun hp => (line hp rfl).trans (congrArg _ (line_x5 hp))⟩

/-- Settles O41: the lines of BUF_READ, with those of `wait` and of `rx`. -/
theorem bufReadLines : Obligations.BufReadLines := by
  unfold Obligations.BufReadLines
  intro s n
  have line {p : Phase} (hp : s.phase = p) (hj : s.operationAt p = some (.bufRead s.arg)) :
      exec (.bufRead n) s = .next s.line := exec_at hp hj rfl
  refine ⟨fun hp => (line hp rfl).trans (congrArg _ (line_q0 hp)), fun hp => exec_waitPoll (line hp rfl) (line_q0 hp),
    fun hp => exec_waitTest (line hp rfl) (line_q0 hp), fun hp => (line hp rfl).trans (congrArg _ (line_q0timeout hp)),
    fun hp => (line hp rfl).trans (congrArg _ (line_q1 hp)), fun hp => exec_loopDone (line hp rfl) (line_q2 hp),
    fun hp => exec_loopMore (line hp rfl) (line_q2 hp), fun hp hr => ⟨s.lsrWord, lsrWord_sample hr, ?_⟩, fun hp => ?_,
    fun hp => exec_rxPoll (line hp rfl) (line_q4 hp), fun b rest hp => exec_rxRead (line hp rfl) (line_q4 hp),
    fun hp => (line hp rfl).trans (congrArg _ (line_q5 hp)), fun hp => (line hp rfl).trans (congrArg _ (line_q6 hp))⟩
  · rw [line hp rfl, line_q3 hp]
    simp only [dataReady_iff hr]
    rfl
  · rw [line hp rfl, line_q3done hp, State.answered, responseWord_ok]
    rfl

/-- Settles O44: the lines of BUF_WRITE, with those of `tx`. -/
theorem bufWriteLines : Obligations.BufWriteLines := by
  unfold Obligations.BufWriteLines
  intro s n
  have line {p : Phase} (hp : s.phase = p) (hj : s.operationAt p = some (.bufWrite s.arg)) :
      exec (.bufWrite n) s = .next s.line := exec_at hp hj rfl
  exact ⟨fun hp => (line hp rfl).trans (congrArg _ (line_y0 hp)), fun hp => exec_loopDone (line hp rfl) (line_y1 hp),
    fun hp => exec_loopMore (line hp rfl) (line_y1 hp), fun hp => exec_fetch (line hp rfl) (line_y2 hp),
    fun hp => exec_txPoll (line hp rfl) (line_y3 hp), fun hp => exec_txWrite (line hp rfl) (line_y3 hp),
    fun hp => (line hp rfl).trans (congrArg _ (line_y4 hp))⟩

end Sys2Proof.Machine

/-! The line function of the model has the name `setTimeoutLine` in `Sys2Proof.Machine`. -/

namespace Sys2Proof

open Sys2Proof.Machine

/-- Settles O18: both forms take the one line S0, which reads the latched fields. -/
theorem setTimeoutLine : Obligations.SetTimeoutLine := by
  unfold Obligations.SetTimeoutLine
  intro s ms hp
  rw [exec_s0 (i := .setTimeoutMs ms) hp rfl, exec_s0 (i := .setTimeoutNone) hp rfl, line_s0 hp]
  exact ⟨rfl, rfl⟩

end Sys2Proof

/-! SUPPORT. The machine at reset, acceptance, the moves of the other agents, and what each instruction's step can change:
the bus memory byte by byte, and every register with its writers. -/

namespace Sys2Proof.Machine

/-! ## Reset -/

/-- Settles O5: `State.resetWith` takes everything outside the engine from power-on, the FIFOs up to their depth. -/
theorem resetLeavesEngineIdle : Obligations.ResetLeavesEngineIdle := by
  unfold Obligations.ResetLeavesEngineIdle
  exact fun c p => ⟨rfl, rfl, rfl, rfl, rfl, rfl, rfl, rfl, List.take_of_length_le, List.take_of_length_le⟩

/-- At reset the engine is at IDLE in UNINIT, where the invariant asks nothing of the latches. -/
theorem resetWith_inv {c : Config} {p : PowerOn} (hl : c.legal = true) (hw : p.mem.wf = true) :
    (State.resetWith c p).Inv :=
  inv_of_pointFacts hl hw (List.length_take_le _ _) (List.length_take_le _ _) nofun nofun
    (configured_of_idle_uninit rfl rfl) nofun trivial nofun nofun

/-- Settles O6: at reset the engine is at IDLE in UNINIT, and the FIFOs are cut to their depths. -/
theorem resetMeetsInvariant : Obligations.ResetMeetsInvariant := by
  unfold Obligations.ResetMeetsInvariant
  exact ⟨fun c p => resetWith_inv, resetWith_inv (by decide) (by decide)⟩

/-! ## Acceptance and the engine's turn -/

/-- Settles O13: acceptance latches the decoded instruction's fields, which are the word's. -/
theorem acceptanceLatchesTheWord : Obligations.AcceptanceLatchesTheWord := by
  unfold Obligations.AcceptanceLatchesTheWord
  intro i s c rest hp hc hl hd
  obtain ⟨hopc, hflags, harg, hw⟩ := decode_fields hd
  rw [exec_idle_accepts hp hl hw, State.latch, hc, ← hopc, ← hflags, ← harg]
  rfl

/-- Settles O8: at IDLE the engine decodes the oldest command, and otherwise it runs the operation in progress. -/
theorem stepRunsTheDecodedInstruction : Obligations.StepRunsTheDecodedInstruction := by
  unfold Obligations.StepRunsTheDecodedInstruction
  intro s e hl he
  obtain ⟨u, moves, rfl⟩ := engineTurn_supply he
  refine ⟨fun c rest i hp hc hd => ?_, fun i hi => ?_⟩ <;> rw [step_engineTurn hl he]
  · rw [engineStep_idle (s := s.supply u moves) hp]
    simp only [acceptNext, State.supply_cmds, State.supply_cfg, hc, hd]
  · have hi' : (s.supply u moves).inProgress = some i := hi
    simp only [engineStep, hi']

/-- At the engine's turn, in the lifecycle state that admits it, the oldest command is accepted. -/
theorem step_accepts {s e : State} {c : Command} {rest : List Command} {i : Instr} (hl : s.cfg.legal = true)
    (he : s.engineTurn = some e) (hp : s.phase = .idle) (hc : s.cmds = c :: rest)
    (hd : decode s.cfg.hostBuild c.word = .instr i) (hlife : s.life = lifeFor i) :
    step s = .next (e.latch i (firstLabel i)) := by
  rw [(stepRunsTheDecodedInstruction s e hl he).1 c rest i hp hc hd]
  obtain ⟨u, moves, rfl⟩ := engineTurn_supply he
  exact exec_idle_accepts (s := s.supply u moves) hp hlife (decode_fields hd).2.2.2

theorem admitting_cfg (w : CommandWord) (s : State) : (s.admitting w).cfg = s.cfg := by
  unfold State.admitting
  split
  · rfl
  · split <;> rfl

theorem admitting_trace (w : CommandWord) (s : State) : (s.admitting w).trace = s.trace := by
  unfold State.admitting
  split
  · rfl
  · split <;> rfl

theorem encode_inj {i j : Instr} (h : encode i = encode j) : i = j := by
  have hd := decode_encode (wellFormed_host i)
  rw [h, decode_encode (wellFormed_host j)] at hd
  exact (Decoded.instr.inj hd).symm

/-- The placement puts the machine in the lifecycle state that admits the word (R114). -/
theorem admitting_life (i : Instr) (s : State) : (s.admitting (encode i)).life = lifeFor i := by
  by_cases hi : i = .init
  · subst hi
    rw [State.admitting, if_pos rfl]
    rfl
  · have hne : encode i ≠ encode .init := fun h => hi (encode_inj h)
    rw [State.admitting, if_neg hne, lifeFor_of_ne_init hi]
    split
    · rfl
    · assumption

/-- Settles O10: the placed word is at the head of the port, the engine at IDLE, the lifecycle the one that admits it. -/
theorem placedWordIsAccepted : Obligations.PlacedWordIsAccepted := by
  unfold Obligations.PlacedWordIsAccepted
  intro s i hl hw
  have hword : BitVec.ofNat 40 ((encode i).toNat % 2 ^ 40) = encode i := by
    rw [Nat.mod_eq_of_lt (encode i).isLt, BitVec.ofNat_toNat, BitVec.setWidth_eq]
  rw [State.withFetchWord, hword]
  have hcfg : (s.presentWord (encode i)).cfg = s.cfg := admitting_cfg _ s
  have hlife : (s.presentWord (encode i)).life = lifeFor i := admitting_life i s
  have hstep := step_accepts (s := s.presentWord (encode i)) (hcfg ▸ hl) rfl rfl rfl (hcfg ▸ decode_encode hw) hlife
  exact ⟨_, hstep, rfl, rfl, rfl, rfl, admitting_trace _ s, hlife⟩

/-! ## The other agents -/

/-- A move of another agent changes the client's commands and source buffer, the bus memory, the FIFOs, the line's record and
the clock, and nothing else. -/
theorem envMove_frame {m : EnvMove} {s t : State} (h : envMove m s = .next t) :
    t = { s with cmds := t.cmds, src := t.src, mem := t.mem, txq := t.txq, rxq := t.rxq, lineOut := t.lineOut,
                 time := t.time } := by
  rcases envMove_next h with ⟨b, _, rfl⟩ | ⟨_, rfl⟩ | ⟨d, _, rfl⟩ | ⟨v, _, rfl⟩ | ⟨_, rfl⟩ | ⟨c, _, rfl⟩ | ⟨i, b, _, rfl⟩ <;>
    rfl


/-- A foreign write of ENB replaces bits 7 to 1 of the byte (R40, R220). -/
theorem foreignEnbWrite_enb_high {s : State} (hw : s.mem.wf = true) (v : BitVec 7) :
    (s.foreignEnbWrite v).enb.extractLsb' 1 7 = v := by
  have henb : (s.foreignEnbWrite v).enb = v ++ s.enb.extractLsb' 0 1 := writeEnb_enb hw _
  rw [henb]
  apply BitVec.eq_of_getLsbD_eq
  intro k hk
  rw [BitVec.getLsbD_extractLsb', BitVec.getLsbD_append]
  simp [hk]

/-- Settles O14: each move is one update of the state outside the engine. -/
theorem otherAgentsLeaveEngineAlone : Obligations.OtherAgentsLeaveEngineAlone := by
  unfold Obligations.OtherAgentsLeaveEngineAlone
  intro m s t h
  refine ⟨envMove_frame h, ?_, ?_, ?_, ?_, ?_⟩
  · rintro c rfl; cases h; rfl
  · rintro i b rfl; cases h; rfl
  · rintro d rfl; cases h; rfl
  · rintro rfl; cases h; rfl
  · rintro v rfl hw
    cases h
    exact ⟨fun a ha => Memory.read_write_other _ _ _ _ ha, foreignEnbWrite_enb_bit0 hw v, foreignEnbWrite_enb_high hw v, rfl⟩

/-- Settles O48: the delivery appends where there is room, and the IO read of `rx` takes the head. -/
theorem lineReceive : Obligations.LineReceive := by
  unfold Obligations.LineReceive
  refine ⟨fun s b hroom => ?_, fun s b hfull => ?_, fun s b rest hr hq hp => ?_⟩
  · rw [envMove, State.lineReceive, if_pos hroom]
  · rw [envMove, State.lineReceive, if_neg hfull.not_gt]
  · obtain ⟨w, _, he⟩ := exec_rxRead (i := .readByte) (exec_at hp rfl rfl) (line_d0 hp) hr hq
    exact ⟨_, he, rfl, rfl⟩

/-- Settles O49: the drain takes the head of the transmit FIFO, if there is one. -/
theorem lineTransmit : Obligations.LineTransmit := by
  unfold Obligations.LineTransmit
  refine ⟨fun s b rest hq => ?_, fun s hq => ?_⟩
  · simp [envMove, State.lineTransmit, hq]
  · rw [envMove, State.lineTransmit, hq, List.head?_nil, Option.toList_none, List.append_nil, List.tail_nil, ← hq]

/-- Settles O1: the decoder evaluated on each of the words. -/
theorem commandWordsDecodeAsWritten : Obligations.CommandWordsDecodeAsWritten := by
  unfold Obligations.CommandWordsDecodeAsWritten
  decide

/-! ## What an instruction's step changes -/

section
variable {i j : Instr} {s t : State}

/-- INIT's lines are taken for INIT only. -/
theorem eq_init_of_inInit (hj : s.inProgress = some j) (ho : j.opc = i.opc) (hp : s.phase.inInit = true) :
    i = .init := by
  obtain rfl : j = .init := by
    unfold State.inProgress at hj
    split at hj <;> simp_all [Phase.inInit]
  cases i with
  | init => rfl
  | _ => cases ho

theorem line_mem (h : s.phase ∉ [Phase.i1, .i2, .i3, .i6]) : s.line.mem = s.mem := by
  obtain ⟨e, q, he, hl⟩ := line_effect s
  rw [hl]; cases he with
  | writeEnable hp | writeLcr hp | writeBaud hp | writeCntl hp => exact absurd (by rw [hp]; decide) h
  | _ => rfl

/-- An instruction's step changes no more bytes of the bus space than its line. -/
theorem exec_read_eq (h : exec i s = .next t) {a : Nat}
    (hline : ∀ j, s.inProgress = some j → j.opc = i.opc → s.line.mem.read a = s.mem.read a) :
    t.mem.read a = s.mem.read a := by
  rcases exec_next h with ⟨_, rfl⟩ | ⟨j, hj, ho, rfl⟩ | rfl
  · rfl
  · exact hline j hj ho
  · rfl

/-- The line that writes the configuration field `f` changes that field's four bytes only. -/
theorem line_writeConfig_read {f : ConfigField} {w : Word} {q : Phase} {a : Nat}
    (hline : s.line = (s.writeConfig f w).goto q) (ha : OutsideField s.cfg f.toField a) :
    s.line.mem.read a = s.mem.read a := by
  rw [hline]
  exact Memory.read_write32_other _ _ _ _ ha

end

/-- Settles O50: a byte is written at four lines of INIT only, each with its own address. -/
theorem memoryFrame : Obligations.MemoryFrame := by
  unfold Obligations.MemoryFrame
  refine fun i s t h a => ⟨fun ⟨_, hp⟩ ha => ?_, fun ⟨_, hp⟩ ha => ?_, fun ⟨_, hp⟩ ha => ?_, fun ⟨_, hp⟩ ha => ?_,
    fun hother => ?_⟩
  · refine exec_read_eq h fun _ _ _ => ?_
    rw [line_i1 hp]
    exact Memory.read_write_other _ _ _ _ ha
  · exact exec_read_eq h fun _ _ _ => line_writeConfig_read (line_i2 hp) ha
  · exact exec_read_eq h fun _ _ _ => line_writeConfig_read (line_i3 hp) ha
  · exact exec_read_eq h fun _ _ _ => line_writeConfig_read (line_i6 hp) ha
  · refine exec_read_eq h fun j hj ho => ?_
    have hquiet : s.phase ∉ [Phase.i1, .i2, .i3, .i6] := fun hmem =>
      hother ⟨eq_init_of_inInit hj ho (by revert hmem; cases s.phase <;> simp [Phase.inInit]), hmem⟩
    rw [line_mem hquiet]

/-! ## The writers of each register -/

section
variable {i j : Instr} {s t : State}

/-- A line changes no parameter, nothing of the client, and nothing of the other agents' or the schedule. -/
theorem line_frame (s : State) :
    s.line.cfg = s.cfg ∧ s.line.time = s.time ∧ s.line.lineOut = s.lineOut ∧ s.line.sched = s.sched ∧
      s.line.undef = s.undef ∧ s.line.freeCount = s.freeCount ∧ s.line.src = s.src ∧ s.line.cmds = s.cmds := by
  obtain ⟨e, q, he, hl⟩ := line_effect s
  rw [hl]; cases he <;> exact ⟨rfl, rfl, rfl, rfl, rfl, rfl, rfl, rfl⟩

theorem line_timeout (h7 : s.phase ≠ .i7) (h0 : s.phase ≠ .s0) : s.line.toValid = s.toValid ∧ s.line.toMs = s.toMs := by
  obtain ⟨e, q, he, hl⟩ := line_effect s
  rw [hl]; cases he with
  | finishInit hp => exact absurd hp h7
  | setTimeout hp => exact absurd hp h0
  | _ => exact ⟨rfl, rfl⟩

/-- The lines that write E.BYTE, E.V, the time latches, E.IDX and the destination buffer (R23 to R26). -/
theorem line_writers (s : State) :
    (s.line.dst = s.dst ∨ s.phase = .q5) ∧
    (s.line.byte = s.byte ∨ s.phase ∈ [Phase.x2, .y2, .d0 .rx1, .q4 .rx1]) ∧
    (s.line.v = s.v ∨ s.phase ∈ [Phase.i0, .b0 .t0, .h0, .a0 .w1, .d0 .rx0, .d0 .rx1, .x3tx .t0, .x4 .t0, .q0 .w1, .q3,
      .q4 .rx0, .q4 .rx1, .y3 .t0]) ∧
    ((s.line.t0 = s.t0 ∧ s.line.now = s.now) ∨ s.phase ∈ [Phase.a0 .w0, .a0 .w2, .q0 .w0, .q0 .w2]) ∧
    (s.line.idx = s.idx ∨ s.phase ∈ [Phase.x0, .x5, .q1, .q6, .y0, .y4]) := by
  cases hp : s.phase with
  | b0 p | x3tx p | x4 p | y3 p => cases p <;> simp [State.line, hp, State.txStep]
  | d0 p | q4 p => cases p <;> simp [State.line, hp, State.rxStep]
  | a0 p | q0 p => cases p <;> simp [State.line, hp, State.waitStep]
  | a1 r => cases r <;> simp [State.line, hp, State.answered]
  | x1 | q2 | y1 => simp only [State.line, hp, State.loopStep]; split <;> simp [State.answered]
  | _ => simp [State.line, hp, State.answered]

theorem setTimeout_of_s0 (hp : s.phase = .s0) (hj : s.inProgress = some j) (ho : j.opc = i.opc) :
    (∃ ms, i = .setTimeoutMs ms) ∨ i = .setTimeoutNone := by
  have hopc : i.opc = 0x1#4 := by
    simp only [State.inProgress, hp, Option.some.injEq] at hj
    rw [← ho, ← hj, opc_setTimeout]
  cases i with
  | setTimeoutMs ms => exact .inl ⟨ms, rfl⟩
  | setTimeoutNone => exact .inr rfl
  | _ => cases hopc

theorem bufRead_of_q5 (hp : s.phase = .q5) (hj : s.inProgress = some j) (ho : j.opc = i.opc) : ∃ n, i = .bufRead n := by
  simp only [State.inProgress, hp, Option.some.injEq] at hj
  subst hj
  cases i with
  | bufRead n => exact ⟨n, rfl⟩
  | _ => cases ho

theorem ready_line_i7 (hp : s.phase = .i7) : s.line.life = .ready ∧ s.line.toValid = false ∧ s.line.toMs = s.toMs := by
  rw [line_i7 hp]
  exact ⟨rfl, rfl, rfl⟩

theorem line_lifeWriter (hj : s.inProgress = some j) (ho : j.opc = i.opc) :
    s.line.life = s.life ∨ (i = .init ∧ s.phase = .i7 ∧ s.line.life = .ready) := by
  by_cases hp : s.phase = .i7
  · exact .inr ⟨eq_init_of_inInit hj ho (by rw [hp]; rfl), hp, (ready_line_i7 hp).1⟩
  · exact .inl (line_life hp)

theorem line_timeoutWriter (hj : s.inProgress = some j) (ho : j.opc = i.opc) :
    (s.line.toValid = s.toValid ∧ s.line.toMs = s.toMs) ∨
      (i = .init ∧ s.phase = .i7 ∧ s.line.toValid = false ∧ s.line.toMs = s.toMs) ∨
      (((∃ ms, i = .setTimeoutMs ms) ∨ i = .setTimeoutNone) ∧ s.phase = .s0) := by
  by_cases h7 : s.phase = .i7
  · exact .inr (.inl ⟨eq_init_of_inInit hj ho (by rw [h7]; rfl), h7, (ready_line_i7 h7).2⟩)
  · by_cases h0 : s.phase = .s0
    · exact .inr (.inr ⟨setTimeout_of_s0 h0 hj ho, h0⟩)
    · exact .inl (line_timeout h7 h0)

theorem line_pinWriter (hj : s.inProgress = some j) (ho : j.opc = i.opc) :
    (s.line.pin14 = s.pin14 ∧ s.line.pin15 = s.pin15) ∨ (i = .init ∧ s.phase ∈ [Phase.i4, .i5]) := by
  by_cases hp : s.phase ∈ [Phase.i4, .i5]
  · refine .inr ⟨eq_init_of_inInit hj ho ?_, hp⟩
    rcases List.mem_pair.mp hp with hp | hp <;> rw [hp] <;> rfl
  · rw [List.mem_pair, not_or] at hp
    exact .inl ⟨line_pin14 hp.1, line_pin15 hp.2⟩

end

/-- Settles O51: acceptance latches the command, a line writes what its effect names, and an instruction that waits
changes nothing. -/
theorem eachRegisterHasItsWriters : Obligations.EachRegisterHasItsWriters := by
  unfold Obligations.EachRegisterHasItsWriters
  intro i s t h
  rcases exec_next h with ⟨hp, rfl⟩ | ⟨j, hj, ho, rfl⟩ | rfl
  · exact ⟨rfl, rfl, rfl, rfl, rfl, rfl, .inl rfl, .inl ⟨rfl, rfl⟩, .inr hp, .inr (.inl hp), .inl rfl, .inl rfl,
      .inl ⟨rfl, rfl⟩, .inl rfl, .inl rfl, .inl rfl, .inl ⟨rfl, rfl⟩⟩
  · obtain ⟨hcfg, htime, hout, hsched, hundef, hcount, hsrc, hcmds⟩ := line_frame s
    obtain ⟨hopc, hflags, harg⟩ := line_command s
    obtain ⟨hdst, hbyte, hv, hclock, hidx⟩ := line_writers s
    refine ⟨hcfg, htime, hout, hsched, hundef, hcount, line_lifeWriter hj ho, line_timeoutWriter hj ho,
      .inl ⟨hopc, hflags, harg, hsrc, hcmds⟩, ?_, hbyte, hv, hclock, hidx, ?_, ?_, line_pinWriter hj ho⟩
    · exact hdst.imp_right fun hp => .inr ⟨bufRead_of_q5 hp hj ho, hp⟩
    · exact (Bool.eq_false_or_eq_true s.phase.atIoWrite).symm.imp_left line_txq
    · exact (Bool.eq_false_or_eq_true s.phase.atIoRead).symm.imp_left line_rxq
  · exact ⟨rfl, rfl, rfl, rfl, rfl, rfl, .inl rfl, .inl ⟨rfl, rfl⟩, .inl ⟨rfl, rfl, rfl, rfl, rfl⟩, .inl rfl, .inl rfl,
      .inl rfl, .inl ⟨rfl, rfl⟩, .inl rfl, .inl rfl, .inl rfl, .inl ⟨rfl, rfl⟩⟩

/-! ## The timeout and the lifecycle -/

section
variable {s t : State}

theorem step_lifecycle (h : step s = .next t) :
    t.life = s.life ∨ (s.phase = .i7 ∧ t.life = .ready ∧ t.toValid = false) := by
  rcases step_shape h with ⟨u, rest, _, rfl | ⟨i, rfl⟩ | rfl⟩ | ⟨m, rest, _, hm⟩
  · exact .inl rfl
  · exact .inl rfl
  · by_cases hp : s.phase = .i7
    · obtain ⟨hlife, hvalid, _⟩ := ready_line_i7 (s := s.supply u rest) hp
      exact .inr ⟨hp, hlife, hvalid⟩
    · exact .inl (line_life (s := s.supply u rest) hp)
  · have hlife := envMove_life hm
    exact .inl hlife

theorem step_timeout (h : step s = .next t) (hchange : t.toValid ≠ s.toValid ∨ t.toMs ≠ s.toMs) :
    s.phase = .s0 ∨ s.phase = .i7 := by
  by_contra hp
  rw [not_or] at hp
  have hsame : t.toValid = s.toValid ∧ t.toMs = s.toMs := by
    rcases step_shape h with ⟨u, rest, _, rfl | ⟨i, rfl⟩ | rfl⟩ | ⟨m, rest, _, hm⟩
    · exact ⟨rfl, rfl⟩
    · exact ⟨rfl, rfl⟩
    · exact line_timeout (s := s.supply u rest) hp.2 hp.1
    · have hvalid := congrArg State.toValid (envMove_frame hm)
      have hms := congrArg State.toMs (envMove_frame hm)
      exact ⟨hvalid, hms⟩
  exact hchange.elim (· hsame.1) (· hsame.2)

end

/-- Settles O52: the lines S0 and I7 alone change the timeout, I7 alone the lifecycle, and READY has no line I7. -/
theorem timeoutAndLifecycleRules : Obligations.TimeoutAndLifecycleRules := by
  unfold Obligations.TimeoutAndLifecycleRules
  refine fun s t h => ⟨fun hr => ?_, fun hI hr hchange => ?_, step_timeout h, fun hchange => ?_⟩
  · rcases step_lifecycle h with hsame | ⟨_, hready, _⟩
    · exact hsame.trans hr
    · exact hready
  · refine (step_timeout h hchange).resolve_right fun h7 => ?_
    have huninit := hI.lifecycle .uninit (by rw [h7]; rfl)
    exact absurd (huninit.symm.trans hr) (by decide)
  · obtain ⟨h7, _, hvalid⟩ := (step_lifecycle h).resolve_left hchange
    exact ⟨h7, hvalid⟩

end Sys2Proof.Machine

/-! SUPPORT. Runs in which only the engine moves: polls that go on without bound, one byte through `tx` or `rx`, and WRITE_BYTE
and READ_BYTE as whole commands. -/

namespace Sys2Proof.Machine

/-! ## Runs in which only the engine moves -/

/-- From `s` the engine takes `n` steps in a row to a state with the property `Q`, whatever stands in the undefined bits and
whatever the schedule holds after them. -/
def State.Reaches (n : Nat) (Q : State → Prop) (s : State) : Prop :=
  ∀ (us : List Word) (moves : List Move), us.length = n →
    ∃ t, Q t ∧ following (us.map Move.engine ++ moves) s = following moves t

section
variable {n m : Nat} {P Q : State → Prop} {s : State}

theorem reaches_zero (h : Q s) : s.Reaches 0 Q := by
  intro us moves hus
  obtain rfl := List.eq_nil_of_length_eq_zero hus
  exact ⟨s, h, rfl⟩

theorem State.Reaches.bind (h : s.Reaches n P) (hnext : ∀ t, P t → t.Reaches m Q) : s.Reaches (n + m) Q := by
  intro us moves hus
  obtain ⟨t, hP, hrun⟩ := h (us.take n) ((us.drop n).map .engine ++ moves) (by rw [List.length_take]; omega)
  obtain ⟨t', hQ, hrun'⟩ := hnext t hP (us.drop n) moves (by rw [List.length_drop]; omega)
  refine ⟨t', hQ, ?_⟩
  rw [← hrun', ← hrun, ← List.append_assoc, ← List.map_append, List.take_append_drop]

theorem State.Reaches.mono (h : s.Reaches n P) (hPQ : ∀ t, P t → Q t) : s.Reaches n Q :=
  h.bind (m := 0) fun t hP => reaches_zero (hPQ t hP)

theorem State.Reaches.steps (h : s.Reaches n Q) (hnm : n = m) : s.Reaches m Q :=
  hnm ▸ h

/-- One line, and the run that goes on from it. -/
theorem reaches_cons (hl : s.cfg.legal = true) (hp : s.phase ≠ .idle) (h : ∀ u rest, (s.supply u rest).line.Reaches n Q) :
    s.Reaches (n + 1) Q := by
  intro us moves hus
  obtain ⟨u, us, rfl⟩ := List.exists_cons_of_length_eq_add_one hus
  obtain ⟨t, hQ, hrun⟩ := h u (us.map .engine ++ moves) us moves (Nat.succ.inj hus)
  exact ⟨t, hQ, (following_engine u _ hl hp).trans hrun⟩

theorem reaches_line (hl : s.cfg.legal = true) (hp : s.phase ≠ .idle) (h : ∀ u rest, Q (s.supply u rest).line) :
    s.Reaches 1 Q :=
  reaches_cons hl hp fun u rest => reaches_zero (h u rest)

theorem State.Reaches.alone (h : s.Reaches n Q) {us : List Word} (hus : us.length = n) :
    ∃ t, Q t ∧ alone us s = .next (t.schedule []) := by
  obtain ⟨t, hQ, hrun⟩ := h us [] hus
  refine ⟨t, hQ, ?_⟩
  rw [alone_eq_following, ← List.append_nil (us.map _), hrun, following_nil]

end

/-! ## Polls that see the flag clear -/

/-- The state without what a poll changes. -/
def State.exceptPoll (s : State) : State :=
  { s with v := 0, trace := [], sched := [], undef := 0, freeCount := 0 }

/-- A read of LSR that saw the flag in `bit` clear. -/
def Transaction.PollMissed (c : Config) (bit : Nat) (x : Transaction) : Prop :=
  ∃ w : Word, x = .memRead (c.addr .lsr) 4 w ∧ w.getLsbD bit = false

/-- From `s` to `t` there have been `n` polls, each of which saw the flag in `bit` clear, and nothing else. -/
structure State.Spun (bit n : Nat) (s t : State) : Prop where
  same : t.exceptPoll = s.exceptPoll
  polls : ∃ polls, t.trace = polls ++ s.trace ∧ polls.length = n ∧ ∀ x ∈ polls, x.PollMissed s.cfg bit

/-- As long as the poll at the control point sees the flag clear and comes back to it, the engine polls (R246). -/
theorem reaches_spun {bit : Nat} (n : Nat) {s : State} (hl : s.cfg.legal = true) (hp : s.phase ≠ .idle)
    (hspin : ∀ t : State, t.exceptPoll = s.exceptPoll →
      t.line = t.readLsr.goto t.phase ∧ t.lsrWord.getLsbD bit = false) :
    s.Reaches n (s.Spun bit n) := by
  induction n with
  | zero => exact reaches_zero ⟨rfl, [], rfl, rfl, by simp⟩
  | succ n ih =>
    refine ih.bind fun t ⟨hsame, polls, htrace, hlen, hmissed⟩ => ?_
    have hcfg : t.cfg = s.cfg := (congrArg State.cfg hsame :)
    have hphase : t.phase = s.phase := (congrArg State.phase hsame :)
    refine reaches_line (hcfg ▸ hl) (hphase ▸ hp) fun u rest => ?_
    obtain ⟨hline, hbit⟩ := hspin (t.supply u rest) hsame
    rw [hline]
    refine ⟨hsame, .memRead (t.cfg.addr .lsr) 4 (t.supply u rest).lsrWord :: polls, congrArg (_ :: ·) htrace,
      congrArg (· + 1) hlen, List.forall_mem_cons.mpr ⟨⟨_, ?_, hbit⟩, hmissed⟩⟩
    rw [hcfg]

theorem dataReady_empty {s : State} (hr : s.life = .ready) (hq : s.rxq = []) : s.dataReady = false := by
  rw [dataReady_ready hr, hq]
  rfl

/-! ## The calls of `tx` and of `rx` -/

/-- The calls of `tx` (R150), by WRITE_BYTE, WRITE_STR (twice) and BUF_WRITE: the byte, the control points and the return. -/
inductive TxCall (s : State) : (b : Byte) → (here : TxPoint → Phase) → (ret : Phase) → Prop
  | writeByte : TxCall s (lowByte s.arg) .b0 .b1
  | carriageReturn : TxCall s Config.carriageReturn .x3tx (.x4 .t0)
  | strByte : TxCall s s.byte .x4 .x5
  | bufByte : TxCall s s.byte .y3 .y4

/-- The calls of `rx` (R163), by READ_BYTE and BUF_READ. -/
inductive RxCall : (here : RxPoint → Phase) → (ret : Phase) → Prop
  | readByte : RxCall .d0 .d1
  | bufRead : RxCall .q4 .q5

section
variable {s t : State} {b : Byte} {here : TxPoint → Phase} {ret : Phase}

theorem TxCall.line_eq {p : TxPoint} (hc : TxCall s b here ret) (hp : s.phase = here p) :
    s.line = s.txStep b here ret p := by
  cases hc with
  | writeByte => exact line_b0 hp
  | carriageReturn => exact line_x3tx hp
  | strByte => exact line_x4 hp
  | bufByte => exact line_y3 hp

theorem TxCall.busy (hc : TxCall s b here ret) (p : TxPoint) : here p ≠ .idle := by
  cases hc <;> nofun

theorem TxCall.of_same (hc : TxCall s b here ret) (ha : t.arg = s.arg) (hb : t.byte = s.byte) : TxCall t b here ret := by
  cases hc with
  | writeByte => rw [← ha]; exact .writeByte
  | carriageReturn => exact .carriageReturn
  | strByte => rw [← hb]; exact .strByte
  | bufByte => rw [← hb]; exact .bufByte

theorem atTxPoll_txCall (h : s.phase.atTxPoll = true) : ∃ b here ret, TxCall s b here ret ∧ s.phase = here .t0 := by
  unfold Phase.atTxPoll at h
  split at h
  case h_5 => cases h
  case h_1 hp => exact ⟨_, _, _, .writeByte, hp⟩
  case h_2 hp => exact ⟨_, _, _, .carriageReturn, hp⟩
  case h_3 hp => exact ⟨_, _, _, .strByte, hp⟩
  case h_4 hp => exact ⟨_, _, _, .bufByte, hp⟩

/-- With the transmit FIFO full, `tx` polls and nothing else. -/
theorem TxCall.reaches_spun (hc : TxCall s b here ret) (n : Nat) (hl : s.cfg.legal = true) (hr : s.life = .ready)
    (hp : s.phase = here .t0) (hfull : s.cfg.txDepth ≤ s.txq.length) : s.Reaches n (s.Spun 5 n) := by
  refine Machine.reaches_spun n hl (hp ▸ hc.busy _) fun t hsame => ?_
  have hphase : t.phase = here .t0 := (congrArg State.phase hsame :).trans hp
  have hlife : t.life = .ready := (congrArg State.life hsame :).trans hr
  have htxq : t.txq = s.txq := (congrArg State.txq hsame :)
  have hcfg : t.cfg = s.cfg := (congrArg State.cfg hsame :)
  have hspace : t.txSpace = false := by
    rw [txSpace_ready hlife, htxq, hcfg]
    exact decide_eq_false hfull.not_gt
  have hc' : TxCall t b here ret := hc.of_same (congrArg State.arg hsame :) (congrArg State.byte hsame :)
  refine ⟨?_, (lsrWord_bit5 t).trans hspace⟩
  rw [hc'.line_eq hphase, hphase, State.txStep, hspace]
  rfl

theorem RxCall.line_eq {here : RxPoint → Phase} {p : RxPoint} (hc : RxCall here ret) (hp : s.phase = here p) :
    s.line = s.rxStep here ret p := by
  cases hc with
  | readByte => exact line_d0 hp
  | bufRead => exact line_q4 hp

theorem RxCall.busy {here : RxPoint → Phase} (hc : RxCall here ret) (p : RxPoint) : here p ≠ .idle := by
  cases hc <;> nofun

/-- With the receive FIFO empty, `rx` polls and nothing else. -/
theorem RxCall.reaches_spun {here : RxPoint → Phase} (hc : RxCall here ret) (n : Nat) (hl : s.cfg.legal = true)
    (hr : s.life = .ready) (hp : s.phase = here .rx0) (hempty : s.rxq = []) : s.Reaches n (s.Spun 0 n) := by
  refine Machine.reaches_spun n hl (hp ▸ hc.busy _) fun t hsame => ?_
  have hphase : t.phase = here .rx0 := (congrArg State.phase hsame :).trans hp
  have hready : t.dataReady = false := dataReady_empty ((congrArg State.life hsame :).trans hr)
    ((congrArg State.rxq hsame :).trans hempty)
  refine ⟨?_, (lsrWord_bit0 t).trans hready⟩
  rw [hc.line_eq hphase, hphase, State.rxStep, hready]
  rfl

/-- With the receive FIFO empty and no timeout, `wait` polls and nothing else. -/
theorem WaitCall.reaches_spun {here : WaitPoint → Phase} {ok late : Phase} (hc : WaitCall here ok late) (n : Nat)
    (hl : s.cfg.legal = true) (hr : s.life = .ready) (hp : s.phase = here .w1) (hv : s.toValid = false)
    (hempty : s.rxq = []) : s.Reaches n (s.Spun 0 n) := by
  refine Machine.reaches_spun n hl (hp ▸ hc.busy _) fun t hsame => ?_
  have hphase : t.phase = here .w1 := (congrArg State.phase hsame :).trans hp
  have hready : t.dataReady = false := dataReady_empty ((congrArg State.life hsame :).trans hr)
    ((congrArg State.rxq hsame :).trans hempty)
  have hvalid : t.toValid = false := (congrArg State.toValid hsame :).trans hv
  refine ⟨?_, (lsrWord_bit0 t).trans hready⟩
  rw [hc.line_eq hphase, hphase, State.waitStep, hready, hvalid]
  rfl

/-! ## One byte through `tx` or `rx` -/

/-- From `s` to `t` the byte `b` has gone through `tx`: one poll that saw room, and the IO write. -/
structure State.SentByte (b : Byte) (ret : Phase) (s t : State) : Prop where
  same : t.exceptPoll = { s with phase := ret, txq := s.txq ++ [b] }.exceptPoll
  trace : ∃ w : Word, w.getLsbD 5 = true ∧
    t.trace = .memWrite (s.cfg.addr .io) 4 (widen b) :: .memRead (s.cfg.addr .lsr) 4 w :: s.trace

theorem TxCall.reaches_sentByte (hc : TxCall s b here ret) (hl : s.cfg.legal = true) (hr : s.life = .ready)
    (hp : s.phase = here .t0) (hroom : s.txq.length < s.cfg.txDepth) : s.Reaches 2 (s.SentByte b ret) := by
  refine reaches_cons hl (hp ▸ hc.busy _) fun u rest => ?_
  have hpoll : TxCall (s.supply u rest) b here ret := hc.of_same rfl rfl
  have hw : (s.supply u rest).lsrWord.getLsbD 5 = true :=
    (lsrWord_bit5 _).trans ((txSpace_iff (s := s.supply u rest) hr).mpr hroom)
  rw [hpoll.line_eq hp, txStep_poll_ready (s := s.supply u rest) hr, if_pos (by exact hroom)]
  generalize (s.supply u rest).lsrWord = w at hw
  refine reaches_line hl (hc.busy .t1) fun u' rest' => ?_
  rw [TxCall.line_eq (here := here) (by exact hc.of_same rfl rfl) rfl, txStep_write_ready (by exact hr) (by exact hroom)]
  exact ⟨rfl, w, hw, rfl⟩

/-- From `s` to `t` the byte `b`, with `rest` after it, has come through `rx`: one poll that saw it, and the IO read. -/
structure State.ReceivedByte (b : Byte) (rest : List Byte) (ret : Phase) (s t : State) : Prop where
  same : t.exceptPoll = { s with phase := ret, rxq := rest, byte := b }.exceptPoll
  trace : ∃ w w' : Word, w.getLsbD 0 = true ∧ w'.setWidth 8 = b ∧
    t.trace = .memRead (s.cfg.addr .io) 4 w' :: .memRead (s.cfg.addr .lsr) 4 w :: s.trace

theorem RxCall.reaches_receivedByte {here : RxPoint → Phase} (hc : RxCall here ret) {rest : List Byte}
    (hl : s.cfg.legal = true) (hr : s.life = .ready) (hp : s.phase = here .rx0) (hq : s.rxq = b :: rest) :
    s.Reaches 2 (s.ReceivedByte b rest ret) := by
  have hne : s.rxq ≠ [] := by rw [hq]; exact List.cons_ne_nil _ _
  refine reaches_cons hl (hp ▸ hc.busy _) fun u moves => ?_
  have hw : (s.supply u moves).lsrWord.getLsbD 0 = true :=
    (lsrWord_bit0 _).trans ((dataReady_iff (s := s.supply u moves) hr).mpr hne)
  rw [hc.line_eq (s := s.supply u moves) hp, rxStep_poll_ready (s := s.supply u moves) hr, if_pos (by exact hne)]
  generalize (s.supply u moves).lsrWord = w at hw
  refine reaches_line hl (hc.busy .rx1) fun u' moves' => ?_
  rw [hc.line_eq rfl, rxStep_read_ready (by exact hr) (by exact hq)]
  exact ⟨rfl, w, _, hw, ioWord_low (by exact hr) (by exact hq), rfl⟩

end

/-- Settles O22: every control point of a poll of `tx` is one of the calls of `TxCall`, and each spins. -/
theorem transmitSpinsWhileFull : Obligations.TransmitSpinsWhileFull := by
  unfold Obligations.TransmitSpinsWhileFull
  intro s us hl hr hp hfull
  obtain ⟨b, here, ret, hc, hphase⟩ := atTxPoll_txCall hp
  obtain ⟨t, ⟨hsame, polls, htrace, hlen, hmissed⟩, hrun⟩ := (hc.reaches_spun us.length hl hr hphase hfull).alone rfl
  exact ⟨_, polls, hrun, htrace, hlen, hmissed, (congrArg State.phase hsame :), (congrArg State.txq hsame :),
    (congrArg State.rxq hsame :), (congrArg State.mem hsame :), (congrArg State.cmds hsame :)⟩

/-- Settles O32: the two calls of `wait` with no timeout spin at their poll. -/
theorem unboundedWaitOnlyPolls : Obligations.UnboundedWaitOnlyPolls := by
  unfold Obligations.UnboundedWaitOnlyPolls
  intro s us hl hr hp hv hq
  obtain ⟨here, ok, late, hc, hphase⟩ := waitPoll_waitCall hp
  obtain ⟨t, ⟨hsame, polls, htrace, hlen, hmissed⟩, hrun⟩ := (hc.reaches_spun us.length hl hr hphase hv hq).alone rfl
  exact ⟨_, polls, hrun, htrace, hlen, hmissed, (congrArg State.phase hsame :), (congrArg State.rxq hsame :).trans hq,
    (congrArg State.t0 hsame :), (congrArg State.now hsame :)⟩

/-- Settles O37: the call of `rx` by READ_BYTE spins at its poll. -/
theorem receiveSpinsWhileEmpty : Obligations.ReceiveSpinsWhileEmpty := by
  unfold Obligations.ReceiveSpinsWhileEmpty
  intro s us hl hr hp hq
  obtain ⟨t, ⟨hsame, polls, htrace, hlen, hmissed⟩, hrun⟩ :=
    (RxCall.readByte.reaches_spun us.length hl hr hp hq).alone rfl
  exact ⟨_, polls, hrun, htrace, hlen, hmissed, (congrArg State.phase hsame :).trans hp,
    (congrArg State.rxq hsame :).trans hq, (congrArg State.toValid hsame :), (congrArg State.toMs hsame :)⟩

/-! ## WRITE_BYTE and READ_BYTE as whole commands -/

/-- From `s` to `t` WRITE_BYTE has sent `b` and answered (R151). -/
structure State.WroteByte (b : Byte) (s t : State) : Prop where
  same : t.exceptPoll = { s with phase := .idle, txq := s.txq ++ [b] }.exceptPoll
  trace : ∃ w : Word, w.getLsbD 5 = true ∧
    t.trace = [.respond (responseWord .ok 0#32), .memWrite (s.cfg.addr .io) 4 (widen b), .memRead (s.cfg.addr .lsr) 4 w] ++ s.trace

/-- From `s` to `t` READ_BYTE has taken `b`, with `rest` after it, and answered (R164). -/
structure State.DidReadByte (b : Byte) (rest : List Byte) (s t : State) : Prop where
  same : t.exceptPoll = { s with phase := .idle, rxq := rest, byte := b }.exceptPoll
  trace : ∃ w w' : Word, w.getLsbD 0 = true ∧ w'.setWidth 8 = b ∧
    t.trace = [.respond (responseWord .ok (widen b)), .memRead (s.cfg.addr .io) 4 w', .memRead (s.cfg.addr .lsr) 4 w] ++ s.trace

section
variable {s : State} {b : Byte}

theorem reaches_wroteByte (hl : s.cfg.legal = true) (hr : s.life = .ready) (hp : s.phase = .b0 .t0)
    (hroom : s.txq.length < s.cfg.txDepth) (hb : lowByte s.arg = b) : s.Reaches 3 (s.WroteByte b) := by
  subst hb
  refine (TxCall.writeByte.reaches_sentByte hl hr hp hroom).bind (m := 1) fun t ⟨hsame, w, hw, htrace⟩ => ?_
  have hphase : t.phase = .b1 := (congrArg State.phase hsame :)
  have hcfg : t.cfg = s.cfg := (congrArg State.cfg hsame :)
  refine reaches_line (hcfg ▸ hl) (hphase ▸ nofun) fun u moves => ?_
  rw [line_b1 (s := t.supply u moves) hphase]
  exact ⟨congrArg (State.goto .idle) hsame, w, hw, congrArg (_ :: ·) htrace⟩

theorem reaches_didReadByte {rest : List Byte} (hl : s.cfg.legal = true) (hr : s.life = .ready)
    (hp : s.phase = .d0 .rx0) (hq : s.rxq = b :: rest) : s.Reaches 3 (s.DidReadByte b rest) := by
  refine (RxCall.readByte.reaches_receivedByte hl hr hp hq).bind (m := 1) fun t ⟨hsame, w, w', hw, hw', htrace⟩ => ?_
  have hphase : t.phase = .d1 := (congrArg State.phase hsame :)
  have hcfg : t.cfg = s.cfg := (congrArg State.cfg hsame :)
  have hbyte : t.byte = b := (congrArg State.byte hsame :)
  refine reaches_line (hcfg ▸ hl) (hphase ▸ nofun) fun u moves => ?_
  rw [line_d1 (s := t.supply u moves) hphase, State.supply_byte, hbyte]
  exact ⟨congrArg (State.goto .idle) hsame, w, w', hw, hw', congrArg (_ :: ·) htrace⟩

end

/-- Settles O21: the accepted command calls `tx` with its byte, which finds room, and answers. -/
theorem writeByteSendsTheByte : Obligations.WriteByteSendsTheByte := by
  unfold Obligations.WriteByteSendsTheByte
  refine ⟨fun s b us hl hr hroom hus => ?_, fun s b hu => exec_offering_refuses hu nofun rfl⟩
  obtain ⟨u, us, rfl⟩ := List.exists_cons_of_length_eq_add_one hus
  obtain ⟨t, ⟨hsame, w, hw, htrace⟩, hrun⟩ :=
    (reaches_wroteByte (s := ((s.offering (.writeByte b) [] []).supply u (us.map .engine)).latch (.writeByte b) (.b0 .t0))
      hl hr rfl hroom (lowByte_widen b)).alone (Nat.succ.inj hus)
  exact ⟨_, w, alone_accepts hl hr rfl hrun, hw, htrace, (congrArg State.txq hsame :), (congrArg State.rxq hsame :),
    (congrArg State.mem hsame :), (congrArg State.phase hsame :), (congrArg State.life hsame :).trans hr,
    (congrArg State.toValid hsame :), (congrArg State.toMs hsame :)⟩

/-- Settles O36: the accepted command calls `rx`, which finds the byte, and answers it. -/
theorem readByteTakesTheOldest : Obligations.ReadByteTakesTheOldest := by
  unfold Obligations.ReadByteTakesTheOldest
  refine ⟨fun s b rest us hl hr hq hus => ?_, fun s hu => exec_offering_refuses hu nofun rfl⟩
  obtain ⟨u, us, rfl⟩ := List.exists_cons_of_length_eq_add_one hus
  obtain ⟨t, ⟨hsame, w, w', hw, hw', htrace⟩, hrun⟩ :=
    (reaches_didReadByte (s := ((s.offering .readByte [] []).supply u (us.map .engine)).latch .readByte (.d0 .rx0))
      hl hr rfl hq).alone (Nat.succ.inj hus)
  rw [responseWord_ok_byte] at htrace
  exact ⟨_, w, w', alone_accepts hl hr rfl hrun, hw, hw', htrace, (congrArg State.rxq hsame :), (congrArg State.txq hsame :),
    (congrArg State.mem hsame :), (congrArg State.phase hsame :), (congrArg State.byte hsame :),
    (congrArg State.toValid hsame :), (congrArg State.toMs hsame :), (congrArg State.t0 hsame :),
    (congrArg State.now hsame :)⟩

/-- Settles O23: the closed polls change nothing, the drain makes room, and then WRITE_BYTE goes through. -/
theorem byteFollowsFirstOpenPoll : Obligations.ByteFollowsFirstOpenPoll := by
  unfold Obligations.ByteFollowsFirstOpenPoll
  intro s b us u1 u2 u3 hl hr hp harg hfull
  obtain ⟨t, ⟨hsame, closed, htrace, hlen, hmissed⟩, hspin⟩ :=
    TxCall.writeByte.reaches_spun us.length hl hr hp hfull.ge us [.env .drain, .engine u1, .engine u2, .engine u3] rfl
  have hdrained := congrArg State.lineTransmit hsame
  have hcfg : t.cfg = s.cfg := (congrArg State.cfg hsame :)
  have harg' : t.arg = s.arg := (congrArg State.arg hsame :)
  have htxq : t.txq.tail = s.txq.tail := (congrArg State.txq hdrained :)
  have hroom : t.txq.tail.length < t.cfg.txDepth := by
    have hdepth := (legal_bounds hl).2.2.1
    rw [htxq, hcfg, List.length_tail]; omega
  obtain ⟨t', ⟨hsame', w, hw, htrace'⟩, hrun⟩ := reaches_wroteByte (b := b)
    (s := State.lineTransmit { t with sched := [.engine u1, .engine u2, .engine u3] }) (hcfg ▸ hl)
    ((congrArg State.life hsame :).trans hr) ((congrArg State.phase hsame :).trans hp) hroom
    ((congrArg lowByte (harg'.trans harg)).trans (lowByte_widen b)) [u1, u2, u3] [] rfl
  have hout : t'.lineOut = s.lineOut ++ s.txq.head?.toList :=
    (congrArg State.lineOut hsame' :).trans (congrArg State.lineOut hdrained :)
  have hsent : t'.txq = s.txq.tail ++ [b] := (congrArg State.txq hsame' :).trans (congrArg (· ++ [b]) htxq)
  refine ⟨_, closed, w, hspin.trans ((following_env .drain _ (hcfg ▸ hl) rfl).trans hrun), ?_, hw, hlen, hmissed, hsent, hout,
    (congrArg State.phase hsame' :)⟩
  rw [State.schedule_trace, htrace', State.lineTransmit_trace, htrace, State.lineTransmit_cfg, hcfg]
  rfl

end Sys2Proof.Machine

/-! SUPPORT. `wait` while the clock advances: the byte that is there at the first poll, and the deadline that has passed or not. -/

namespace Sys2Proof.Machine

/-! ## `wait` with the clock advancing before its deadline test -/

/-- From `s`, at the start of `wait`, to `t`: no byte has come, and the clock has advanced by `d` between the poll and the
sample of the deadline test (R158). -/
structure State.WaitedOnce (d : Micros) (here : WaitPoint → Phase) (late : Phase) (s t : State) : Prop where
  same : t.exceptPoll = { s with
    phase := if s.toMs.toNat * 1000 < d.toNat then late else here .w1, t0 := s.time, now := s.time + d,
    time := s.time + d }.exceptPoll
  trace : ∃ w : Word, w.getLsbD 0 = false ∧
    t.trace = [.timeNow (s.time + d), .memRead (s.cfg.addr .lsr) 4 w, .timeNow s.time] ++ s.trace

section
variable {s t : State} {here : WaitPoint → Phase} {ok late : Phase}

/-- With a timeout present and no byte, the poll of `wait` leads to the deadline test (R158). -/
theorem WaitCall.missed_poll (hc : WaitCall here ok late) (hr : s.life = .ready) (hp : s.phase = here .w1)
    (hv : s.toValid = true) (hq : s.rxq = []) :
    ∃ w : Word, w.getLsbD 0 = false ∧ s.line = { s with
      v := w, phase := here .w2, trace := .memRead (s.cfg.addr .lsr) 4 w :: s.trace } := by
  refine ⟨s.lsrWord, (lsrWord_bit0 s).trans (dataReady_empty hr hq), ?_⟩
  rw [hc.line_eq hp, waitStep_poll_ready hr, if_neg (not_not.mpr hq), if_pos hv]

/-- With a byte waiting, the poll of `wait` ends it (R158). -/
theorem WaitCall.seen_poll (hc : WaitCall here ok late) (hr : s.life = .ready) (hp : s.phase = here .w1)
    (hq : s.rxq ≠ []) :
    ∃ w : Word, w.getLsbD 0 = true ∧ s.line = { s with
      v := w, phase := ok, trace := .memRead (s.cfg.addr .lsr) 4 w :: s.trace } := by
  refine ⟨s.lsrWord, (lsrWord_bit0 s).trans ((dataReady_iff hr).mpr hq), ?_⟩
  rw [hc.line_eq hp, waitStep_poll_ready hr, if_pos hq]

/-- The deadline test of `wait`, when `d` has passed since its start (R158, R160). -/
theorem WaitCall.test_line {d : Micros} (hc : WaitCall here ok late) (hp : s.phase = here .w2) (hd : s.time - s.t0 = d) :
    s.line = { s with
      now := s.time, phase := if s.toMs.toNat * 1000 < d.toNat then late else here .w1,
      trace := .timeNow s.time :: s.trace } := by
  rw [hc.line_eq hp, waitStep_test, hd]

/-- From the start of `wait` to its first poll (R158). -/
theorem WaitCall.reaches_w1 (hc : WaitCall here ok late) (hl : s.cfg.legal = true) (hp : s.phase = here .w0) :
    s.Reaches 1 fun t => t.exceptPoll = { s with phase := here .w1, t0 := s.time }.exceptPoll ∧
      t.trace = .timeNow s.time :: s.trace := by
  refine reaches_line hl (hp ▸ hc.busy _) fun u rest => ?_
  rw [hc.line_eq (s := s.supply u rest) hp]
  exact ⟨rfl, rfl⟩

/-- From the start of `wait` to its deadline test, with no byte (R158). -/
theorem WaitCall.reaches_w2 (hc : WaitCall here ok late) (hl : s.cfg.legal = true) (hr : s.life = .ready)
    (hp : s.phase = here .w0) (hv : s.toValid = true) (hq : s.rxq = []) :
    s.Reaches 2 fun t => t.exceptPoll = { s with phase := here .w2, t0 := s.time }.exceptPoll ∧
      ∃ w : Word, w.getLsbD 0 = false ∧ t.trace = [.memRead (s.cfg.addr .lsr) 4 w, .timeNow s.time] ++ s.trace := by
  refine (hc.reaches_w1 hl hp).bind (m := 1) fun t ⟨hsame, htrace⟩ => ?_
  have hcfg : t.cfg = s.cfg := (congrArg State.cfg hsame :)
  have hphase : t.phase = here .w1 := (congrArg State.phase hsame :)
  refine reaches_line (hcfg ▸ hl) (hphase ▸ hc.busy _) fun u rest => ?_
  obtain ⟨w, hw, hline⟩ := hc.missed_poll (s := t.supply u rest) ((congrArg State.life hsame :).trans hr) hphase
    ((congrArg State.toValid hsame :).trans hv) ((congrArg State.rxq hsame :).trans hq)
  rw [hline]
  exact ⟨congrArg (State.goto (here .w2)) hsame, w, hw,
    congrArg₂ (fun (c : Config) r => .memRead (c.addr .lsr) 4 w :: r) hcfg htrace⟩

/-- The run from the start of `wait` to the end of its first deadline test. -/
theorem WaitCall.following_waitedOnce (hc : WaitCall here ok late) (u1 u2 u3 : Word) (d : Micros) (moves : List Move)
    (hl : s.cfg.legal = true) (hr : s.life = .ready) (hp : s.phase = here .w0) (hv : s.toValid = true) (hq : s.rxq = []) :
    ∃ t, s.WaitedOnce d here late t ∧
      following (.engine u1 :: .engine u2 :: .env (.tick d) :: .engine u3 :: moves) s = following moves t := by
  obtain ⟨t, ⟨hsame, w, hw, htrace⟩, hpolled⟩ :=
    hc.reaches_w2 hl hr hp hv hq [u1, u2] (.env (.tick d) :: .engine u3 :: moves) rfl
  have hcfg : t.cfg = s.cfg := (congrArg State.cfg hsame :)
  have hphase : t.phase = here .w2 := (congrArg State.phase hsame :)
  have htime : t.time = s.time := (congrArg State.time hsame :)
  have ht0 : t.t0 = s.time := (congrArg State.t0 hsame :)
  have hd : t.time + d - t.t0 = d := by rw [htime, ht0]; exact add_sub_cancel_left s.time d
  have hticked := following_env (.tick d) (.engine u3 :: moves) (s := t) (hcfg ▸ hl) rfl
  have htested := following_line u3 moves (here .w2)
    (s := State.advanceTime d { t with sched := .engine u3 :: moves }) (hcfg ▸ hl) hphase (hc.busy _)
    (hc.test_line (by exact hphase) (by exact hd))
  refine ⟨_, ⟨?_, w, hw, ?_⟩, hpolled.trans (hticked.trans htested)⟩
  · exact congrArg (fun e : State => { e with
      phase := if e.toMs.toNat * 1000 < d.toNat then late else here .w1, now := e.time + d, time := e.time + d }) hsame
  · exact congrArg₂ (fun time trace => .timeNow (time + d) :: trace) htime htrace

/-- From the start of `wait`, with a byte waiting, the first poll ends it, wherever the clock stands by then (R158). -/
theorem WaitCall.following_seen (hc : WaitCall here ok late) (u1 u2 : Word) (d : Micros) (moves : List Move)
    (hl : s.cfg.legal = true) (hr : s.life = .ready) (hp : s.phase = here .w0) (hq : s.rxq ≠ []) :
    ∃ t, (t.exceptPoll = { s with phase := ok, t0 := s.time, time := s.time + d }.exceptPoll ∧
        ∃ w : Word, w.getLsbD 0 = true ∧ t.trace = [.memRead (s.cfg.addr .lsr) 4 w, .timeNow s.time] ++ s.trace) ∧
      following (.engine u1 :: .env (.tick d) :: .engine u2 :: moves) s = following moves t := by
  obtain ⟨t, ⟨hsame, htrace⟩, hstart⟩ := hc.reaches_w1 hl hp [u1] (.env (.tick d) :: .engine u2 :: moves) rfl
  have hcfg : t.cfg = s.cfg := (congrArg State.cfg hsame :)
  have hphase : t.phase = here .w1 := (congrArg State.phase hsame :)
  have hlife : t.life = .ready := (congrArg State.life hsame :).trans hr
  have hrxq : t.rxq ≠ [] := (congrArg State.rxq hsame :).trans_ne hq
  have hticked := following_env (.tick d) (.engine u2 :: moves) (s := t) (hcfg ▸ hl) rfl
  obtain ⟨w, hw, hline⟩ := hc.seen_poll
    (s := (State.advanceTime d { t with sched := .engine u2 :: moves }).supply u2 moves) hlife hphase hrxq
  have hpolled := following_line u2 moves (here .w1) (by exact hcfg ▸ hl) (by exact hphase) (hc.busy _) hline
  refine ⟨_, ⟨?_, w, hw, ?_⟩, hstart.trans (hticked.trans hpolled)⟩
  · exact congrArg (fun e : State => { e with phase := ok, time := e.time + d }) hsame
  · exact congrArg₂ (fun (c : Config) r => .memRead (c.addr .lsr) 4 w :: r) hcfg htrace

end

/-- The state in which `i`, offered in `s`, has been accepted. -/
def State.accepted (i : Instr) (u : Word) (moves : List Move) (s : State) : State :=
  ((s.offering i [] []).supply u moves).latch i (firstLabel i)

theorem following_accepted {i : Instr} {s : State} (u : Word) (moves : List Move) (hl : s.cfg.legal = true)
    (hi : s.life = lifeFor i) (hw : i.wellFormed s.cfg.hostBuild = true) :
    following (.engine u :: moves) (s.offering i [] []) = following moves (s.accepted i u moves) :=
  following_accept u moves (s := s.offering i [] []) hl rfl (State.offering_cmds s i [] []) (decode_encode hw) hi

/-- Settles O30: after the start sample the first poll sees the byte, wherever the clock stands. -/
theorem readyByteBeatsAnyDeadline : Obligations.ReadyByteBeatsAnyDeadline := by
  unfold Obligations.ReadyByteBeatsAnyDeadline
  intro s u0 u1 u2 u3 d hl hr hq
  have haccept := following_accepted (i := .waitForByte) u0 [.engine u1, .env (.tick d), .engine u2, .engine u3] hl hr rfl
  obtain ⟨t, ⟨hsame, w, hw, htrace⟩, hrun⟩ := WaitCall.waitForByte.following_seen u1 u2 d [.engine u3]
    (s := s.accepted .waitForByte u0 _) hl hr rfl hq
  have hcfg : t.cfg = s.cfg := (congrArg State.cfg hsame :)
  have hphase : t.phase = .a1 .ok := (congrArg State.phase hsame :)
  have hanswer := following_line u3 [] (.a1 .ok) (hcfg ▸ hl) hphase nofun (line_a1_ok hphase)
  exact ⟨_, w, haccept.trans (hrun.trans hanswer), hw, congrArg (_ :: ·) htrace, (congrArg State.rxq hsame :),
    (congrArg State.txq hsame :), (congrArg State.mem hsame :), (congrArg State.toValid hsame :),
    (congrArg State.toMs hsame :), rfl⟩

/-- Settles O31: the command is accepted, and after the first deadline test it answers TIMED_OUT or polls again. -/
theorem waitTimesOutPastTheDeadline : Obligations.WaitTimesOutPastTheDeadline := by
  unfold Obligations.WaitTimesOutPastTheDeadline
  intro s u0 u1 u2 u3 u4 d hl hr hq hv
  have haccept := following_accepted (i := .waitForByte) u0 [.engine u1, .engine u2, .env (.tick d), .engine u3, .engine u4]
    hl hr rfl
  obtain ⟨t, ⟨hsame, w, hw, htrace⟩, hrun⟩ := WaitCall.waitForByte.following_waitedOnce u1 u2 u3 d [.engine u4]
    (s := s.accepted .waitForByte u0 _) hl hr rfl hv hq
  have hcfg : t.cfg = s.cfg := (congrArg State.cfg hsame :)
  have hphase : t.phase = if s.toMs.toNat * 1000 < d.toNat then .a1 .timedOut else .a0 .w1 := (congrArg State.phase hsame :)
  have hlife : t.life = .ready := (congrArg State.life hsame :).trans hr
  have hrxq : t.rxq = [] := (congrArg State.rxq hsame :).trans hq
  have hvalid : t.toValid = true := (congrArg State.toValid hsame :).trans hv
  have htxq : t.txq = s.txq := (congrArg State.txq hsame :)
  have hmem : t.mem = s.mem := (congrArg State.mem hsame :)
  have hms : t.toMs = s.toMs := (congrArg State.toMs hsame :)
  by_cases hlate : s.toMs.toNat * 1000 < d.toNat
  · rw [if_pos hlate] at hphase
    have hanswer := following_line u4 [] (.a1 .timedOut) (hcfg ▸ hl) hphase nofun (line_a1_timedOut (s := t.supply u4 []) hphase)
    have hword : responseWord .timedOut 0#32 = 0x100000000#34 := rfl
    have hbefore : t.trace = [.timeNow (s.time + d), .memRead (s.cfg.ioBase + 0x215054#32) 4 w, .timeNow s.time] ++ s.trace :=
      htrace
    refine ⟨_, w, haccept.trans (hrun.trans (hanswer.trans (following_nil _))), hw, ?_⟩
    simp [State.answered, hrxq, hq, htxq, hmem, hvalid, hms, hlife, hlate.not_ge, hword, hbefore]
  · rw [if_neg hlate] at hphase
    obtain ⟨w', hw', hline⟩ := WaitCall.waitForByte.missed_poll (s := t.supply u4 []) hlife hphase hvalid hrxq
    have hpoll := following_line u4 [] (.a0 .w1) (hcfg ▸ hl) hphase nofun hline
    refine ⟨_, w, haccept.trans (hrun.trans hpoll), hw, hrxq.trans hq.symm, htxq, hmem, hvalid, hms, hlife,
      fun h => absurd h hlate, fun _ => ⟨rfl, w', hw', ?_⟩⟩
    exact congrArg₂ (fun (c : Config) r => .memRead (c.addr .lsr) 4 w' :: r) hcfg htrace

/-- Settles O43: the wait of BUF_READ ends in its timeout point, and the answer TIMED_OUT changes nothing else. -/
theorem bufReadTimeoutTouchesNothing : Obligations.BufReadTimeoutTouchesNothing := by
  unfold Obligations.BufReadTimeoutTouchesNothing
  intro s u1 u2 u3 u4 d hl hr hp hq hv hlate
  obtain ⟨t, ⟨hsame, w, hw, htrace⟩, hrun⟩ :=
    WaitCall.bufRead.following_waitedOnce u1 u2 u3 d [.engine u4] hl hr hp hv hq
  rw [if_pos hlate] at hsame
  have hcfg : t.cfg = s.cfg := (congrArg State.cfg hsame :)
  have hphase : t.phase = .q0timeout := (congrArg State.phase hsame :)
  have hanswer := following_line u4 [] .q0timeout (hcfg ▸ hl) hphase nofun (line_q0timeout hphase)
  exact ⟨_, w, hrun.trans hanswer, rfl, congrArg (_ :: ·) htrace, (congrArg State.dst hsame :),
    (congrArg State.rxq hsame :).trans hq, (congrArg State.txq hsame :), (congrArg State.mem hsame :),
    (congrArg State.toValid hsame :).trans hv, (congrArg State.toMs hsame :)⟩

end Sys2Proof.Machine

/-! SUPPORT. The per-byte loops of WRITE_STR and BUF_WRITE with only the engine moving and room for all they send: turn by turn to
the answer. -/

namespace Sys2Proof.Machine

/-! ## The per-byte loops of WRITE_STR and BUF_WRITE -/

/-- The state without what the loops of WRITE_STR and BUF_WRITE change. -/
def State.exceptSend (s : State) : State :=
  { s with phase := .idle, txq := [], idx := 0, byte := 0, v := 0, trace := [], sched := [], undef := 0, freeCount := 0 }

theorem eq_of_exceptSend {s t : State} {p : Phase} {i : Word} {q : List Byte} (h : t.exceptSend = s.exceptSend)
    (hp : t.phase = p) (hi : t.idx = i) (hq : t.txq = q) : t = { s with
      phase := p, idx := i, txq := q, byte := t.byte, v := t.v, trace := t.trace, sched := t.sched, undef := t.undef,
      freeCount := t.freeCount } := by
  subst hp hi hq
  exact congrArg (fun e : State => { e with
    phase := t.phase, txq := t.txq, idx := t.idx, byte := t.byte, v := t.v, trace := t.trace, sched := t.sched,
    undef := t.undef, freeCount := t.freeCount }) h

/-- From `s` to `t` there has been no response. -/
def State.QuietTo (s t : State) : Prop := ∃ r, t.trace = r ++ s.trace ∧ ∀ x ∈ r, x.isResponse = false

theorem State.QuietTo.append {s t u : State} {r : List Transaction} (h : s.QuietTo t) (hu : u.trace = r ++ t.trace)
    (hr : ∀ x ∈ r, x.isResponse = false) : s.QuietTo u := by
  obtain ⟨r', htrace, hquiet⟩ := h
  refine ⟨r ++ r', by rw [hu, htrace, List.append_assoc], fun x hx => ?_⟩
  exact (List.mem_append.mp hx).elim (hr x) (hquiet x)

/-- At the control point `p` of such a loop, `k` bytes into its source buffer, with `out` sent since `s`. -/
structure State.Sending (p : Phase) (out : List Byte) (k : Nat) (s t : State) : Prop where
  same : t.exceptSend = s.exceptSend
  phase : t.phase = p
  index : t.idx.toNat = k
  txq : t.txq = s.txq ++ out
  quiet : s.QuietTo t

/-- From `s` to `t` such an operation has sent `out` and answered OK with `value`. -/
structure State.SentAll (out : List Byte) (value : Word) (s t : State) : Prop where
  whole : t = { s with
    phase := .idle, idx := s.arg, txq := s.txq ++ out, byte := t.byte, v := t.v, trace := t.trace, sched := t.sched,
    undef := t.undef, freeCount := t.freeCount }
  trace : ∃ r, t.trace = .respond (value.setWidth 34) :: (r ++ s.trace) ∧ ∀ x ∈ r, x.isResponse = false

section
variable {s t : State} {p q : Phase} {out : List Byte} {k : Nat} {b b' : Byte}

theorem State.Sending.cfg (h : s.Sending p out k t) : t.cfg = s.cfg := (congrArg State.cfg h.same :)
theorem State.Sending.life (h : s.Sending p out k t) : t.life = s.life := (congrArg State.life h.same :)
theorem State.Sending.arg (h : s.Sending p out k t) : t.arg = s.arg := (congrArg State.arg h.same :)
theorem State.Sending.src (h : s.Sending p out k t) : t.src = s.src := (congrArg State.src h.same :)

/-- A line of the loop that makes no transaction and keeps the index. -/
theorem State.Sending.goto (h : s.Sending p out k t) (u : Word) (rest : List Move) :
    s.Sending q out k ((t.supply u rest).goto q) := by
  obtain ⟨hsame, hphase, hindex, htxq, hquiet⟩ := h
  exact ⟨hsame, rfl, hindex, htxq, hquiet⟩

variable (hl : s.cfg.legal = true)
include hl

theorem State.Sending.reaches_line (h : s.Sending p out k t) (hp : p ≠ .idle) {Q : State → Prop}
    (hQ : ∀ u rest, (t.supply u rest).phase = p → Q (t.supply u rest).line) : t.Reaches 1 Q :=
  Machine.reaches_line (h.cfg ▸ hl) (h.phase ▸ hp) fun u rest => hQ u rest h.phase

/-- The head of the loop with bytes to come. -/
theorem State.Sending.reaches_body (h : s.Sending p out k t) {value : Word → Word} (hp : p ≠ .idle)
    (hline : ∀ {t : State}, t.phase = p → t.line = t.loopStep (value t.arg) q) (hk : k < s.arg.toNat) :
    t.Reaches 1 (s.Sending q out k) := by
  refine h.reaches_line hl hp fun u rest hphase => ?_
  have hne : (t.supply u rest).idx ≠ (t.supply u rest).arg := fun he => by
    have : t.idx = s.arg := he.trans h.arg
    exact hk.ne (h.index.symm.trans (congrArg _ this))
  rw [hline hphase, State.loopStep, if_neg hne]
  exact h.goto u rest

/-- The read of a source byte. -/
theorem State.Sending.reaches_fetched (h : s.Sending p out k t) (hp : p ≠ .idle)
    (hline : ∀ {t : State}, t.phase = p → t.line = t.fetchByte.goto q) (hb : s.src[k]? = some b) :
    t.Reaches 1 fun t' => s.Sending q out k t' ∧ t'.byte = b := by
  refine h.reaches_line hl hp fun u rest hphase => ?_
  rw [hline hphase]
  obtain ⟨hsame, -, hindex, htxq, hquiet⟩ := id h
  refine ⟨⟨hsame, rfl, hindex, htxq, hquiet.append (r := [_]) rfl (by simp [Transaction.isResponse])⟩, ?_⟩
  change sourceByte t.src t.idx u = b
  rw [sourceByte, h.src, hindex, hb, Option.getD_some]

/-- A byte through `tx`. -/
theorem State.Sending.reaches_sent {here : TxPoint → Phase} (h : s.Sending (here .t0) out k t) (hr : s.life = .ready)
    (hc : TxCall t b here q) (hbyte : t.byte = b') (hroom : s.txq.length + out.length < s.cfg.txDepth) :
    t.Reaches 2 fun t' => s.Sending q (out ++ [b]) k t' ∧ t'.byte = b' := by
  obtain ⟨hsame, hphase, hindex, htxq, hquiet⟩ := id h
  have hsent := hc.reaches_sentByte (h.cfg ▸ hl) (h.life.trans hr) hphase (by rw [htxq, h.cfg, List.length_append]; exact hroom)
  refine hsent.bind (m := 0) fun t' ⟨hsame', w, hw, htrace⟩ => reaches_zero ⟨⟨?_, ?_, ?_, ?_, ?_⟩, ?_⟩
  · exact (congrArg State.exceptSend hsame').trans hsame
  · exact (congrArg State.phase hsame' :)
  · exact (congrArg (fun e : State => e.idx.toNat) hsame').trans hindex
  · exact (congrArg State.txq hsame').trans ((congrArg (· ++ [b]) htxq).trans (List.append_assoc _ _ _))
  · exact hquiet.append (r := [_, _]) htrace (by simp [Transaction.isResponse])
  · exact (congrArg State.byte hsame' :).trans hbyte

/-- The end of a turn. -/
theorem State.Sending.reaches_next (h : s.Sending p out k t) (hp : p ≠ .idle)
    (hline : ∀ {t : State}, t.phase = p → t.line = (t.setIdx (t.idx + 1#32)).goto q) (hk : k < s.arg.toNat) :
    t.Reaches 1 (s.Sending q out (k + 1)) := by
  refine h.reaches_line hl hp fun u rest hphase => ?_
  rw [hline hphase]
  obtain ⟨hsame, -, hindex, htxq, hquiet⟩ := h
  have hsucc : (t.idx + 1#32).toNat = k + 1 := hindex ▸ toNat_succ_of_lt (n := s.arg) (hindex ▸ hk)
  exact ⟨hsame, rfl, hsucc, htxq, hquiet⟩

/-- The head of the loop with every byte done: the answer, and the whole state after it. -/
theorem State.Sending.reaches_answered (h : s.Sending p out s.arg.toNat t) {value : Word → Word} (hp : p ≠ .idle)
    (hline : ∀ {t : State}, t.phase = p → t.line = t.loopStep (value t.arg) q) :
    t.Reaches 1 (s.SentAll out (value s.arg)) := by
  refine h.reaches_line hl hp fun u rest hphase => ?_
  obtain ⟨hsame, -, hindex, htxq, r, htrace, hquiet⟩ := id h
  have hidx : t.idx = s.arg := BitVec.eq_of_toNat_eq hindex
  have hdone : (t.supply u rest).idx = (t.supply u rest).arg := hidx.trans h.arg.symm
  rw [hline hphase, State.loopStep, if_pos hdone, State.answered, responseWord_ok]
  refine ⟨eq_of_exceptSend hsame rfl hidx htxq, r, ?_, hquiet⟩
  rw [← htrace, ← h.arg]
  rfl

end

/-! ## BUF_WRITE -/

section
variable {s t : State} {out : List Byte} {k : Nat} {b : Byte}

/-- A turn of BUF_WRITE (R188). -/
theorem State.Sending.reaches_bufTurn (h : s.Sending .y1 out k t) (hl : s.cfg.legal = true) (hr : s.life = .ready)
    (hk : k < s.arg.toNat) (hb : s.src[k]? = some b) (hroom : s.txq.length + out.length < s.cfg.txDepth) :
    t.Reaches 5 (s.Sending .y1 (out ++ [b]) (k + 1)) := by
  have hbody := h.reaches_body hl (value := id) nofun line_y1 hk
  have hfetched := hbody.bind fun t h => h.reaches_fetched hl nofun line_y2 hb
  have hsent : t.Reaches 4 fun t' => s.Sending .y4 (out ++ [b]) k t' ∧ t'.byte = b :=
    hfetched.bind fun t ⟨h, hbyte⟩ => h.reaches_sent hl hr (hbyte ▸ .bufByte) hbyte hroom
  exact hsent.bind fun t ⟨h, _⟩ => h.reaches_next hl nofun line_y4 hk

/-- The turns of BUF_WRITE, from the first head of its loop. -/
theorem State.Sending.reaches_bufTurns (h : s.Sending .y1 [] 0 t) (hl : s.cfg.legal = true) (hr : s.life = .ready)
    (hlen : s.arg.toNat = s.src.length) (hroom : s.txq.length + s.src.length ≤ s.cfg.txDepth) (k : Nat)
    (hk : k ≤ s.src.length) : t.Reaches (5 * k) (s.Sending .y1 (s.src.take k) k) := by
  induction k with
  | zero => exact reaches_zero h
  | succ k ih =>
    refine (ih (by omega)).bind fun t h => ?_
    have hb : s.src[k]? = some s.src[k] := List.getElem?_eq_getElem hk
    rw [List.take_succ_eq_append_getElem hk]
    exact h.reaches_bufTurn hl hr (hlen ▸ hk) hb (by rw [List.length_take]; omega)

end

/-- Settles O46: turn by turn the buffer goes out, and the last head of the loop answers its length. -/
theorem bufWriteCompletes : Obligations.BufWriteCompletes := by
  unfold Obligations.BufWriteCompletes
  intro s us hl hr hp hlen hroom hus
  have hstart : s.Reaches 1 (s.Sending .y1 [] 0) := by
    refine reaches_line hl (hp ▸ nofun) fun u rest => ?_
    rw [line_y0 (s := s.supply u rest) hp]
    exact ⟨rfl, rfl, rfl, (List.append_nil _).symm, [], rfl, by simp⟩
  have hturns := hstart.bind fun t h => h.reaches_bufTurns hl hr hlen hroom s.src.length le_rfl
  rw [List.take_length, ← hlen] at hturns
  have hdone := hturns.bind fun t h => h.reaches_answered hl (value := id) nofun line_y1
  obtain ⟨t, ⟨hwhole, r, htrace, hquiet⟩, hrun⟩ := hdone.alone (us := us) (by omega)
  exact ⟨_, r, hrun, (congrArg State.phase hwhole :), (congrArg State.txq hwhole :), htrace, hquiet,
    congrArg (State.schedule []) hwhole⟩

/-! ## WRITE_STR -/

section
variable {s t : State} {out : List Byte} {k : Nat} {b : Byte}

/-- The sending of one source byte, with a carriage return before a line feed (R183 X3, X4). -/
theorem State.Sending.reaches_normalized (h : s.Sending .x3 out k t) (hbyte : t.byte = b) (hl : s.cfg.legal = true)
    (hr : s.life = .ready) (hroom : s.txq.length + out.length + (normalizeByte b).length ≤ s.cfg.txDepth) :
    t.Reaches (1 + 2 * (normalizeByte b).length) (s.Sending .x5 (out ++ normalizeByte b) k) := by
  have hsent {t : State} {out : List Byte} (h : s.Sending (.x4 .t0) out k t) (hbyte : t.byte = b)
      (hroom : s.txq.length + out.length < s.cfg.txDepth) : t.Reaches 2 (s.Sending .x5 (out ++ [b]) k) :=
    (h.reaches_sent hl hr (hbyte ▸ .strByte) hbyte hroom).mono fun _ h => h.1
  by_cases hlf : b = Config.lineFeed
  · rw [normalizeByte, if_pos hlf] at hroom ⊢
    simp only [List.length_cons, List.length_nil] at hroom
    have htest : t.Reaches 1 fun t' => s.Sending (.x3tx .t0) out k t' ∧ t'.byte = b :=
      h.reaches_line hl nofun fun u rest hp => by
        rw [line_x3 hp, if_pos (by exact hbyte.trans hlf)]
        exact ⟨h.goto u rest, hbyte⟩
    have hreturn : t.Reaches 3 fun t' => s.Sending (.x4 .t0) (out ++ [Config.carriageReturn]) k t' ∧ t'.byte = b :=
      htest.bind fun t ⟨h, hbyte⟩ => h.reaches_sent hl hr .carriageReturn hbyte (by omega)
    have hall : t.Reaches 5 (s.Sending .x5 (out ++ [Config.carriageReturn] ++ [b]) k) :=
      hreturn.bind fun t ⟨h, hbyte⟩ => hsent h hbyte (by rw [List.length_append, List.length_singleton]; omega)
    rwa [List.append_assoc] at hall
  · rw [normalizeByte, if_neg hlf] at hroom ⊢
    have htest : t.Reaches 1 fun t' => s.Sending (.x4 .t0) out k t' ∧ t'.byte = b :=
      h.reaches_line hl nofun fun u rest hp => by
        rw [line_x3 hp, if_neg (by exact fun he => hlf (hbyte.symm.trans he))]
        exact ⟨h.goto u rest, hbyte⟩
    exact htest.bind fun t ⟨h, hbyte⟩ => hsent h hbyte hroom

/-- A turn of WRITE_STR (R183). -/
theorem State.Sending.reaches_strTurn (h : s.Sending .x1 out k t) (hl : s.cfg.legal = true) (hr : s.life = .ready)
    (hk : k < s.arg.toNat) (hb : s.src[k]? = some b)
    (hroom : s.txq.length + out.length + (normalizeByte b).length ≤ s.cfg.txDepth) :
    t.Reaches (2 + (1 + 2 * (normalizeByte b).length) + 1) (s.Sending .x1 (out ++ normalizeByte b) (k + 1)) := by
  have hbody := h.reaches_body hl (value := fun _ => 0#32) nofun line_x1 hk
  have hfetched := hbody.bind fun t h => h.reaches_fetched hl nofun line_x2 hb
  have hsent : t.Reaches (2 + (1 + 2 * (normalizeByte b).length)) (s.Sending .x5 (out ++ normalizeByte b) k) :=
    hfetched.bind fun t ⟨h, hbyte⟩ => h.reaches_normalized hbyte hl hr hroom
  exact hsent.bind fun t h => h.reaches_next hl nofun line_x5 hk

/-- The turns of WRITE_STR, from the first head of its loop. -/
theorem State.Sending.reaches_strTurns (h : s.Sending .x1 [] 0 t) (hl : s.cfg.legal = true) (hr : s.life = .ready)
    (hlen : s.arg.toNat = s.src.length) (hroom : s.txq.length + (normalize s.src).length ≤ s.cfg.txDepth) (k : Nat)
    (hk : k ≤ s.src.length) :
    t.Reaches (4 * k + 2 * (normalize (s.src.take k)).length) (s.Sending .x1 (normalize (s.src.take k)) k) := by
  induction k with
  | zero => exact reaches_zero h
  | succ k ih =>
    have hb : s.src[k]? = some s.src[k] := List.getElem?_eq_getElem hk
    have hout := normalize_take_succ hb
    have hle : (normalize (s.src.take (k + 1))).length ≤ (normalize s.src).length :=
      ((List.take_sublist _ _).flatMap normalizeByte).length_le
    rw [hout, List.length_append] at hle ⊢
    have hrun := (ih (by omega)).bind fun t h => h.reaches_strTurn hl hr (hlen ▸ hk) hb (by omega)
    refine hrun.steps ?_
    omega

end

/-- Settles O40: turn by turn the normalized text goes out, and the last head of the loop answers. -/
theorem writeStrCompletes : Obligations.WriteStrCompletes := by
  unfold Obligations.WriteStrCompletes
  intro s us hl hr hp hlen hroom hus
  have hstart : s.Reaches 1 (s.Sending .x1 [] 0) := by
    refine reaches_line hl (hp ▸ nofun) fun u rest => ?_
    rw [line_x0 (s := s.supply u rest) hp]
    exact ⟨rfl, rfl, rfl, (List.append_nil _).symm, [], rfl, by simp⟩
  have hturns := hstart.bind fun t h => h.reaches_strTurns hl hr hlen hroom s.src.length le_rfl
  rw [List.take_length, ← hlen] at hturns
  have hdone := hturns.bind fun t h => h.reaches_answered hl (value := fun _ => 0#32) nofun line_x1
  obtain ⟨t, ⟨hwhole, r, htrace, hquiet⟩, hrun⟩ := hdone.alone (us := us) (by omega)
  exact ⟨_, r, hrun, (congrArg State.phase hwhole :), (congrArg State.txq hwhole :), htrace, hquiet,
    congrArg (State.schedule []) hwhole⟩

end Sys2Proof.Machine

/-! SUPPORT. The loop of BUF_READ with only the engine moving: the waiting bytes, its transactions and its two ends. -/

namespace Sys2Proof.Machine

/-! ## The loop of BUF_READ -/

/-- The state without what BUF_READ changes. -/
def State.exceptReceive (s : State) : State :=
  { s with phase := .idle, rxq := [], dst := [], t0 := 0, idx := 0, byte := 0, v := 0, trace := [], sched := [], undef := 0,
           freeCount := 0 }

/-- Between `s` and `t` the transactions, newest first, have been requests `asked`, and no response. -/
def State.Asked (asked : List Transaction) (s t : State) : Prop :=
  ∃ r, t.trace = r ++ s.trace ∧ (∀ x ∈ r, x.isResponse = false) ∧ r.map Transaction.request = asked

theorem State.Asked.append {s t u : State} {asked r : List Transaction} (h : s.Asked asked t) (hu : u.trace = r ++ t.trace)
    (hr : ∀ x ∈ r, x.isResponse = false) : s.Asked (r.map Transaction.request ++ asked) u := by
  obtain ⟨r', htrace, hquiet, hasked⟩ := h
  refine ⟨r ++ r', by rw [hu, htrace, List.append_assoc], fun x hx => ?_, by rw [List.map_append, hasked]⟩
  exact (List.mem_append.mp hx).elim (hr x) (hquiet x)

/-- At the control point `p` of BUF_READ, at slot `k`, with the receive FIFO `waiting` and the buffer `stored`. -/
structure State.Draining (p : Phase) (k : Nat) (waiting stored : List Byte) (asked : List Transaction) (s t : State) :
    Prop where
  same : t.exceptReceive = s.exceptReceive
  phase : t.phase = p
  index : t.idx.toNat = k
  rxq : t.rxq = waiting
  dst : t.dst = stored
  asked : s.Asked asked t

/-- From `s` to `t` BUF_READ has stored `count` bytes and answered OK. -/
structure State.Drained (count : Nat) (waiting stored : List Byte) (asked : List Transaction) (s t : State) : Prop where
  same : t.exceptReceive = s.exceptReceive
  rxq : t.rxq = waiting
  dst : t.dst = stored
  phase : t.phase = .idle
  trace : ∃ r, t.trace = .respond (BitVec.ofNat 34 count) :: (r ++ s.trace) ∧ (∀ x ∈ r, x.isResponse = false) ∧
    r.map Transaction.request = asked

/-- The request of a read of LSR. -/
def State.lsrRequest (s : State) : Transaction := .memRead (s.cfg.addr .lsr) 4 0

/-- The requests of the turn of BUF_READ for the slot `k`, newest first (R186). -/
def State.turnRequests (s : State) (k : Nat) : List Transaction :=
  [.dstWrite (BitVec.ofNat 32 k) (s.rxq.getD k 0), .memRead (s.cfg.addr .io) 4 0, s.lsrRequest, s.lsrRequest]

section
variable {s t : State} {p q : Phase} {k : Nat} {b : Byte} {waiting stored : List Byte} {asked : List Transaction}

theorem State.Draining.cfg (h : s.Draining p k waiting stored asked t) : t.cfg = s.cfg := (congrArg State.cfg h.same :)
theorem State.Draining.life (h : s.Draining p k waiting stored asked t) : t.life = s.life := (congrArg State.life h.same :)
theorem State.Draining.arg (h : s.Draining p k waiting stored asked t) : t.arg = s.arg := (congrArg State.arg h.same :)

/-- An answer of the index is the number of bytes stored. -/
theorem State.Draining.drained (h : s.Draining p k waiting stored asked t) :
    s.Drained k waiting stored asked (t.answered .ok t.idx) := by
  obtain ⟨hsame, -, hindex, hrxq, hdst, r, htrace, hquiet, hasked⟩ := h
  refine ⟨hsame, hrxq, hdst, rfl, r, ?_, hquiet, hasked⟩
  rw [State.answered, responseWord_ok, ← BitVec.ofNat_toNat, hindex, ← htrace]
  rfl

theorem State.Draining.supply (h : s.Draining p k waiting stored asked t) (u : Word) (rest : List Move) :
    s.Draining p k waiting stored asked (t.supply u rest) := by
  obtain ⟨hsame, hphase, hindex, hrxq, hdst, hasked⟩ := h
  exact ⟨hsame, hphase, hindex, hrxq, hdst, hasked⟩

theorem State.Draining.goto (h : s.Draining p k waiting stored asked t) : s.Draining q k waiting stored asked (t.goto q) := by
  obtain ⟨hsame, -, hindex, hrxq, hdst, hasked⟩ := h
  exact ⟨hsame, rfl, hindex, hrxq, hdst, hasked⟩

/-- A read of LSR adds its request. -/
theorem State.Draining.polled (h : s.Draining p k waiting stored asked t) :
    s.Draining q k waiting stored (s.lsrRequest :: asked) (t.readLsr.goto q) := by
  have hlsr : .memRead (t.cfg.addr .lsr) 4 0 = s.lsrRequest := by rw [h.cfg]; rfl
  obtain ⟨hsame, -, hindex, hrxq, hdst, hasked⟩ := h
  have hmore := hasked.append (u := t.readLsr) (r := [_]) rfl (by simp [Transaction.isResponse])
  rw [List.map_singleton, Transaction.request, hlsr] at hmore
  exact ⟨hsame, rfl, hindex, hrxq, hdst, hmore⟩

variable (hl : s.cfg.legal = true)
include hl

theorem State.Draining.reaches_line (h : s.Draining p k waiting stored asked t) (hp : p ≠ .idle) {Q : State → Prop}
    (hQ : ∀ t, s.Draining p k waiting stored asked t → Q t.line) : t.Reaches 1 Q :=
  Machine.reaches_line (h.cfg ▸ hl) (h.phase ▸ hp) fun u rest => hQ _ (h.supply u rest)

/-- The head of the loop with slots to come. -/
theorem State.Draining.reaches_q3 (h : s.Draining .q2 k waiting stored asked t) (hk : k < s.arg.toNat) :
    t.Reaches 1 (s.Draining .q3 k waiting stored asked) := by
  refine h.reaches_line hl nofun fun t h => ?_
  have hne : t.idx ≠ t.arg := fun he => hk.ne (h.index.symm.trans (congrArg _ (he.trans h.arg)))
  rw [line_q2 h.phase, State.loopStep, if_neg hne]
  exact h.goto

/-- The poll before a byte is taken (R185 Q3). -/
theorem State.Draining.reaches_q4 (hr : s.life = .ready) (h : s.Draining .q3 k waiting stored asked t) (hne : waiting ≠ []) :
    t.Reaches 1 (s.Draining (.q4 .rx0) k waiting stored (s.lsrRequest :: asked)) := by
  refine h.reaches_line hl nofun fun t h => ?_
  have hready : t.dataReady = true := (dataReady_iff (h.life.trans hr)).mpr (h.rxq ▸ hne)
  rw [line_q3 h.phase, if_pos hready]
  exact h.polled

/-- The poll that ends the loop before the buffer is full (R185 Q3). -/
theorem State.Draining.reaches_q3done (hr : s.life = .ready) (h : s.Draining .q3 k [] stored asked t) :
    t.Reaches 1 (s.Draining .q3done k [] stored (s.lsrRequest :: asked)) := by
  refine h.reaches_line hl nofun fun t h => ?_
  have hready : t.dataReady = false := dataReady_empty (h.life.trans hr) h.rxq
  rw [line_q3 h.phase, hready]
  exact h.polled

/-- A byte through `rx`. -/
theorem State.Draining.reaches_q5 (hr : s.life = .ready) (h : s.Draining (.q4 .rx0) k (b :: waiting) stored asked t) :
    t.Reaches 2 fun t' => s.Draining .q5 k waiting stored (.memRead (s.cfg.addr .io) 4 0 :: s.lsrRequest :: asked) t' ∧
      t'.byte = b := by
  obtain ⟨hsame, hphase, hindex, hrxq, hdst, hasked⟩ := id h
  refine (RxCall.bufRead.reaches_receivedByte (h.cfg ▸ hl) (h.life.trans hr) hphase hrxq).mono
    fun t' ⟨hsame', w, w', hw, hw', htrace⟩ => ⟨⟨?_, ?_, ?_, ?_, ?_, ?_⟩, (congrArg State.byte hsame' :)⟩
  · exact (congrArg State.exceptReceive hsame').trans hsame
  · exact (congrArg State.phase hsame' :)
  · exact (congrArg (fun e : State => e.idx.toNat) hsame').trans hindex
  · exact (congrArg State.rxq hsame' :)
  · exact (congrArg State.dst hsame').trans hdst
  · have hmore := hasked.append (r := [_, _]) htrace (by simp [Transaction.isResponse])
    rwa [h.cfg] at hmore

/-- The store of the byte taken (R185 Q5). -/
theorem State.Draining.reaches_q6 (h : s.Draining .q5 k waiting stored asked t) (hbyte : t.byte = b) :
    t.Reaches 1 (s.Draining .q6 k waiting (stored.set k b) (.dstWrite (BitVec.ofNat 32 k) b :: asked)) := by
  refine Machine.reaches_line (h.cfg ▸ hl) (h.phase ▸ nofun) fun u rest => ?_
  obtain ⟨hsame, hphase, hindex, hrxq, hdst, hasked⟩ := h
  subst hindex hbyte hdst
  have hmore := hasked.append (u := t.storeByte) (r := [_]) rfl (by simp [Transaction.isResponse])
  rw [line_q5 (s := t.supply u rest) hphase, BitVec.ofNat_toNat, BitVec.setWidth_eq]
  exact ⟨hsame, rfl, rfl, hrxq, rfl, hmore⟩

/-- The end of a turn. -/
theorem State.Draining.reaches_q2 (h : s.Draining .q6 k waiting stored asked t) (hk : k < s.arg.toNat) :
    t.Reaches 1 (s.Draining .q2 (k + 1) waiting stored asked) := by
  refine h.reaches_line hl nofun fun t h => ?_
  rw [line_q6 h.phase]
  obtain ⟨hsame, -, hindex, hrxq, hdst, hasked⟩ := h
  have hsucc : (t.idx + 1#32).toNat = k + 1 := hindex ▸ toNat_succ_of_lt (n := s.arg) (hindex ▸ hk)
  exact ⟨hsame, rfl, hsucc, hrxq, hdst, hasked⟩

/-- The end of BUF_READ with its buffer full. -/
theorem State.Draining.reaches_full (h : s.Draining .q2 s.arg.toNat waiting stored asked t) :
    t.Reaches 1 (s.Drained s.arg.toNat waiting stored asked) := by
  refine h.reaches_line hl nofun fun t h => ?_
  have hdone : t.idx = t.arg := (BitVec.eq_of_toNat_eq h.index).trans h.arg.symm
  rw [line_q2 h.phase, State.loopStep, if_pos hdone]
  exact h.drained

/-- A turn of BUF_READ with a byte waiting. -/
theorem State.Draining.reaches_turn (hr : s.life = .ready) (h : s.Draining .q2 k (b :: waiting) stored asked t)
    (hk : k < s.arg.toNat) (hb : s.rxq[k]? = some b) :
    t.Reaches 6 (s.Draining .q2 (k + 1) waiting (stored.set k b) (s.turnRequests k ++ asked)) := by
  have hturn : s.turnRequests k =
      [.dstWrite (BitVec.ofNat 32 k) b, .memRead (s.cfg.addr .io) 4 0, s.lsrRequest, s.lsrRequest] := by
    rw [State.turnRequests, List.getD_eq_getElem?_getD, hb, Option.getD_some]
  rw [hturn]
  have hpolled := (h.reaches_q3 hl hk).bind fun t h => h.reaches_q4 hl hr (List.cons_ne_nil b waiting)
  have hread := hpolled.bind fun t h => h.reaches_q5 hl hr
  have hstored : t.Reaches 5 (s.Draining .q6 k waiting (stored.set k b)
      (.dstWrite (BitVec.ofNat 32 k) b :: .memRead (s.cfg.addr .io) 4 0 :: s.lsrRequest :: s.lsrRequest :: asked)) :=
    hread.bind fun t ⟨h, hbyte⟩ => h.reaches_q6 hl hbyte
  exact hstored.bind fun t h => h.reaches_q2 hl hk

end

/-- The requests of the wait of BUF_READ that sees a byte at once, and of `k` turns, newest first (R186). -/
def State.drainRequests (s : State) (k : Nat) : List Transaction :=
  (List.range k).reverse.flatMap s.turnRequests ++ [s.lsrRequest, .timeNow 0]

theorem drainRequests_succ (s : State) (k : Nat) : s.drainRequests (k + 1) = s.turnRequests k ++ s.drainRequests k := by
  simp only [State.drainRequests, List.range_succ, List.reverse_append, List.reverse_singleton, List.singleton_append,
    List.flatMap_cons, List.append_assoc]

/-- The buffer with one more of the bytes stored. -/
theorem take_append_drop_set {new old : List Byte} {k : Nat} (hnew : k < new.length) (hold : k < old.length) :
    (new.take k ++ old.drop k).set k new[k] = new.take (k + 1) ++ old.drop (k + 1) := by
  have hlen : (new.take k).length = k := by rw [List.length_take]; omega
  rw [List.set_append_right k _ (by omega), hlen, Nat.sub_self, List.drop_eq_getElem_cons hold, List.set_cons_zero,
    List.take_succ_eq_append_getElem hnew, List.append_assoc, List.singleton_append]

section
variable {s : State} (hl : s.cfg.legal = true) (hr : s.life = .ready)
include hl hr

/-- The start of BUF_READ with a byte waiting (R185 Q0, Q1). -/
theorem reaches_draining (hp : s.phase = .q0 .w0) (hq : s.rxq ≠ []) :
    s.Reaches 3 (s.Draining .q2 0 s.rxq s.dst (s.drainRequests 0)) := by
  refine ((WaitCall.bufRead.reaches_w1 hl hp).bind (m := 2) fun t ⟨hsame, htrace⟩ => ?_)
  have hcfg : t.cfg = s.cfg := (congrArg State.cfg hsame :)
  have hphase : t.phase = .q0 .w1 := (congrArg State.phase hsame :)
  refine reaches_cons (hcfg ▸ hl) (hphase ▸ nofun) fun u rest => ?_
  obtain ⟨w, hw, hline⟩ := WaitCall.bufRead.seen_poll (s := t.supply u rest) ((congrArg State.life hsame :).trans hr) hphase
    ((congrArg State.rxq hsame :).trans_ne hq)
  rw [hline]
  refine reaches_line (by exact hcfg ▸ hl) nofun fun u' rest' => ?_
  rw [line_q1 rfl]
  refine ⟨(congrArg State.exceptReceive hsame :), rfl, rfl, (congrArg State.rxq hsame :), (congrArg State.dst hsame :),
    [.memRead (t.cfg.addr .lsr) 4 w, .timeNow s.time], congrArg (_ :: ·) htrace, by simp [Transaction.isResponse], ?_⟩
  rw [hcfg]
  rfl

/-- The turns of BUF_READ. -/
theorem reaches_turns (hp : s.phase = .q0 .w0) (hq : s.rxq ≠ []) (hlen : s.arg.toNat = s.dst.length) (k : Nat)
    (hk : k ≤ min s.arg.toNat s.rxq.length) :
    s.Reaches (3 + 6 * k) (s.Draining .q2 k (s.rxq.drop k) (s.rxq.take k ++ s.dst.drop k) (s.drainRequests k)) := by
  induction k with
  | zero => exact reaches_draining hl hr hp hq
  | succ k ih =>
    have hrxq : k < s.rxq.length := by omega
    rw [← take_append_drop_set hrxq (by omega), drainRequests_succ]
    refine (ih (by omega)).bind (m := 6) fun t h => ?_
    rw [List.drop_eq_getElem_cons hrxq] at h
    exact h.reaches_turn hl hr (by omega) (List.getElem?_eq_getElem hrxq)

/-- The end of BUF_READ with no more byte waiting. -/
theorem State.Draining.reaches_emptied {k : Nat} {stored : List Byte} {asked : List Transaction} {t : State}
    (h : s.Draining .q2 k [] stored asked t) (hk : k < s.arg.toNat) :
    t.Reaches 3 (s.Drained k [] stored (s.lsrRequest :: asked)) := by
  have hpolled := (h.reaches_q3 hl hk).bind fun t h => h.reaches_q3done hl hr
  exact hpolled.bind fun t h => h.reaches_line hl nofun fun t h => by
    rw [line_q3done h.phase]
    exact h.drained

end

/-- Settles O42: the wait sees a byte at once, the turns take the waiting bytes, and the loop ends at whichever of the buffer's
end and the FIFO's end comes first. -/
theorem bufReadDrainsReadyBytes : Obligations.BufReadDrainsReadyBytes := by
  unfold Obligations.BufReadDrainsReadyBytes
  intro s us count hl hr hp hq hlen hcount hus
  have hturns := reaches_turns hl hr hp hq hlen count hcount.le
  have hdrained : s.Reaches us.length (s.Drained count (s.rxq.drop count) (s.rxq.take count ++ s.dst.drop count)
      ((if count = s.arg.toNat then [] else [s.lsrRequest]) ++ s.drainRequests count)) := by
    by_cases hfull : count = s.arg.toNat
    · rw [hus, if_pos hfull, if_pos hfull]
      subst hfull
      exact hturns.bind fun t h => h.reaches_full hl
    · have hall : count = s.rxq.length := by omega
      rw [hus, if_neg hfull, if_neg hfull]
      rw [hall, List.drop_length, ← hall] at hturns ⊢
      exact hturns.bind fun t h => h.reaches_emptied hl hr (by omega)
  obtain ⟨t, ⟨hsame, hrxq, hdst, hphase, r, htrace, hquiet, hasked⟩, hrun⟩ := hdrained.alone rfl
  rw [State.drainRequests, ← List.append_assoc] at hasked
  exact ⟨_, r, hrun, hphase, hdst, hrxq, htrace, hquiet, hasked, (congrArg State.txq hsame :), (congrArg State.mem hsame :),
    (congrArg State.toValid hsame :), (congrArg State.toMs hsame :)⟩

end Sys2Proof.Machine

/-! SUPPORT. BUF_WRITE under any interleaving (R188, R189): at each of its control points the bus writes made so far are the ones
of the bytes that the control point and `E.IDX` count, and every step keeps that. -/

namespace Sys2Proof.Machine

/-! ## The bytes BUF_WRITE has sent at each control point -/

/-- `s` is at a control point of BUF_WRITE that has sent the first `k` bytes of its source buffer (R188). -/
inductive State.BufPoint (s : State) : Nat → Prop
  | start (hp : s.phase = .y0) : BufPoint s 0
  | head (hp : s.phase = .y1) (hi : s.idx.toNat ≤ s.src.length) : BufPoint s s.idx.toNat
  | fetch (hp : s.phase = .y2) (hi : s.idx.toNat < s.src.length) : BufPoint s s.idx.toNat
  | byte {p : TxPoint} (hp : s.phase = .y3 p) (hb : s.src[s.idx.toNat]? = some s.byte) : BufPoint s s.idx.toNat
  | next (hp : s.phase = .y4) (hi : s.idx.toNat < s.src.length) : BufPoint s (s.idx.toNat + 1)

theorem State.BufPoint.busy {s : State} {k : Nat} (h : s.BufPoint k) : s.phase ≠ .idle := by
  cases h <;> simp [*]

/-- The number of bytes sent depends on nothing but the control point and the operands. -/
theorem State.BufPoint.of_same {s t : State} {k : Nat} (h : s.BufPoint k) (hp : t.phase = s.phase) (hsrc : t.src = s.src)
    (hidx : t.idx = s.idx) (hbyte : t.byte = s.byte) : t.BufPoint k := by
  cases h with
  | start h => exact .start (hp.trans h)
  | head h hi => rw [← hidx]; exact .head (hp.trans h) (by rwa [hidx, hsrc])
  | fetch h hi => rw [← hidx]; exact .fetch (hp.trans h) (by rwa [hidx, hsrc])
  | byte h hb => rw [← hidx]; exact .byte (hp.trans h) (by rwa [hidx, hsrc, hbyte])
  | next h hi => rw [← hidx]; exact .next (hp.trans h) (by rwa [hidx, hsrc])

/-- A line of BUF_WRITE goes on to a control point whose bytes are sent, or gives the answer with all of them sent. -/
theorem line_bufPoint {s : State} {base : List Transaction} {k : Nat} (hlen : s.arg.toNat = s.src.length)
    (h : s.BufPoint k) (hsent : s.Sent base (s.src.take k)) :
    (∃ k', s.line.BufPoint k' ∧ s.line.Sent base (s.src.take k')) ∨
      (s.line = s.answered .ok s.arg ∧ k = s.src.length) := by
  cases h with
  | start hp =>
    rw [line_y0 hp]
    exact .inl ⟨0, .head rfl (Nat.zero_le _), hsent.of_same rfl rfl⟩
  | head hp hi =>
    rw [line_y1 hp, State.loopStep]
    split
    next hdone => exact .inr ⟨rfl, (congrArg BitVec.toNat hdone).trans hlen⟩
    next hmore =>
      have hlt : s.idx.toNat < s.src.length := hlen ▸ toNat_lt_of_ne (hlen ▸ hi) hmore
      exact .inl ⟨_, .fetch rfl hlt, hsent.of_same rfl rfl⟩
  | fetch hp hi =>
    rw [line_y2 hp]
    exact .inl ⟨_, .byte rfl (sourceByte_getElem? hi s.undef), hsent.of_quiet rfl rfl rfl rfl⟩
  | @byte p hp hb =>
    rw [line_y3 hp]
    cases p with
    | t0 =>
      obtain ⟨q, hq⟩ := txStep_poll s s.byte .y3 .y4
      rw [hq]
      exact .inl ⟨_, .byte rfl hb, hsent.readLsr.of_same rfl rfl⟩
    | t1 =>
      obtain ⟨hlt, hget⟩ := List.getElem?_eq_some_iff.mp hb
      have hwritten := hsent.writeIo s.byte
      rw [← hget, ← List.take_succ_eq_append_getElem hlt] at hwritten
      rw [State.txStep, ← hget]
      exact .inl ⟨_, .next rfl hlt, hwritten.of_same rfl rfl⟩
  | next hp hi =>
    rw [line_y4 hp]
    have hidx : (s.idx + 1#32).toNat = s.idx.toNat + 1 := toNat_succ_of_lt (hi.trans_eq hlen.symm)
    rw [← hidx] at hsent
    exact .inl ⟨_, .head rfl (hidx.trans_le hi), hsent.of_same rfl rfl⟩

/-! ## Every step of every agent -/

/-- BUF_WRITE of `src`, with its length `n` latched, is running, from the trace `base` on. -/
structure State.SendsBuf (c : Config) (src : List Byte) (n : Word) (base : List Transaction) (s : State) : Prop where
  cfg : s.cfg = c
  source : s.src = src
  arg : s.arg = n
  length : n.toNat = src.length
  sched : ∀ m ∈ s.sched, keepsSource m = true
  progress : ∃ k, s.BufPoint k ∧ s.Sent base (src.take k)

/-- Since the trace `base` the first answer has been `w`: before it stand the IO writes of `text`. -/
def State.SentAndAnswered (c : Config) (text : List Byte) (w : ResponseWord) (base : List Transaction) (s : State) : Prop :=
  ∃ r, .respond w :: (r ++ base) <:+ s.trace ∧ (∀ x ∈ r, x.isResponse = false) ∧ busWrites r = ioWrites c text

section
variable {c : Config} {src text : List Byte} {base : List Transaction} {s t : State} {w : ResponseWord}

theorem State.Sent.sentAndAnswered {st : Status} {value : Word} (h : s.Sent base text) :
    (s.answered st value).SentAndAnswered s.cfg text (responseWord st value) base := by
  obtain ⟨r, hr, hquiet, hwrites⟩ := h
  refine ⟨r, ?_, hquiet, hwrites⟩
  rw [← hr]
  exact List.suffix_rfl

theorem step_sentAndAnswered (h : s.SentAndAnswered c text w base) (hs : step s = .next t) :
    t.SentAndAnswered c text w base := by
  obtain ⟨r, hr, hquiet, hwrites⟩ := h
  exact ⟨r, hr.trans (step_trace_suffix hs), hquiet, hwrites⟩

/-- The first answer since `base` is the one that has been given. -/
theorem State.SentAndAnswered.first_answer {r : List Transaction} {w' : ResponseWord} (h : s.SentAndAnswered c text w base)
    (ht : s.trace = .respond w' :: (r ++ base)) (hr : ∀ x ∈ r, x.isResponse = false) :
    w' = w ∧ busWrites r = ioWrites c text := by
  obtain ⟨q, ⟨later, hlater⟩, _, hwrites⟩ := h
  rw [ht, ← List.cons_append, ← List.cons_append, ← List.append_assoc] at hlater
  have heq := List.append_cancel_right hlater
  cases later with
  | nil =>
    obtain ⟨hw, rfl⟩ := List.cons.inj heq
    exact ⟨(Transaction.respond.inj hw).symm, hwrites⟩
  | cons x later =>
    obtain ⟨_, rfl⟩ := List.cons.inj heq
    have hmem := hr (.respond w) (by simp)
    cases hmem

end

section
variable {c : Config} {src : List Byte} {base : List Transaction} {s t : State} {n : Word}

theorem line_sendsBuf (h : s.SendsBuf c src n base) :
    s.line.SendsBuf c src n base ∨ s.line.SentAndAnswered c src (responseWord .ok n) base := by
  obtain ⟨rfl, rfl, rfl, hlen, hsched, k, hpoint, hsent⟩ := h
  rcases line_bufPoint hlen hpoint hsent with hprogress | ⟨hline, rfl⟩
  · exact .inl ⟨line_cfg s, line_src s, line_arg s, hlen, by rwa [line_sched], hprogress⟩
  · rw [List.take_length] at hsent
    rw [hline]
    exact .inr hsent.sentAndAnswered

theorem step_sendsBuf (h : s.SendsBuf c src n base) (hs : step s = .next t) :
    t.SendsBuf c src n base ∨ t.SentAndAnswered c src (responseWord .ok n) base := by
  obtain ⟨hcfg, hsrc, harg, hlen, hsched, k, hpoint, hsent⟩ := h
  obtain ⟨_, ⟨_, _, hp, _⟩ | ⟨_, _, _, _, _, hp, _⟩ | ⟨e, he, _, rfl⟩ | ⟨m, rest, _, hrest, hm⟩⟩ := step_next hs
  · exact absurd hp hpoint.busy
  · exact absurd hp hpoint.busy
  · obtain ⟨u, rfl⟩ := engineTurn_supply_tail he
    have hkeep : ∀ m ∈ s.sched.tail, keepsSource m = true := fun m hm => hsched m (List.mem_of_mem_tail hm)
    exact line_sendsBuf
      ⟨hcfg, hsrc, harg, hlen, hkeep, k, hpoint.of_same rfl rfl rfl rfl, hsent.of_same rfl rfl⟩
  · rw [hrest, List.forall_mem_cons] at hsched
    obtain ⟨hphase, hsrc', harg', hidx, hbyte, hsched'⟩ := envMove_operands hm hsched.1
    have hcfg' := envMove_cfg hm
    have htrace := envMove_trace hm
    exact .inl ⟨hcfg'.trans hcfg, hsrc'.trans hsrc, harg'.trans harg, hlen, by rw [hsched']; exact hsched.2, k,
      hpoint.of_same hphase hsrc' hidx hbyte, hsent.of_same htrace hcfg'⟩

end

/-- Settles O45: what `SendsBuf` says holds at Y0 and is kept until the answer, and the answer stays. -/
theorem bufWriteSendsEveryByte : Obligations.BufWriteSendsEveryByte := by
  unfold Obligations.BufWriteSendsEveryByte
  intro s t k r w _ hp hlen hsched hrun ht hr
  have hstart : s.SendsBuf s.cfg s.src s.arg s.trace := ⟨rfl, rfl, rfl, hlen, hsched, 0, .start hp, sent_nil s⟩
  have hstep : ∀ a b : State,
      a.SendsBuf s.cfg s.src s.arg s.trace ∨ a.SentAndAnswered s.cfg s.src (responseWord .ok s.arg) s.trace →
      step a = .next b →
      b.SendsBuf s.cfg s.src s.arg s.trace ∨ b.SentAndAnswered s.cfg s.src (responseWord .ok s.arg) s.trace :=
    fun a b h hs => h.elim (fun h => step_sendsBuf h hs) (fun h => .inr (step_sentAndAnswered h hs))
  rcases run_keeps hstep k s t (.inl hstart) hrun with h | h
  · obtain ⟨_, _, hsent⟩ := h.progress
    exact absurd ht hsent.not_answered
  · obtain ⟨hw, hwrites⟩ := h.first_answer ht hr
    exact ⟨hwrites, hw.trans (responseWord_ok s.arg)⟩

end Sys2Proof.Machine

/-! SUPPORT. What the machine reads of its latches, control point by control point, and that nothing else of them makes a
difference (U7, R232). -/

namespace Sys2Proof.Machine

/-! ## The latches a control point reads -/

/-- E.BYTE is read from here on (R164, R183, R185, R188). -/
def Phase.readsByte : Phase → Bool
  | .x3 | .x3tx _ | .x4 _ | .y3 _ | .d1 | .q5 => true
  | _ => false

/-- E.V is read here (R130, R154). -/
def Phase.readsV : Phase → Bool
  | .i1 | .h1 => true
  | _ => false

/-- E.T0 is read from here on (R158). -/
def Phase.readsStart : Phase → Bool
  | .a0 .w1 | .a0 .w2 | .q0 .w1 | .q0 .w2 => true
  | _ => false

/-- E.IDX is read from here on (R183, R185, R188). -/
def Phase.readsIdx (p : Phase) : Bool := p.atLoopHead || p.inLoopBody

/-- The latched command is read from here on (R22). -/
def Phase.readsCommand : Phase → Bool
  | .idle => false
  | _ => true

/-- `s` with every latch blanked that nothing reads, from its control point on, before writing it: E.TO_MS when no timeout is
present, E.OPC and E.NOW always. -/
def State.observed (s : State) : State :=
  { s with
    toMs := bif s.toValid || s.phase.atDeadline then s.toMs else 0
    opc := 0
    flags := bif s.phase.readsCommand then s.flags else 0
    arg := bif s.phase.readsCommand then s.arg else 0
    byte := bif s.phase.readsByte then s.byte else 0
    v := bif s.phase.readsV then s.v else 0
    t0 := bif s.phase.readsStart then s.t0 else 0
    now := 0
    idx := bif s.phase.readsIdx then s.idx else 0 }

/-- The latches of `s`. -/
def State.latches (s : State) : Latches :=
  { toMs := s.toMs, opc := s.opc, flags := s.flags, arg := s.arg, byte := s.byte, v := s.v, t0 := s.t0, now := s.now,
    idx := s.idx }

theorem eq_withLatches_of_observed {s t : State} (h : t.observed = s.observed) : t = s.withLatches t.latches :=
  show t.observed.withLatches t.latches = s.observed.withLatches t.latches from congrArg _ h

/-- At IDLE with no timeout present no latch is read. -/
theorem withLatches_observed {s : State} {l : Latches} (hp : s.phase = .idle) (hv : s.toValid = false) :
    (s.withLatches l).observed = s.observed := by
  simp [State.observed, State.withLatches, hp, hv, Phase.readsCommand, Phase.readsByte, Phase.readsV, Phase.readsStart,
    Phase.readsIdx, Phase.atDeadline, Phase.atLoopHead, Phase.inLoopBody]

theorem bif_same {α : Type} (c : Bool) (x y : α) : (bif c then (bif c then x else y) else y) = bif c then x else y := by
  cases c <;> rfl

theorem observed_observed (s : State) : s.observed.observed = s.observed := by
  simp only [State.observed, bif_same]

/-! A line that branches, in two states in which it takes the same branch. -/

section
variable {s t s' t' : State} {c : Prop} [Decidable c] {p q : Phase}

theorem goto_ite_observed (hp : (s.goto p).observed = (t.goto p).observed) (hq : (s.goto q).observed = (t.goto q).observed) :
    (s.goto (if c then p else q)).observed = (t.goto (if c then p else q)).observed := by
  split
  · exact hp
  · exact hq

theorem ite_observed (h : s.observed = t.observed) (h' : s'.observed = t'.observed) :
    (if c then s else s').observed = (if c then t else t').observed := by
  split
  · exact h
  · exact h'

end

/-- A line reads what is observed only. -/
theorem line_observed (s : State) : s.observed.line.observed = s.line.observed := by
  obtain ⟨cfg, life, toValid, toMs, opc, flags, arg, byte, v, t0, now, idx, phase, cmds, src, dst, mem, txq, rxq, lineOut,
    pin14, pin15, time, sched, undef, freeCount, trace⟩ := s
  cases phase with
  | x1 | q2 | y1 => cases toValid <;> exact ite_observed rfl rfl
  | x3 | q3 => cases toValid <;> exact goto_ite_observed rfl rfl
  | b0 p | x3tx p | x4 p | y3 p =>
    cases p with
    | t0 => cases toValid <;> exact goto_ite_observed rfl rfl
    | t1 => cases toValid <;> rfl
  | d0 p | q4 p =>
    cases p with
    | rx0 => cases toValid <;> exact goto_ite_observed rfl rfl
    | rx1 => cases toValid <;> rfl
  | a0 p | q0 p =>
    cases p with
    | w0 => cases toValid <;> rfl
    | w1 | w2 => cases toValid <;> exact goto_ite_observed rfl rfl
  | a1 r => cases r <;> cases toValid <;> rfl
  | _ => cases toValid <;> rfl

/-! ## The latches that nothing reads make no difference -/

/-- An answer with what is observed of its next state. -/
def observedResult : Result → Result
  | .next t => .next t.observed
  | .fault r => .fault r
  | .refused r => .refused r

/-- An accepted command starts with no latch to be read but its own fields and the timeout. -/
theorem latch_observed (i : Instr) (s : State) :
    (s.observed.latch i (firstLabel i)).observed = (s.latch i (firstLabel i)).observed := by
  obtain ⟨cfg, life, toValid, toMs, opc, flags, arg, byte, v, t0, now, idx, phase, cmds, src, dst, mem, txq, rxq, lineOut,
    pin14, pin15, time, sched, undef, freeCount, trace⟩ := s
  cases i <;> cases toValid <;> rfl

theorem exec_idle_observed {i : Instr} {s : State} (hp : s.phase = .idle) :
    observedResult (exec i s.observed) = observedResult (exec i s) := by
  rcases exec_idle (i := i) hp with ⟨hw, hl, he⟩ | ⟨hw, hl, he⟩ | ⟨hw, he⟩ <;> rw [he]
  · rw [exec_idle_accepts (s := s.observed) hp hl hw]
    exact congrArg Host.Outcome.next (latch_observed i s)
  · rw [exec_idle_refuses (s := s.observed) hp hl hw]
    rfl
  · rw [exec_idle_lacksFacade (s := s.observed) hp hw]

theorem acceptNext_observed {s : State} (hp : s.phase = .idle) :
    observedResult (acceptNext s.observed) = observedResult (acceptNext s) := by
  have hcmds : s.observed.cmds = s.cmds := rfl
  have hcfg : s.observed.cfg = s.cfg := rfl
  unfold acceptNext
  rw [hcmds, hcfg]
  split
  · exact congrArg Host.Outcome.next (observed_observed s)
  · split
    · exact exec_idle_observed hp
    · rfl

theorem engineStep_observed (s : State) : observedResult (engineStep s.observed) = observedResult (engineStep s) := by
  by_cases hp : s.phase = .idle
  · rw [engineStep_idle hp, engineStep_idle (s := s.observed) hp]
    exact acceptNext_observed hp
  · rw [engineStep_busy hp, engineStep_busy (s := s.observed) hp]
    exact congrArg Host.Outcome.next (line_observed s)

theorem envMove_observed (m : EnvMove) (s : State) : observedResult (envMove m s.observed) = observedResult (envMove m s) := by
  cases m with
  | rx b => exact congrArg Host.Outcome.next (observed_observed (s.lineReceive b))
  | drain => exact congrArg Host.Outcome.next (observed_observed s.lineTransmit)
  | tick d => exact congrArg Host.Outcome.next (observed_observed (s.advanceTime d))
  | enbWrite v => exact congrArg Host.Outcome.next (observed_observed (s.foreignEnbWrite v))
  | enbRead => exact congrArg Host.Outcome.next (observed_observed s)
  | offer c => exact congrArg Host.Outcome.next (observed_observed (s.offerCommand c))
  | srcSet i b => exact congrArg Host.Outcome.next (observed_observed (s.changeSource i b))
  | intrude => rfl

@[simp] theorem State.observed_sched (s : State) : s.observed.sched = s.sched := rfl

/-- A step of any agent depends on what is observed only. -/
theorem step_observed (s : State) : observedResult (step s.observed) = observedResult (step s) := by
  rcases step_cases s with ⟨hl, he⟩ | ⟨hl, hs, he⟩ | ⟨u, rest, hl, hs, he⟩ | ⟨m, rest, hl, hs, he⟩ <;> rw [he]
  · rw [step_illFormedLaunch (s := s.observed) hl]
  · have hturn : s.observed.engineTurn = some (s.supply (Config.freeWord s.freeCount) []).observed := by
      simp only [State.engineTurn, State.observed_sched, hs]
      rfl
    rw [step_engineTurn (s := s.observed) hl hturn]
    exact engineStep_observed _
  · have hturn : s.observed.engineTurn = some (s.supply u rest).observed := by
      simp only [State.engineTurn, State.observed_sched, hs]
      rfl
    rw [step_engineTurn (s := s.observed) hl hturn]
    exact engineStep_observed _
  · rw [step_scheduledMove (s := s.observed) hl hs]
    exact envMove_observed m { s with sched := rest }

theorem run_refused {r : Refusal} {s : State} (k : Nat) (h : step s = .refused r) :
    Host.Core.run Sys2Proof.core (k + 1) s = .refused r := by
  have h' : Sys2Proof.core.step s = .refused r := h
  simp only [Host.Core.run, h']

theorem observedResult_next {x : Result} {t : State} (h : observedResult x = .next t) :
    ∃ t', x = .next t' ∧ t'.observed = t := by
  cases x with
  | next t' => exact ⟨t', rfl, Host.Outcome.next.inj h⟩
  | fault r => cases h
  | refused r => cases h

theorem observedResult_refused {x : Result} {r : Refusal} (h : observedResult x = .refused r) : x = .refused r := by
  cases x with
  | next t' => cases h
  | fault r => cases h
  | refused r' => exact h

/-- So does a run. -/
theorem run_observed (k : Nat) {s t : State} (h : t.observed = s.observed) :
    observedResult (Host.Core.run Sys2Proof.core k t) = observedResult (Host.Core.run Sys2Proof.core k s) := by
  induction k generalizing s t with
  | zero => exact congrArg Host.Outcome.next h
  | succ k ih =>
    have hstep : observedResult (step t) = observedResult (step s) := by
      rw [← step_observed t, ← step_observed s, h]
    cases hs : step s with
    | next s' =>
      rw [hs] at hstep
      obtain ⟨t', ht, hsame⟩ := observedResult_next hstep
      rw [run_succ k hs, run_succ k ht]
      exact ih hsame
    | fault r => exact nomatch r
    | refused r =>
      rw [hs] at hstep
      rw [run_refused k hs, run_refused k (observedResult_refused hstep)]

/-- Settles O56: the two runs start with the same observed state, and every step keeps it so. -/
theorem unspecifiedLatchesNeverObserved : Obligations.UnspecifiedLatchesNeverObserved := by
  unfold Obligations.UnspecifiedLatchesNeverObserved
  intro s l k hp hv
  have hrun := run_observed k (withLatches_observed (l := l) hp hv)
  refine ⟨fun t ht => ?_, fun r hr => ?_⟩
  · rw [ht] at hrun
    obtain ⟨t', ht', hsame⟩ := observedResult_next hrun
    exact ⟨t'.latches, ht'.trans (congrArg Host.Outcome.next (eq_withLatches_of_observed hsame))⟩
  · rw [hr] at hrun
    exact observedResult_refused hrun

end Sys2Proof.Machine
